-- ==== Sys2Proof/Word.lean ====
section
/-!
DEFINITION. The words of the block (00_scope.md R10): bytes, 16-bit and 32-bit values.
-/
namespace Sys2Proof

/-- A byte: an unsigned integer 0..255 (R10). -/
abbrev Byte := BitVec 8

/-- `u16` (R10). -/
abbrev Half := BitVec 16

/-- `u32`, or `s32` in two's complement (R10). -/
abbrev Word := BitVec 32

end Sys2Proof
end

