-- ==== Sys2Proof/Config.lean ====
section
/-!
DEFINITION. The implementation parameters of 00_scope.md R8: the FIXED and DECIDED ones as constants, the OPEN ones as the
fields of `Params`, with the constraints of R8 and R9; and the one value the spec leaves unstated.
-/
namespace Sys2Proof.Config

/-- `TERM`, the line terminator byte LF (R8, FIXED). -/
abbrev term : Byte := 0x0A#8
/-- The sentinel `$` (R8 `SENTINELS`, R13). -/
abbrev dollar : Byte := 0x24#8
/-- The sentinel `!` (R8 `SENTINELS`, R13). -/
abbrev bang : Byte := 0x21#8
/-- `MARKER`, the checksum marker `*` (R8). -/
abbrev marker : Byte := 0x2A#8
/-- The field delimiter `,` (R13). -/
abbrev comma : Byte := 0x2C#8
/-- The decimal point `.` (R13). -/
abbrev point : Byte := 0x2E#8
/-- CR (R13). -/
abbrev cr : Byte := 0x0D#8
/-- LF (R13). -/
abbrev lf : Byte := 0x0A#8
/-- `PRE0` (R8). -/
abbrev pre0 : Byte := 0x04#8
/-- `PRE1` (R8). -/
abbrev pre1 : Byte := 0x24#8
/-- `END0` (R8). -/
abbrev end0 : Byte := 0x0D#8
/-- `END1` (R8). -/
abbrev end1 : Byte := 0x0A#8
/-- `SUBLEN`, bytes per upload sub-payload (R8). -/
abbrev subLen : Nat := 60
/-- `PKTMAX`, capacity of `UBUF`, `RXBUF` and `EXP` (R8, DECIDED). -/
abbrev pktMax : Nat := 191
/-- The all-ones sequence value, reserved for the final packet (45_upload.md R233). -/
abbrev finalSeq : Half := 0xFFFF#16

/-- `DOLLAR_POLICY` (R8, 41_line_assembler.md R135): what a `$` byte does when the cursor is not zero. -/
inductive DollarPolicy where
  | keep
  | reset
  deriving DecidableEq, Repr

/-- The OPEN parameters of R8: constants of the instance, fixed before reset is released (70_reset_and_hazards.md R282). -/
structure Params where
  /-- `MAXLINE`, capacity of each line buffer; at most 255 by its type. -/
  maxLine : Fin 256
  /-- `DOLLAR_POLICY`. -/
  dollarPolicy : DollarPolicy
  /-- `SRC_LIST`: talker source tokens. -/
  srcList : List (List Byte)
  /-- `PARSE_LIST`: parseable sentence types. -/
  parseList : List (List Byte)
  /-- `KNOWN_LIST`: known-but-unparsed sentence types. -/
  knownList : List (List Byte)
  /-- `UPL_CMD`: command code of an upload packet. -/
  uplCmd : Half
  /-- `ACK_OF` as plain data: the sequence values whose acknowledgement is not the default of 45_upload.md R235, each with
  its packet.  A finite table over all 65536 values, so every function is expressible. -/
  ackTable : List (Half × List Byte)
  /-- `UPL_TMO`: budget of an upload acknowledgement wait, in ticks. -/
  uplTmo : Half
  /-- `TICK_PERIOD`: R8 says no rule depends on it. -/
  tickPeriod : Nat
  deriving DecidableEq, Repr

/-- A token holds none of the bytes 0x00, `*`, `,` (R9). -/
def cleanToken (t : List Byte) : Bool :=
  t.all fun b => b != 0x00#8 && b != marker && b != comma

/-- The constraints of R8 and R9 on the OPEN parameters. -/
def Params.wf (p : Params) : Bool :=
  decide (2 ≤ p.maxLine.val) &&
  (p.srcList.all fun t => (t.length == 2 || t.length == 3) && cleanToken t) &&
  (p.parseList.all fun t => t.length == 3 && cleanToken t) &&
  (p.knownList.all fun t => t.length == 3 && cleanToken t) &&
  decide p.srcList.Nodup && decide p.parseList.Nodup && decide p.knownList.Nodup &&
  (p.ackTable.all fun e => decide (9 ≤ e.2.length) && decide (e.2.length ≤ pktMax)) &&
  p.uplTmo != 0#16

/-- The parameters `State.reset` takes.  MAXLINE, DOLLAR_POLICY, UPL_CMD and ACK_OF are the defaults of R8 and R235 (PRESUMED by
the spec itself: G1, G4, G5); the lists ["GP", "GN"], ["GGA", "RMC"], ["GSV"] and UPL_TMO = 100 are the example values of
95_test_vectors.md, and TICK_PERIOD is 1.  DESIGN CHOICE (log 2), unsafe: R8 gives these no value. -/
def Params.standard : Params where
  maxLine := 120
  dollarPolicy := .keep
  srcList := [[0x47#8, 0x50#8], [0x47#8, 0x4E#8]]
  parseList := [[0x47#8, 0x47#8, 0x41#8], [0x52#8, 0x4D#8, 0x43#8]]
  knownList := [[0x47#8, 0x53#8, 0x56#8]]
  uplCmd := 0x02D2#16
  ackTable := []
  uplTmo := 100#16
  tickPeriod := 1

/-- A FREE VALUE (DESIGN CHOICE, log 8, safe): the byte `VALID` answers for a list index that does not fit a byte.
42_validator.md R150 says that the index is one response byte and states no value for an index above 255. -/
opaque unstatedIndexByte : Nat → Byte

end Sys2Proof.Config
end

