-- ==== Sys2Proof/Syntax.lean ====
section
/-!
DEFINITION. The operation set "spec-1" (30_encoding.md R84): one constructor per row of the table, with the operands of its
command format (R81).  The length fields `n` of the formats FS, FP, FA are the lengths of the byte strings.
-/
namespace Sys2Proof

/-- The operations of R84. -/
inductive Instr where
  /-- `FEED b`, 0x01, F1 (41_line_assembler.md R130). -/
  | feed (b : Byte)
  /-- `HAS`, 0x02, F0 (R132). -/
  | has
  /-- `TAKE`, 0x03, F0 (R133). -/
  | take
  /-- `LREAD i`, 0x04, F1 (R134). -/
  | lread (i : Byte)
  /-- `XORRNG lo, hi`, 0x10, F2 (40_checksum.md R111). -/
  | xorrng (lo hi : Byte)
  /-- `HEXR v`, 0x11, F1 (R112). -/
  | hexr (v : Byte)
  /-- `HEXP c1, c2`, 0x12, F2 (R113). -/
  | hexp (c1 c2 : Byte)
  /-- `TXFRAME s`, 0x13, FS (R114). -/
  | txframe (text : List Byte)
  /-- `VALID`, 0x20, F0 (42_validator.md R150). -/
  | valid
  /-- `FRST`, 0x30, F0 (43_field_decoder.md R170). -/
  | frst
  /-- `FNEXT`, 0x31, F0 (R171). -/
  | fnext
  /-- `FEMPTY`, 0x32, F0 (R172). -/
  | fempty
  /-- `TIMED`, 0x33, F0 (R175). -/
  | timed
  /-- `DATED`, 0x34, F0 (R177). -/
  | dated
  /-- `COORD kind`, 0x35, F1 (R180). -/
  | coord (kind : Byte)
  /-- `RDREG r`, 0x36, F1 (R190). -/
  | rdreg (r : Byte)
  /-- `PSEND cmd, payload`, 0x40, FP (44_packet.md R200). -/
  | psend (cmd : Half) (payload : List Byte)
  /-- `AWAIT budget, expected`, 0x41, FA (R203). -/
  | await (budget : Half) (expected : List Byte)
  /-- `PRX b`, 0x42, F1 (R205). -/
  | prx (b : Byte)
  /-- `TICK`, 0x43, F0 (R208). -/
  | tick
  /-- `UBEGIN`, 0x48, F0 (45_upload.md R230). -/
  | ubegin
  /-- `USUB d`, 0x49, FU (R231). -/
  | usub (d : List Byte)
  /-- `UFIN`, 0x4A, F0 (R233). -/
  | ufin
  deriving DecidableEq, Repr

/-- The pseudo-operations of R91, each a fixed expansion into operations (`Pseudo.expand`). -/
inductive Pseudo where
  /-- `FEEDS "s"`. -/
  | feeds (s : List Byte)
  /-- `PRXS [b0 b1 ...]`. -/
  | prxs (bs : List Byte)
  /-- `TICKS k`. -/
  | ticks (k : Nat)
  /-- `USUBS [180 bytes]`. -/
  | usubs (d : List Byte)
  deriving DecidableEq, Repr

end Sys2Proof
end

