-- ==== Sys2Proof/WellFormed.lean ====
section
/-!
DEFINITION. Which terms of `Instr` are operations of the command port (30_encoding.md R81): those whose byte strings have a length
that the format's length field can hold, and exactly 60 bytes for `USUB`.
-/
namespace Sys2Proof

/-- Well-formedness of an operation (R81): `n` of FS and FA is a byte, `n` of FP a u16, `d` of FU is 60 bytes.  Values outside the
range an operation's rule states are NOT ill-formed: they answer `BAD_OPERAND` (R89). -/
def Instr.wf : Instr → Bool
  | .txframe text => decide (text.length < 256)
  | .psend _ payload => decide (payload.length < 65536)
  | .await _ expected => decide (expected.length < 256)
  | .usub d => d.length == Config.subLen
  | .feed _ | .has | .take | .lread _ | .xorrng _ _ | .hexr _ | .hexp _ _ | .valid | .frst | .fnext | .fempty
  | .timed | .dated | .coord _ | .rdreg _ | .prx _ | .tick | .ubegin | .ufin => true

/-- Well-formedness of a pseudo-operation (R91): `USUBS` takes 180 bytes. -/
def Pseudo.wf : Pseudo → Bool
  | .usubs d => d.length == 3 * Config.subLen
  | .feeds _ | .prxs _ | .ticks _ => true

end Sys2Proof
end

