-- ==== Sys2Proof/Decode.lean ====
section
/-!
DEFINITION. Command words (30_encoding.md R80, R81, R84, R89): the decoder, total on every byte string and rejecting by name, and
after it the encoder, written from the same tables.
-/
namespace Sys2Proof

/-- `lo8` of a 16-bit value (00_scope.md R10). -/
def lo8 (v : Half) : Byte := v.setWidth 8

/-- `hi8` of a 16-bit value (R10). -/
def hi8 (v : Half) : Byte := (v >>> 8).setWidth 8

/-- A `u16` operand, `byte_lo + 256 * byte_hi` (30_encoding.md R81). -/
def u16 (lo hi : Byte) : Half := hi ++ lo

/-- The opcode map of R84, without operands. -/
inductive Opcode where
  | feed | has | take | lread | xorrng | hexr | hexp | txframe | valid | frst | fnext | fempty | timed | dated | coord | rdreg
  | psend | await | prx | tick | ubegin | usub | ufin
  deriving DecidableEq, Repr

/-- Why a byte string is no operation (R89); the block answers each with `ILLEGAL_OP`. -/
inductive DecodeError where
  /-- The empty command word. -/
  | emptyWord
  /-- Byte 0 is not an opcode of R84. -/
  | unassignedOpcode (op : Byte)
  /-- The total length differs from the one R81 gives for the opcode: a word cut short, or with trailing bytes. -/
  | wrongLength (op : Opcode)
  deriving DecidableEq, Repr

/-- The command formats of R81. -/
inductive Format where
  | f0 | f1 | f2 | fs | fp | fa | fu
  deriving DecidableEq, Repr

/-- R84: the opcode column. -/
def Opcode.byte : Opcode → Byte
  | .feed => 0x01#8
  | .has => 0x02#8
  | .take => 0x03#8
  | .lread => 0x04#8
  | .xorrng => 0x10#8
  | .hexr => 0x11#8
  | .hexp => 0x12#8
  | .txframe => 0x13#8
  | .valid => 0x20#8
  | .frst => 0x30#8
  | .fnext => 0x31#8
  | .fempty => 0x32#8
  | .timed => 0x33#8
  | .dated => 0x34#8
  | .coord => 0x35#8
  | .rdreg => 0x36#8
  | .psend => 0x40#8
  | .await => 0x41#8
  | .prx => 0x42#8
  | .tick => 0x43#8
  | .ubegin => 0x48#8
  | .usub => 0x49#8
  | .ufin => 0x4A#8

/-- The rows of R84 in the table's order. -/
def opcodeTable : List Opcode :=
  [.feed, .has, .take, .lread, .xorrng, .hexr, .hexp, .txframe, .valid, .frst, .fnext, .fempty, .timed, .dated, .coord, .rdreg,
   .psend, .await, .prx, .tick, .ubegin, .usub, .ufin]

/-- The row whose opcode equals byte 0 (R84). -/
def opcodeOf (b : Byte) : Option Opcode := opcodeTable.find? fun o => o.byte == b

/-- R84: the format column. -/
def Opcode.format : Opcode → Format
  | .has | .take | .valid | .frst | .fnext | .fempty | .timed | .dated | .tick | .ubegin | .ufin => .f0
  | .feed | .lread | .hexr | .coord | .rdreg | .prx => .f1
  | .xorrng | .hexp => .f2
  | .txframe => .fs
  | .psend => .fp
  | .await => .fa
  | .usub => .fu

/-- R81: the total length of a command word of a format, told from the bytes after the opcode (a length byte that is missing
counts as 0: the word is then shorter than the format's fixed part). -/
def Format.totalLength (f : Format) (rest : List Byte) : Nat :=
  match f with
  | .f0 => 1
  | .f1 => 2
  | .f2 => 3
  | .fs => 2 + (rest.getD 0 0#8).toNat
  | .fp => 5 + (u16 (rest.getD 2 0#8) (rest.getD 3 0#8)).toNat
  | .fa => 4 + (rest.getD 2 0#8).toNat
  | .fu => 1 + Config.subLen

/-- Format F0: no operand byte. -/
def readF0 (i : Instr) : List Byte → Option Instr
  | [] => some i
  | _ :: _ => none

/-- Format F1: one byte. -/
def readF1 (f : Byte → Instr) : List Byte → Option Instr
  | [a] => some (f a)
  | _ => none

/-- Format F2: two bytes. -/
def readF2 (f : Byte → Byte → Instr) : List Byte → Option Instr
  | [a, b] => some (f a b)
  | _ => none

/-- Format FS: a length byte and as many bytes. -/
def readFS (f : List Byte → Instr) : List Byte → Option Instr
  | n :: text => if text.length = n.toNat then some (f text) else none
  | [] => none

/-- Format FP: a u16, a u16 length and as many bytes. -/
def readFP (f : Half → List Byte → Instr) : List Byte → Option Instr
  | c0 :: c1 :: n0 :: n1 :: payload =>
      if payload.length = (u16 n0 n1).toNat then some (f (u16 c0 c1) payload) else none
  | _ => none

/-- Format FA: a u16, a length byte and as many bytes. -/
def readFA (f : Half → List Byte → Instr) : List Byte → Option Instr
  | t0 :: t1 :: n :: expected => if expected.length = n.toNat then some (f (u16 t0 t1) expected) else none
  | _ => none

/-- Format FU: exactly 60 bytes. -/
def readFU (f : List Byte → Instr) (d : List Byte) : Option Instr :=
  if d.length = Config.subLen then some (f d) else none

/-- The operands of an operation from the bytes after its opcode (R81); `none` when their number is not the one its format gives. -/
def decodeOperands : Opcode → List Byte → Option Instr
  | .feed => readF1 .feed
  | .has => readF0 .has
  | .take => readF0 .take
  | .lread => readF1 .lread
  | .xorrng => readF2 .xorrng
  | .hexr => readF1 .hexr
  | .hexp => readF2 .hexp
  | .txframe => readFS .txframe
  | .valid => readF0 .valid
  | .frst => readF0 .frst
  | .fnext => readF0 .fnext
  | .fempty => readF0 .fempty
  | .timed => readF0 .timed
  | .dated => readF0 .dated
  | .coord => readF1 .coord
  | .rdreg => readF1 .rdreg
  | .psend => readFP .psend
  | .await => readFA .await
  | .prx => readF1 .prx
  | .tick => readF0 .tick
  | .ubegin => readF0 .ubegin
  | .usub => readFU .usub
  | .ufin => readF0 .ufin

/-- The decoder (R80, R89): every byte string is exactly one operation, or illegal for a named reason. -/
def decode : List Byte → Except DecodeError Instr
  | [] => .error .emptyWord
  | b :: rest =>
    match opcodeOf b with
    | none => .error (.unassignedOpcode b)
    | some o =>
      match decodeOperands o rest with
      | some i => .ok i
      | none => .error (.wrongLength o)

/-- The row of R84 an operation belongs to. -/
def Instr.opcode : Instr → Opcode
  | .feed _ => .feed
  | .has => .has
  | .take => .take
  | .lread _ => .lread
  | .xorrng _ _ => .xorrng
  | .hexr _ => .hexr
  | .hexp _ _ => .hexp
  | .txframe _ => .txframe
  | .valid => .valid
  | .frst => .frst
  | .fnext => .fnext
  | .fempty => .fempty
  | .timed => .timed
  | .dated => .dated
  | .coord _ => .coord
  | .rdreg _ => .rdreg
  | .psend _ _ => .psend
  | .await _ _ => .await
  | .prx _ => .prx
  | .tick => .tick
  | .ubegin => .ubegin
  | .usub _ => .usub
  | .ufin => .ufin

/-- The operand bytes of R81. -/
def Instr.operandBytes : Instr → List Byte
  | .feed b => [b]
  | .lread i => [i]
  | .xorrng lo hi => [lo, hi]
  | .hexr v => [v]
  | .hexp c1 c2 => [c1, c2]
  | .txframe text => BitVec.ofNat 8 text.length :: text
  | .coord kind => [kind]
  | .rdreg r => [r]
  | .psend cmd payload =>
      let n : Half := BitVec.ofNat 16 payload.length
      lo8 cmd :: hi8 cmd :: lo8 n :: hi8 n :: payload
  | .await budget expected => lo8 budget :: hi8 budget :: BitVec.ofNat 8 expected.length :: expected
  | .prx b => [b]
  | .usub d => d
  | .has | .take | .valid | .frst | .fnext | .fempty | .timed | .dated | .tick | .ubegin | .ufin => []

/-- The encoder: the command word of an operation (R80, R81, R84). -/
def encode (i : Instr) : List Byte := i.opcode.byte :: i.operandBytes

/-- The length R81 gives for a word whose byte 0 is an opcode of R84. -/
def wordLength : List Byte → Option Nat
  | [] => none
  | b :: rest => (opcodeOf b).map fun o => o.format.totalLength rest

/-- The low `n` bytes of a number, least significant first. -/
def bytesOfNat : Nat → Nat → List Byte
  | 0, _ => []
  | n + 1, w => BitVec.ofNat 8 w :: bytesOfNat n (w / 256)

/-- The command word whose low `nbits` bits are `w` (byte 0 is bits 7..0) and whose further operand bytes, up to the length R81
tells, are zero. -/
def tableWord (nbits w : Nat) : List Byte :=
  let given := bytesOfNat ((nbits + 7) / 8) w
  given ++ List.replicate ((wordLength given).getD 0 - given.length) 0#8

/-- The instruction the decoder reads from `tableWord`. -/
def decodeTableWord (nbits w : Nat) : Option Instr :=
  match decode (tableWord nbits w) with
  | .ok i => some i
  | .error _ => none

end Sys2Proof
end

