-- ==== Sys2Proof/Machine/State.lean ====
section
/-!
DEFINITION. The state of the block (10_state.md R20 to R41) as plain data, with the model's own fields (parameters, pending port
events, responses), its reset value (R45), and the reasons a step can stop.
-/
namespace Sys2Proof.Machine

/-- The contents of one byte array (20_memory.md R60) as (index, byte) pairs, indices strictly rising, no entry equal to 0x00; an
index that is not listed holds 0x00, the reset content (10_state.md R45; log 9). -/
abbrev Memory := List Host.Cell

/-- The byte arrays of R60.  `line k` is `BUF[k]`. -/
inductive Space where
  | line (k : Bool)
  | rxbuf
  | exp
  | ubuf
  deriving DecidableEq, Repr

/-- `AWST` (10_state.md R37). -/
inductive WaitState where
  /-- 0: no wait has been started since reset or since `UBEGIN`. -/
  | none
  /-- 1: a wait is in progress. -/
  | waiting
  /-- 2: the last wait ended with an exact match. -/
  | matched
  /-- 3: the last wait ended because its budget ran out. -/
  | timedOut
  deriving DecidableEq, Repr

/-- `UPLPEND` (10_state.md R39): what the wait was started for. -/
inductive Pending where
  /-- 0: started by `AWAIT`, or nothing started. -/
  | none
  /-- 1: started by the third `USUB` of a unit. -/
  | unit
  /-- 2: started by `UFIN`. -/
  | final
  deriving DecidableEq, Repr

/-- The named states of the receive state machine (44_packet.md R204); a view of `RXN` and `RXLEN`, not stored. -/
inductive RxState where
  | idle
  | sawPreamble1
  | sawPreamble2
  | readingLength
  | readingCommand
  | readingPayload
  | readingChecksum
  | readingEnd1
  | readingEnd2
  deriving DecidableEq, Repr

/-- The status codes of 30_encoding.md R83. -/
inductive Status where
  | ok | empty | noField
  | badSentinel | noMarker | badHex | badChecksum | badSource | knownUnparsed | badType
  | badField | badHemi | outOfRange
  | pending | matched | timedOut | notWaiting | busy | tooLong | seqExhausted | badState
  | badOperand | illegalOp
  deriving DecidableEq, Repr

/-- The registers `RDREG` can read (10_state.md R26 and R42). -/
inductive Reg where
  | hour | minute | second | millis | day | month | year
  | latRaw | latFix | latHemi | lonRaw | lonFix | lonHemi | rvalid
  | cur | act | new | fp
  | seq | subcnt | awst | tmo | rxn | rxlen | uplpend | rxck | explen
  deriving DecidableEq, Repr

/-- The operand of `COORD` (43_field_decoder.md R180). -/
inductive CoordKind where
  | lat
  | lon
  deriving DecidableEq, Repr

/-- What the host can do to the block between two operations: present a command word (30_encoding.md R80) or assert the reset input
(70_reset_and_hazards.md R280, R281). -/
inductive PortEvent where
  | command (word : List Byte)
  | reset
  deriving DecidableEq, Repr

/-- The state of the block.  The fields from `buf0` to `txOut` are the spec's (R20 to R40); `params`, `port` and `responses` are the
model's own (log 1, 4, 5). -/
@[ext]
structure State where
  /-- The parameters of 00_scope.md R8: constants of the instance, written by nothing. -/
  params : Config.Params
  /-- `BUF[0]` (R20). -/
  buf0 : Memory
  /-- `BUF[1]` (R20). -/
  buf1 : Memory
  /-- `ACT` (R21): false is 0, true is 1. -/
  act : Bool
  /-- `CUR` (R22). -/
  cur : Byte
  /-- `NEW` (R23). -/
  new : Bool
  /-- `FP` (R25). -/
  fp : Byte
  /-- `HOUR` (R26). -/
  hour : Byte
  /-- `MIN` (R26). -/
  minute : Byte
  /-- `SEC` (R26). -/
  second : Byte
  /-- `MS` (R26). -/
  millis : Half
  /-- `DAY` (R26). -/
  day : Byte
  /-- `MONTH` (R26). -/
  month : Byte
  /-- `YEAR` (R26). -/
  year : Byte
  /-- `LAT_RAW` (R26). -/
  latRaw : Word
  /-- `LAT_FIX` (R26), two's complement. -/
  latFix : Word
  /-- `LAT_HEMI` (R26). -/
  latHemi : Byte
  /-- `LON_RAW` (R26). -/
  lonRaw : Word
  /-- `LON_FIX` (R26), two's complement. -/
  lonFix : Word
  /-- `LON_HEMI` (R26). -/
  lonHemi : Byte
  /-- `RVALID` (R26): bit 0 TIME_V, bit 1 DATE_V, bit 2 LAT_V, bit 3 LON_V. -/
  rvalid : BitVec 4
  /-- `RXBUF` (R34). -/
  rxbuf : Memory
  /-- `RXN` (R35). -/
  rxn : Byte
  /-- `RXLEN` (R35). -/
  rxlen : Byte
  /-- `RXCK` (R35; on the bytes it covers log 11). -/
  rxck : Byte
  /-- `EXP` (R36). -/
  exp : Memory
  /-- `EXPLEN` (R36). -/
  explen : Byte
  /-- `AWST` (R37). -/
  awst : WaitState
  /-- `TMO` (R37). -/
  tmo : Half
  /-- `SEQ` (R38). -/
  seq : Half
  /-- `SUBCNT` (R38), 0..2. -/
  subcnt : Fin 3
  /-- `UBUF` (R38). -/
  ubuf : Memory
  /-- `UPLPEND` (R39). -/
  uplpend : Pending
  /-- `TXOUT` (R40): every byte sent since reset, oldest first. -/
  txOut : List Byte
  /-- The events the host has presented and the block has not executed yet, oldest first (log 4). -/
  port : List PortEvent
  /-- Every response given since reset, oldest first (30_encoding.md R82, 70_reset_and_hazards.md R293; log 5). -/
  responses : List (List Byte)
  deriving DecidableEq, Repr

/-- Why a step can stop.  The spec makes nothing fatal (60_exceptions.md R253), so both are raised only in states that no run reaches
(log 7; the statement `WellFormedStateNeverStops`). -/
inductive Fault where
  /-- Raised by `FEED`, `PRX`, `USUB` and `UFIN` when a cursor, a length register or a parameter holds an illegal value and the access
  would fall outside its byte array, which 20_memory.md R61 says no access does.  Safe: the model stops. -/
  | indexOutsideSpace
  /-- Raised by `TICK` when `TMO` is 0 during a wait, and by a matching `PRX` when `SEQ` is 65535 in a unit's wait: the value to be
  written is outside the register (00_scope.md R10).  Safe: the model stops. -/
  | valueOutsideRegister
  deriving DecidableEq, Repr

/-- Why a step can refuse. -/
inductive Refusal where
  /-- Raised by an arm of `exec` whose instruction has no meaning yet; no arm is left, so nothing raises it.  Safe. -/
  | notModelled (mnemonic : String)
  deriving DecidableEq, Repr

/-- The state after reset of an instance with the parameters `p` (10_state.md R45, 70_reset_and_hazards.md R280). -/
def State.resetWith (p : Config.Params) : State where
  params := p
  buf0 := []
  buf1 := []
  act := false
  cur := 0
  new := false
  fp := 0
  hour := 0
  minute := 0
  second := 0
  millis := 0
  day := 0
  month := 0
  year := 0
  latRaw := 0
  latFix := 0
  latHemi := 0
  lonRaw := 0
  lonFix := 0
  lonHemi := 0
  rvalid := 0
  rxbuf := []
  rxn := 0
  rxlen := 0
  rxck := 0
  exp := []
  explen := 0
  awst := .none
  tmo := 0
  seq := 0
  subcnt := 0
  ubuf := []
  uplpend := .none
  txOut := []
  port := []
  responses := []

/-- The machine right after reset (R45), with the parameters of `Config.Params.standard` (DESIGN CHOICE, log 2). -/
def State.reset : State := State.resetWith Config.Params.standard

end Sys2Proof.Machine
end

