-- ==== Sys2Proof/Machine/Ops.lean ====
section
/-!
DEFINITION. The named operations every meaning uses: the byte arrays, the response of an operation (the `respond`, `fail` and `emit` of
00_scope.md R11), the command port, and the reset input.  The block has no exceptions (60_exceptions.md R251): `fail` is the one
shared operation that delivers a failure, and there is nothing to return from.
-/
namespace Sys2Proof.Machine

/-- What an operation answers. -/
abbrev Result := Host.Outcome State Fault Refusal

/-! ### Byte arrays (20_memory.md R60 to R63) -/

/-- The byte at index `a`; an index that is not listed holds 0x00 (log 9). -/
def Memory.read : Memory → Nat → Byte
  | [], _ => 0#8
  | (x, y) :: m, a => if x = a then y else Memory.read m a

/-- Write one byte at index `a`, keeping the canonical form. -/
def Memory.write : Memory → Nat → Byte → Memory
  | [], a, b => if b = 0#8 then [] else [(a, b)]
  | (x, y) :: m, a, b =>
    if x < a then (x, y) :: Memory.write m a b
    else if x = a then (if b = 0#8 then m else (a, b) :: m)
    else if b = 0#8 then (x, y) :: m else (a, b) :: (x, y) :: m

/-- The canonical form: indices strictly rising, no entry equal to what an unlisted index holds. -/
def Memory.wf : Memory → Bool
  | [] => true
  | (x, y) :: m => (y != 0#8) && (m.all fun c => decide (x < c.1)) && Memory.wf m

/-- Every listed index lies inside an array of `n` bytes. -/
def Memory.within (m : Memory) (n : Nat) : Bool := m.all fun c => decide (c.1 < n)

/-- Write the bytes `bs` at `a`, `a + 1`, … -/
def Memory.writeBytes : Memory → Nat → List Byte → Memory
  | m, _, [] => m
  | m, a, b :: bs => Memory.writeBytes (Memory.write m a b) (a + 1) bs

/-- The `n` bytes from index `a` on. -/
def Memory.readBytes (m : Memory) (a n : Nat) : List Byte := (List.range' a n).map (Memory.read m)

/-- The contents of an array. -/
def State.mem (s : State) : Space → Memory
  | .line false => s.buf0
  | .line true => s.buf1
  | .rxbuf => s.rxbuf
  | .exp => s.exp
  | .ubuf => s.ubuf

/-- Replace the contents of an array. -/
def State.setMem (S : Space) (m : Memory) (s : State) : State :=
  match S with
  | .line false => { s with buf0 := m }
  | .line true => { s with buf1 := m }
  | .rxbuf => { s with rxbuf := m }
  | .exp => { s with exp := m }
  | .ubuf => { s with ubuf := m }

/-- The size of an array (R60). -/
def State.size (s : State) : Space → Nat
  | .line _ => s.params.maxLine.val
  | .rxbuf | .exp | .ubuf => Config.pktMax

/-- `MemRead(S, i, 1)` (00_scope.md R11). -/
def State.byteAt (s : State) (S : Space) (i : Nat) : Byte := (s.mem S).read i

/-- `S[i .. i + n)`. -/
def State.bytesAt (s : State) (S : Space) (i n : Nat) : List Byte := (s.mem S).readBytes i n

/-- `S[i .. i + |bs|) <- bs`, for a range inside the array. -/
def State.store (S : Space) (i : Nat) (bs : List Byte) (s : State) : State :=
  s.setMem S ((s.mem S).writeBytes i bs)

/-- Go on only if `S[i .. i + n)` lies inside the array; R61 says that no access falls outside (log 7). -/
def withinSpace (s : State) (S : Space) (i n : Nat) (go : Result) : Result :=
  if i + n ≤ s.size S then go else .fault .indexOutsideSpace

/-- `S[i .. i + |bs|) <- bs`, then go on with the state after the store. -/
def storeThen (S : Space) (i : Nat) (bs : List Byte) (s : State) (go : State → Result) : Result :=
  withinSpace s S i bs.length (go (s.store S i bs))

/-! ### Responses and output (00_scope.md R11, 30_encoding.md R82, R83) -/

/-- The code of a status (R83). -/
def Status.code : Status → Byte
  | .ok => 0x00#8
  | .empty => 0x01#8
  | .noField => 0x02#8
  | .badSentinel => 0x10#8
  | .noMarker => 0x11#8
  | .badHex => 0x12#8
  | .badChecksum => 0x13#8
  | .badSource => 0x14#8
  | .knownUnparsed => 0x15#8
  | .badType => 0x16#8
  | .badField => 0x20#8
  | .badHemi => 0x21#8
  | .outOfRange => 0x22#8
  | .pending => 0x30#8
  | .matched => 0x31#8
  | .timedOut => 0x32#8
  | .notWaiting => 0x33#8
  | .busy => 0x34#8
  | .tooLong => 0x35#8
  | .seqExhausted => 0x36#8
  | .badState => 0x37#8
  | .badOperand => 0xFE#8
  | .illegalOp => 0xFF#8

/-- Record a response: the status byte, then the data (R82). -/
def State.answer (st : Status) (data : List Byte) (s : State) : State :=
  { s with responses := s.responses ++ [st.code :: data] }

/-- `respond(status, data...)`: the operation ends (R11). -/
def respond (st : Status) (data : List Byte) (s : State) : Result := .next (s.answer st data)

/-- `fail(status)`: the operation ends and has written no state (R11, 60_exceptions.md R251, R252). -/
def fail (st : Status) (s : State) : Result := respond st [] s

/-- `emit(s)`: append to `TXOUT` (R11, 10_state.md R40). -/
def State.emit (bs : List Byte) (s : State) : State := { s with txOut := s.txOut ++ bs }

/-! ### The command port and the reset input -/

/-- Take the oldest pending event off the port. -/
def fetch (s : State) : Option (PortEvent × State) :=
  match s.port with
  | [] => none
  | e :: rest => some (e, { s with port := rest })

/-- An illegal command word: no state changes and nothing is emitted (30_encoding.md R89). -/
def illegalWord (s : State) : Result := fail .illegalOp s

/-- The reset input is asserted (70_reset_and_hazards.md R280, R281): the reset state of the same instance, no response; what the host
has presented and the block has not executed is not the block's state (log 6). -/
def assertReset (s : State) : State := { State.resetWith s.params with port := s.port }

/-- Present a command word so that the next step executes it. -/
def present (w : List Byte) (s : State) : State := { s with port := .command w :: s.port }

end Sys2Proof.Machine
end

