-- ==== Sys2Proof/Machine/Operands.lean ====
section
/-!
DEFINITION. What the operations read: the stable line (00_scope.md R12), its fields and tokens (43_field_decoder.md R173, R174), the
XOR and the hexadecimal digits (40_checksum.md R110, R115), and the register numbers of `RDREG` (10_state.md R26, R42).
-/
namespace Sys2Proof.Machine

/-! ### Byte strings (00_scope.md R10) -/

/-- `L[a..b)`, empty when `a >= b` (R10). -/
def slice (L : List Byte) (a b : Nat) : List Byte := (L.take b).drop a

/-- `XOR(s)` (R10, 40_checksum.md R110). -/
def xorBytes (bs : List Byte) : Byte := bs.foldl (fun v b => v ^^^ b) 0#8

/-- A bit as a byte. -/
def bitByte (b : Bool) : Byte := if b then 1#8 else 0#8

/-- A 32-bit value as four bytes, little-endian (20_memory.md R65). -/
def wordBytes (v : Word) : List Byte :=
  [v.setWidth 8, (v >>> 8).setWidth 8, (v >>> 16).setWidth 8, (v >>> 24).setWidth 8]

/-! ### Hexadecimal digits (40_checksum.md R115) -/

/-- `hexdigit(d)`, for d in 0..15: uppercase. -/
def hexdigit (d : Nat) : Byte := if d ≤ 9 then BitVec.ofNat 8 (0x30 + d) else BitVec.ofNat 8 (0x41 + (d - 10))

/-- `hexval(c)`; `none` where R115 says undefined: every byte but `0`-`9` and `A`-`F`. -/
def hexval (c : Byte) : Option Nat :=
  if 0x30 ≤ c.toNat ∧ c.toNat ≤ 0x39 then some (c.toNat - 0x30)
  else if 0x41 ≤ c.toNat ∧ c.toNat ≤ 0x46 then some (c.toNat - 0x41 + 10)
  else none

/-- The two digits of a byte, high nibble first (20_memory.md R65). -/
def hexDigits (v : Byte) : List Byte := [hexdigit (v.toNat / 16), hexdigit (v.toNat % 16)]

/-- The byte two digits stand for, high nibble first; `none` when either is no digit. -/
def hexPair (c1 c2 : Byte) : Option Byte :=
  match hexval c1, hexval c2 with
  | some a, some b => some (BitVec.ofNat 8 (16 * a + b))
  | _, _ => none

/-! ### The stable line (00_scope.md R12) -/

/-- `STB`, the array that is stable: `BUF[1 - ACT]`. -/
def State.stable (s : State) : Space := .line (!s.act)

/-- `line(k)`: the bytes of `BUF[k]` before its first 0x00, all MAXLINE of them when it holds none. -/
def State.line (s : State) (k : Bool) : List Byte :=
  (s.bytesAt (.line k) 0 s.params.maxLine.val).takeWhile fun b => b != 0#8

/-- `L`, the stable line. -/
def State.stableLine (s : State) : List Byte := s.line (!s.act)

/-! ### Fields and tokens (43_field_decoder.md R173, R174) -/

/-- A delimiter: `,` or `*`. -/
def isDelimiter (b : Byte) : Bool := b == Config.comma || b == Config.marker

/-- `tok(p)`: from `p` to the next delimiter or the end of the line. -/
def token (L : List Byte) (p : Nat) : List Byte := (L.drop p).takeWhile fun b => !isDelimiter b

/-- `fend(p)`: the first delimiter at or after `p`, or `n`. -/
def fieldEnd (L : List Byte) (p : Nat) : Nat :=
  if p < L.length then p + (token L p).length else L.length

/-- `isdigit(c)` (00_scope.md R13). -/
def isDigit (c : Byte) : Bool := decide (0x30 ≤ c.toNat ∧ c.toNat ≤ 0x39)

/-- `digits(T)`: the longest prefix made of decimal digits. -/
def digits (T : List Byte) : List Byte := T.takeWhile isDigit

/-- `value(ds)`: the decimal numeral, most significant digit first; `value("") = 0`. -/
def value (ds : List Byte) : Nat := ds.foldl (fun v c => 10 * v + (c.toNat - 0x30)) 0

/-- The first `k` bytes of `F` padded on the right with zero digits: `(F ++ "0…0")[0..k)`. -/
def padDigits (k : Nat) (F : List Byte) : List Byte := (F ++ List.replicate k 0x30#8).take k

/-! ### Register numbers (10_state.md R26, R42) -/

/-- The number of a register. -/
def Reg.number : Reg → Byte
  | .hour => 0x00#8
  | .minute => 0x01#8
  | .second => 0x02#8
  | .millis => 0x03#8
  | .day => 0x04#8
  | .month => 0x05#8
  | .year => 0x06#8
  | .latRaw => 0x08#8
  | .latFix => 0x09#8
  | .latHemi => 0x0A#8
  | .lonRaw => 0x0C#8
  | .lonFix => 0x0D#8
  | .lonHemi => 0x0E#8
  | .rvalid => 0x0F#8
  | .cur => 0x10#8
  | .act => 0x11#8
  | .new => 0x12#8
  | .fp => 0x13#8
  | .seq => 0x18#8
  | .subcnt => 0x19#8
  | .awst => 0x1A#8
  | .tmo => 0x1B#8
  | .rxn => 0x1C#8
  | .rxlen => 0x1D#8
  | .uplpend => 0x1E#8
  | .rxck => 0x1F#8
  | .explen => 0x20#8

/-- The register table in the order of its numbers. -/
def registerTable : List Reg :=
  [.hour, .minute, .second, .millis, .day, .month, .year, .latRaw, .latFix, .latHemi, .lonRaw, .lonFix, .lonHemi, .rvalid,
   .cur, .act, .new, .fp, .seq, .subcnt, .awst, .tmo, .rxn, .rxlen, .uplpend, .rxck, .explen]

/-- The register a number is assigned to; `none` for the unassigned numbers. -/
def registerOf (r : Byte) : Option Reg := registerTable.find? fun g => g.number == r

end Sys2Proof.Machine
end

