-- ==== Sys2Proof/Machine/Flags.lean ====
section
/-!
DEFINITION. The flags of the block (10_state.md R30): `NEW`, the valid bits of `RVALID`, the wait state `AWST` and the marker
`UPLPEND`, with the numbers they read as, the output wire `SAVAIL`, and the named receive states.
-/
namespace Sys2Proof.Machine

/-- The number `AWST` reads as (R37). -/
def WaitState.code : WaitState → Nat
  | .none => 0
  | .waiting => 1
  | .matched => 2
  | .timedOut => 3

/-- The number `UPLPEND` reads as (R39). -/
def Pending.code : Pending → Nat
  | .none => 0
  | .unit => 1
  | .final => 2

/-- Bit 0 of `RVALID` (R26). -/
def timeV : BitVec 4 := 0b0001#4
/-- Bit 1 of `RVALID` (R26). -/
def dateV : BitVec 4 := 0b0010#4
/-- Bit 2 of `RVALID` (R26). -/
def latV : BitVec 4 := 0b0100#4
/-- Bit 3 of `RVALID` (R26). -/
def lonV : BitVec 4 := 0b1000#4

/-- `SAVAIL`, the level output wire: `NEW` at all times (R41, 60_exceptions.md R256). -/
def State.savail (s : State) : Bool := s.new

/-- The value `RDREG` reads: zero-extended, sign in place for the two s32 registers (10_state.md R42, 43_field_decoder.md R190). -/
def State.readReg (s : State) : Reg → Word
  | .hour => s.hour.setWidth 32
  | .minute => s.minute.setWidth 32
  | .second => s.second.setWidth 32
  | .millis => s.millis.setWidth 32
  | .day => s.day.setWidth 32
  | .month => s.month.setWidth 32
  | .year => s.year.setWidth 32
  | .latRaw => s.latRaw
  | .latFix => s.latFix
  | .latHemi => s.latHemi.setWidth 32
  | .lonRaw => s.lonRaw
  | .lonFix => s.lonFix
  | .lonHemi => s.lonHemi.setWidth 32
  | .rvalid => s.rvalid.setWidth 32
  | .cur => s.cur.setWidth 32
  | .act => BitVec.ofNat 32 s.act.toNat
  | .new => BitVec.ofNat 32 s.new.toNat
  | .fp => s.fp.setWidth 32
  | .seq => s.seq.setWidth 32
  | .subcnt => BitVec.ofNat 32 s.subcnt.val
  | .awst => BitVec.ofNat 32 s.awst.code
  | .tmo => s.tmo.setWidth 32
  | .rxn => s.rxn.setWidth 32
  | .rxlen => s.rxlen.setWidth 32
  | .uplpend => BitVec.ofNat 32 s.uplpend.code
  | .rxck => s.rxck.setWidth 32
  | .explen => s.explen.setWidth 32

/-- The named state of the receive state machine (44_packet.md R204), in the order the pseudocode of R205 tests; the last name also
stands for the values of `RXN` and `RXLEN` that no run reaches. -/
def State.rxState (s : State) : RxState :=
  let r := s.rxn.toNat
  let len := s.rxlen.toNat
  if r = 0 then .idle
  else if r = 1 then .sawPreamble1
  else if r = 2 then .sawPreamble2
  else if r = 3 then .readingLength
  else if r + 3 < len then (if r < 6 then .readingCommand else .readingPayload)
  else if r + 3 = len then .readingChecksum
  else if r + 2 = len then .readingEnd1
  else .readingEnd2

end Sys2Proof.Machine
end

