-- ==== Sys2Proof/Machine/Checksum.lean ====
section
/-!
DEFINITION. The XOR checksum engine (40_checksum.md): `XORRNG`, `HEXR`, `HEXP`, `TXFRAME`.
-/
namespace Sys2Proof.Machine

/-- `XORRNG lo, hi` (R111): the XOR of the half-open range `lo..hi` of the raw stable buffer. -/
def execXorrng (lo hi : Byte) (s : State) : Result :=
  if lo.toNat ≤ hi.toNat ∧ hi.toNat ≤ s.params.maxLine.val then
    respond .ok [xorBytes (s.bytesAt s.stable lo.toNat (hi.toNat - lo.toNat))] s
  else fail .badOperand s

/-- `HEXR v` (R112): two uppercase digits, high nibble first. -/
def execHexr (v : Byte) (s : State) : Result := respond .ok (hexDigits v) s

/-- `HEXP c1, c2` (R113): the byte the two digits stand for. -/
def execHexp (c1 c2 : Byte) (s : State) : Result :=
  match hexPair c1 c2 with
  | none => fail .badHex s
  | some v => respond .ok [v] s

/-- The framed text of `TXFRAME` (R114, 30_encoding.md R88): the text, `*`, the digits of the XOR of everything after its first byte,
CR, LF. -/
def framedText (text : List Byte) : List Byte :=
  text ++ [Config.marker] ++ hexDigits (xorBytes (text.drop 1)) ++ [Config.cr, Config.lf]

/-- `TXFRAME s` (R114). -/
def execTxframe (text : List Byte) (s : State) : Result :=
  if text.length = 0 then fail .badOperand s
  else respond .ok [] (s.emit (framedText text))

end Sys2Proof.Machine
end

