-- ==== Sys2Proof/Machine/FieldDecoder.lean ====
section
/-!
DEFINITION. The field splitter, the time, date and coordinate decoders and the register read (43_field_decoder.md): `FRST`, `FNEXT`,
`FEMPTY`, `TIMED`, `DATED`, `COORD`, `RDREG`.
-/
namespace Sys2Proof.Machine

/-! ### Field splitter -/

/-- `x[FP] <- p` (R170, R171). -/
def State.setFp (p : Nat) (s : State) : State := { s with fp := BitVec.ofNat 8 p }

/-- `FRST` (R170). -/
def execFrst (s : State) : Result := respond .ok [] (s.setFp 0)

/-- `FNEXT` (R171): step over the next comma; at a `*` or at the end of the line nothing is written. -/
def execFnext (s : State) : Result :=
  let L := s.stableLine
  let j := fieldEnd L s.fp.toNat
  if L.length ≤ j ∨ L.getD j 0#8 = Config.marker then respond .noField [] s
  else respond .ok [BitVec.ofNat 8 (j + 1)] (s.setFp (j + 1))

/-- A field is empty at the end of the line, at a comma and at a marker (R172, R173). -/
def fieldEmpty (L : List Byte) (p : Nat) : Bool := decide (L.length ≤ p) || isDelimiter (L.getD p 0#8)

/-- `FEMPTY` (R172). -/
def execFempty (s : State) : Result := respond .ok [bitByte (fieldEmpty s.stableLine s.fp.toNat)] s

/-! ### Time and date -/

/-- The fields of a decoded time (R175): hour, minute, second, milliseconds. -/
structure TimeFields where
  hour : Nat
  minute : Nat
  second : Nat
  millis : Nat
  deriving DecidableEq, Repr

/-- The fields of a decoded date (R177): day, month, year. -/
structure DateFields where
  day : Nat
  month : Nat
  year : Nat
  deriving DecidableEq, Repr

/-- The fraction digits of a numeric token whose integer digits are gone (R175): nothing, or a `.` and digits only. -/
def fractionOf : List Byte → Option (List Byte)
  | [] => some []
  | b :: F => if b = Config.point ∧ digits F = F then some F else none

/-- The time a non-empty token stands for (R175); `none` is `BAD_FIELD`. -/
def decodeTime (T : List Byte) : Option TimeFields :=
  let I := digits T
  if I.length < 1 ∨ 6 < I.length then none
  else
    match fractionOf (T.drop I.length) with
    | none => none
    | some F =>
      let v := value I
      some { hour := v / 10000, minute := v / 100 % 100, second := v % 100, millis := value (padDigits 3 F) }

/-- Commit a time, all four registers and `TIME_V` together (R184). -/
def State.commitTime (t : TimeFields) (s : State) : State :=
  { s with
    hour := BitVec.ofNat 8 t.hour, minute := BitVec.ofNat 8 t.minute, second := BitVec.ofNat 8 t.second,
    millis := BitVec.ofNat 16 t.millis, rvalid := s.rvalid ||| timeV }

/-- `TIMED` (R175). -/
def execTimed (s : State) : Result :=
  let T := token s.stableLine s.fp.toNat
  if T.length = 0 then respond .empty [] s
  else
    match decodeTime T with
    | none => fail .badField s
    | some t => respond .ok [] (s.commitTime t)

/-- The date a non-empty token stands for (R177); `none` is `BAD_FIELD`. -/
def decodeDate (T : List Byte) : Option DateFields :=
  if digits T ≠ T ∨ 6 < T.length then none
  else
    let v := value T
    some { day := v / 10000, month := v / 100 % 100, year := v % 100 }

/-- Commit a date, all three registers and `DATE_V` together (R184). -/
def State.commitDate (d : DateFields) (s : State) : State :=
  { s with
    day := BitVec.ofNat 8 d.day, month := BitVec.ofNat 8 d.month, year := BitVec.ofNat 8 d.year,
    rvalid := s.rvalid ||| dateV }

/-- `DATED` (R177). -/
def execDated (s : State) : Result :=
  let T := token s.stableLine s.fp.toNat
  if T.length = 0 then respond .empty [] s
  else
    match decodeDate T with
    | none => fail .badField s
    | some d => respond .ok [] (s.commitDate d)

/-! ### Coordinates -/

/-- A decoded coordinate (R180): as written scaled by 10^4, in units of 10^-7 degree without its sign, and the hemisphere letter. -/
structure CoordFields where
  raw : Nat
  mag : Nat
  hemi : Byte
  deriving DecidableEq, Repr

/-- The kind operand; `none` is `BAD_OPERAND` (R180). -/
def coordKindOf (k : Byte) : Option CoordKind := if k = 0#8 then some .lat else if k = 1#8 then some .lon else none

/-- The integer and the fraction digits of a coordinate token, `digit{1,5} '.' digit*` (R180, R181); `none` is `BAD_FIELD`. -/
def coordDigits (T : List Byte) : Option (List Byte × List Byte) :=
  let I := digits T
  if I.length < 1 ∨ 5 < I.length then none
  else
    match T.drop I.length with
    | [] => none
    | b :: F => if b = Config.point ∧ digits F = F then some (I, F) else none

/-- One of the four hemisphere letters `N`, `S`, `E`, `W` (R182). -/
def isHemisphere (h : Byte) : Bool := h == 0x4E#8 || h == 0x53#8 || h == 0x45#8 || h == 0x57#8

/-- The hemisphere letter of the field after the one that ends at `e` (R182); `none` is `BAD_HEMI`. -/
def hemisphereAfter (L : List Byte) (e : Nat) : Option Byte :=
  if L.length ≤ e ∨ L.getD e 0#8 ≠ Config.comma then none
  else if fieldEmpty L (e + 1) then none
  else if isHemisphere (L.getD (e + 1) 0#8) then some (L.getD (e + 1) 0#8) else none

/-- The magnitude in units of 10^-7 degree (R181): degrees times 10^7, plus minutes / 60 times 10^7 rounded half up, exactly. -/
def coordMagnitude (I F : List Byte) : Nat :=
  let w := value I
  let k := F.length
  let N := w % 100 * 10 ^ k + value F
  let D := 60 * 10 ^ k
  w / 100 * 10 ^ 7 + (2 * N * 10 ^ 7 + D) / (2 * D)

/-- The number as written, scaled by 10^4, from its first four fraction digits (R180). -/
def coordRaw (I F : List Byte) : Nat := value I * 10 ^ 4 + value (padDigits 4 F)

/-- The limit of a kind in units of 10^-7 degree (R183): 90 and 180 degrees. -/
def coordLimit : CoordKind → Nat
  | .lat => 900000000
  | .lon => 1800000000

/-- The decode of the coordinate at `p`, for a non-empty token: the tests in the order of R180, or the fields to commit. -/
def decodeCoord (kind : CoordKind) (L : List Byte) (p : Nat) : Except Status CoordFields :=
  let T := token L p
  match coordDigits T with
  | none => .error .badField
  | some (I, F) =>
    match hemisphereAfter L (p + T.length) with
    | none => .error .badHemi
    | some h =>
      if coordLimit kind < coordMagnitude I F then .error .outOfRange
      else .ok { raw := coordRaw I F, mag := coordMagnitude I F, hemi := h }

/-- The signed fixed-point value: negative for `S` and `W` (R180, R182). -/
def signedFix (c : CoordFields) : Word :=
  BitVec.ofInt 32 (if c.hemi = 0x53#8 ∨ c.hemi = 0x57#8 then -(c.mag : Int) else (c.mag : Int))

/-- Commit a coordinate: the three registers of the kind and its valid bit together (R180, R184). -/
def State.commitCoord (kind : CoordKind) (c : CoordFields) (s : State) : State :=
  match kind with
  | .lat =>
    { s with latRaw := BitVec.ofNat 32 c.raw, latFix := signedFix c, latHemi := c.hemi, rvalid := s.rvalid ||| latV }
  | .lon =>
    { s with lonRaw := BitVec.ofNat 32 c.raw, lonFix := signedFix c, lonHemi := c.hemi, rvalid := s.rvalid ||| lonV }

/-- `COORD kind` (R180). -/
def execCoord (kind : Byte) (s : State) : Result :=
  match coordKindOf kind with
  | none => fail .badOperand s
  | some k =>
    if (token s.stableLine s.fp.toNat).length = 0 then respond .empty [] s
    else
      match decodeCoord k s.stableLine s.fp.toNat with
      | .error st => fail st s
      | .ok c => respond .ok [] (s.commitCoord k c)

/-! ### Register read -/

/-- `RDREG r` (R190): the register as 32 bits, little-endian; a register never decoded reads its reset value (R28). -/
def execRdreg (r : Byte) (s : State) : Result :=
  match registerOf r with
  | none => fail .badOperand s
  | some g => respond .ok (wordBytes (s.readReg g)) s

end Sys2Proof.Machine
end

