-- ==== Sys2Proof/Machine/LineAssembler.lean ====
section
/-!
DEFINITION. The line assembler and its double buffer (41_line_assembler.md): `FEED`, `HAS`, `TAKE`, `LREAD`.
-/
namespace Sys2Proof.Machine

/-- The working cursor of `FEED`: 0 for a `$` under the policy RESET, else `CUR` (R130, R135). -/
def feedCursor (s : State) (b : Byte) : Nat :=
  if s.params.dollarPolicy = .reset ∧ b = Config.dollar then 0 else s.cur.toNat

/-- "grow, then cap": the cursor after a byte was stored at `c` (R130). -/
def grownCursor (s : State) (c : Nat) : Nat := min (c + 1) (s.params.maxLine.val - 1)

/-- The terminator's update after the NUL: the roles swap, the cursor returns to 0, `NEW` is set (R130, 20_memory.md R68). -/
def State.completeLine (s : State) : State := { s with act := !s.act, cur := 0#8, new := true }

/-- `x[CUR] <- c` (R130). -/
def State.setCur (c : Nat) (s : State) : State := { s with cur := BitVec.ofNat 8 c }

/-- `FEED b` (R130): the byte is appended first, terminator included; then the terminator test. -/
def execFeed (b : Byte) (s : State) : Result :=
  let c := feedCursor s b
  storeThen (.line s.act) c [b] s fun s =>
    let c := grownCursor s c
    if b = Config.term then
      storeThen (.line s.act) c [0x00#8] s fun s => respond .ok [] s.completeLine
    else respond .ok [] (s.setCur c)

/-- `HAS` (R132): `NEW` as one byte. -/
def execHas (s : State) : Result := respond .ok [bitByte s.new] s

/-- The line is claimed: `NEW` is cleared and `FP` returns to 0 (R133). -/
def State.claimLine (s : State) : State := { s with new := false, fp := 0#8 }

/-- `TAKE` (R133): `NEW` is cleared without being tested, `FP` returns to 0, and the answer is the index of the stable buffer. -/
def execTake (s : State) : Result := respond .ok [bitByte (!s.act)] s.claimLine

/-- `LREAD i` (R134): one byte of the stable buffer, wherever the line in it ends. -/
def execLread (i : Byte) (s : State) : Result :=
  if s.params.maxLine.val ≤ i.toNat then fail .badOperand s
  else respond .ok [s.byteAt s.stable i.toNat] s

end Sys2Proof.Machine
end

