-- ==== Sys2Proof/Machine/Packet.lean ====
section
/-!
DEFINITION. The binary packet framer, the receive state machine and the wait (44_packet.md): `PSEND`, `AWAIT`, `PRX`, `TICK`.
-/
namespace Sys2Proof.Machine

/-- The bytes of a packet the checksum covers: length, command, payload (R201, 30_encoding.md R86). -/
def packetBody (cmd : Half) (payload : List Byte) : List Byte :=
  let len : Half := BitVec.ofNat 16 (9 + payload.length)
  [lo8 len, hi8 len, lo8 cmd, hi8 cmd] ++ payload

/-- `packet(cmd, P)` (R201). -/
def packet (cmd : Half) (payload : List Byte) : List Byte :=
  [Config.pre0, Config.pre1] ++ packetBody cmd payload ++
    [xorBytes (packetBody cmd payload), Config.end0, Config.end1]

/-- The acknowledgement `ACK_OF(q)`: the instance's own entry, else the default of 45_upload.md R235 (log 3). -/
def ackOf (p : Config.Params) (q : Half) : List Byte :=
  match p.ackTable.lookup q with
  | some e => e
  | none => packet 0x0002#16 [lo8 q, hi8 q, 0x01#8]

/-- The registers after `start_wait` (R202): the receive machine idle, the budget loaded, the wait in progress. -/
def State.waitingFor (n : Nat) (t : Half) (u : Pending) (s : State) : State :=
  { s with
    explen := BitVec.ofNat 8 n, tmo := t, rxn := 0#8, rxlen := 0#8, rxck := 0#8, uplpend := u, awst := .waiting }

/-- `start_wait(E, t, u)` (R202), then go on.  Bytes of `EXP` at and after `|E|` keep their values. -/
def startWait (E : List Byte) (t : Half) (u : Pending) (s : State) (go : State → Result) : Result :=
  storeThen .exp 0 E s fun s => go (s.waitingFor E.length t u)

/-- `PSEND cmd, payload` (R200). -/
def execPsend (cmd : Half) (payload : List Byte) (s : State) : Result :=
  if 65526 < payload.length then fail .tooLong s
  else respond .ok [] (s.emit (packet cmd payload))

/-- `AWAIT budget, expected` (R203). -/
def execAwait (budget : Half) (expected : List Byte) (s : State) : Result :=
  if s.awst = .waiting then fail .busy s
  else if budget = 0#16 ∨ expected.length = 0 ∨ Config.pktMax < expected.length then fail .badOperand s
  else startWait expected budget .none s fun s => respond .pending [] s

/-- The candidate is abandoned: back to `Idle` (R205, R206). -/
def State.rxIdle (s : State) : State := { s with rxn := 0#8 }

/-- `x[RXN] <- r + 1` (R205). -/
def State.rxAdvance (s : State) : State := { s with rxn := s.rxn + 1#8 }

/-- Store the byte as the next one of the candidate, then go on with `RXN` advanced (R205). -/
def rxStore (b : Byte) (s : State) (go : State → Result) : Result :=
  storeThen .rxbuf s.rxn.toNat [b] s fun s => go s.rxAdvance

/-- A byte the checksum covers enters `RXCK` (R205). -/
def State.rxSum (b : Byte) (s : State) : State := { s with rxck := s.rxck ^^^ b }

/-- The running checksum starts at 0 after the second preamble byte (R205). -/
def State.rxClearSum (s : State) : State := { s with rxck := 0#8 }

/-- `x[RXLEN] <- len` (R205). -/
def State.rxAnnounce (len : Nat) (s : State) : State := { s with rxlen := BitVec.ofNat 8 len }

/-- The wait ends with an exact match (R207). -/
def State.endMatched (s : State) : State := { s with awst := .matched }

/-- `x[SEQ] <- x[SEQ] + 1` (R205, R207). -/
def State.advanceSeq (s : State) : State := { s with seq := s.seq + 1#16 }

/-- One tick of the budget is used (R208). -/
def State.tickDown (s : State) : State := { s with tmo := s.tmo - 1#16 }

/-- The budget is used up: the wait ends and a partial candidate is abandoned (R208).  DEDUCED (log 11), unsafe: `TICK` then writes `RXN`,
as the pseudocode of R208 has it, although 10_state.md R35 does not list it among the writers. -/
def State.endTimedOut (s : State) : State := { s with tmo := 0#16, awst := .timedOut, rxn := 0#8 }

/-- The candidate `RXBUF[0..RXLEN)` equals `EXP[0..EXPLEN)`: equal lengths and every byte equal (R207). -/
def candidateMatches (s : State) : Bool :=
  s.rxlen == s.explen && s.bytesAt .rxbuf 0 s.rxlen.toNat == s.bytesAt .exp 0 s.explen.toNat

/-- The wait ends in a match; a unit's wait advances `SEQ` (R205, R207). -/
def matchWait (s : State) : Result :=
  if s.uplpend = .unit then
    if s.seq = 0xFFFF#16 then .fault .valueOutsideRegister
    else respond .matched [] s.advanceSeq.endMatched
  else respond .matched [] s.endMatched

/-- The last byte of a candidate is stored: `Complete`, and back to `Idle` in the same step (R205, R207). -/
def completeCandidate (s : State) : Result :=
  withinSpace s .rxbuf 0 s.rxlen.toNat <|
    if candidateMatches s then matchWait s.rxIdle else respond .pending [] s.rxIdle

/-- The byte `lenHi` (R205): a length below 9 or above `PKTMAX` is malformed.  DEDUCED (log 19), unsafe: the byte of a malformed length is
not stored, as the pseudocode of R205 has it, although R206 says in words that both length bytes are stored unconditionally. -/
def rxLength (b : Byte) (s : State) : Result :=
  let len := (s.byteAt .rxbuf 2).toNat + 256 * b.toNat
  if len < 9 ∨ Config.pktMax < len then respond .pending [] s.rxIdle
  else rxStore b s fun s => respond .pending [] ((s.rxSum b).rxAnnounce len)

/-- A byte that must have one value: stored when it has it, else the candidate is abandoned (R205).  DEDUCED (log 11), unsafe: it does not
enter `RXCK`, as R205 and R206 have it, although 10_state.md R35 words `RXCK` as the XOR of every byte from index 2 on. -/
def rxExpect (want b : Byte) (s : State) (go : State → Result) : Result :=
  if b = want then rxStore b s go else respond .pending [] s.rxIdle

/-- One received byte in a wait, by the named state of the receive machine (R204, R205). -/
def rxStep (b : Byte) (s : State) : Result :=
  match s.rxState with
  | .idle => if b = Config.pre0 then rxStore b s fun s => respond .pending [] s else respond .pending [] s
  | .sawPreamble1 =>
    if b = Config.pre1 then rxStore b s fun s => respond .pending [] s.rxClearSum
    else if b = Config.pre0 then respond .pending [] s
    else respond .pending [] s.rxIdle
  | .sawPreamble2 => rxStore b s fun s => respond .pending [] (s.rxSum b)
  | .readingLength => rxLength b s
  | .readingCommand | .readingPayload => rxStore b s fun s => respond .pending [] (s.rxSum b)
  | .readingChecksum => rxExpect s.rxck b s fun s => respond .pending [] s
  | .readingEnd1 => rxExpect Config.end0 b s fun s => respond .pending [] s
  | .readingEnd2 => rxExpect Config.end1 b s completeCandidate

/-- `PRX b` (R205): outside a wait the byte is dropped; in a wait it goes through the receive state machine. -/
def execPrx (b : Byte) (s : State) : Result :=
  if s.awst ≠ .waiting then fail .notWaiting s else rxStep b s

/-- `TICK` (R208): the tick that brings `TMO` to 0 ends the wait and abandons a partial candidate. -/
def execTick (s : State) : Result :=
  if s.awst ≠ .waiting then fail .notWaiting s
  else if s.tmo = 0#16 then .fault .valueOutsideRegister
  else if s.tmo = 1#16 then respond .timedOut [] s.endTimedOut
  else respond .pending [] s.tickDown

end Sys2Proof.Machine
end

