-- ==== Sys2Proof/Machine/Upload.lean ====
section
/-!
DEFINITION. The sequence counter and the upload sequencer (45_upload.md): `UBEGIN`, `USUB`, `UFIN`.
-/
namespace Sys2Proof.Machine

/-- The offset of sub-payload `j` in the upload packet (30_encoding.md R87). -/
def subOffset (j : Nat) : Nat := 8 + Config.subLen * j

/-- Header and sequence value of the upload packet: bytes 0 to 7 (30_encoding.md R87). -/
def uploadHead (p : Config.Params) (q : Half) : List Byte :=
  [Config.pre0, Config.pre1, 0xBF#8, 0x00#8, lo8 p.uplCmd, hi8 p.uplCmd, lo8 q, hi8 q]

/-- The checksum of the packet in `UBUF` is written at its place: the XOR of bytes 2 to 187 (R87). -/
def State.sumUpload (s : State) : State := s.store .ubuf 188 [xorBytes (s.bytesAt .ubuf 2 186)]

/-- Write header, sequence value, checksum and end marker around the sub-payloads in `UBUF` (30_encoding.md R87, R231, R233). -/
def State.sealUpload (q : Half) (s : State) : State :=
  ((s.store .ubuf 0 (uploadHead s.params q)).sumUpload).store .ubuf 189 [Config.end0, Config.end1]

/-- The packet in `UBUF` is sent whole (R231, R233). -/
def State.sendUpload (s : State) : State := s.emit (s.bytesAt .ubuf 0 Config.pktMax)

/-- The upload starts again at sequence value 0 with an empty buffer and no wait (R230). -/
def State.restartUpload (s : State) : State :=
  { s with seq := 0#16, subcnt := 0, uplpend := .none, awst := .none, ubuf := [] }

/-- `x[SUBCNT] <- k` (R231). -/
def State.setSubcnt (k : Fin 3) (s : State) : State := { s with subcnt := k }

/-- `UBEGIN` (R230). -/
def execUbegin (s : State) : Result :=
  if s.awst = .waiting then fail .busy s
  else respond .ok [] s.restartUpload

/-- `USUB d` (R231): the third sub-payload of a unit completes, seals and sends it and starts the wait for its acknowledgement. -/
def execUsub (d : List Byte) (s : State) : Result :=
  if s.awst = .waiting then fail .busy s
  else if s.seq = Config.finalSeq then fail .seqExhausted s
  else
    storeThen .ubuf (subOffset s.subcnt.val) d s fun s =>
      if s.subcnt.val < 2 then respond .ok [] (s.setSubcnt (s.subcnt + 1))
      else
        let s := (s.sealUpload s.seq).sendUpload
        startWait (ackOf s.params s.seq) s.params.uplTmo .unit (s.setSubcnt 0) fun s => respond .pending [] s

/-- `UFIN` (R233): the final packet has the all-ones sequence value and a zero-filled sub-payload area. -/
def execUfin (s : State) : Result :=
  if s.awst = .waiting then fail .busy s
  else if s.subcnt ≠ 0 then fail .badState s
  else
    let s := s.store .ubuf 8 (List.replicate 180 0x00#8)
    let s := (s.sealUpload Config.finalSeq).sendUpload
    startWait (ackOf s.params Config.finalSeq) s.params.uplTmo .final s fun s => respond .pending [] s

end Sys2Proof.Machine
end

