-- ==== Sys2Proof/Machine/Validator.lean ====
section
/-!
DEFINITION. The sentence validator (42_validator.md): `VALID`, its six steps R151 to R156 in their order.
-/
namespace Sys2Proof.Machine

/-- Step (a) (R151): the first byte is `$` or `!`. -/
def hasSentinel : List Byte → Bool
  | [] => false
  | b :: _ => b == Config.dollar || b == Config.bang

/-- Step (b) (R152): the index of the last `*`. -/
def lastMarker : List Byte → Option Nat
  | [] => none
  | b :: bs =>
    match lastMarker bs with
    | some i => some (i + 1)
    | none => if b = Config.marker then some 0 else none

/-- Step (c) (R153): the byte of the two digits after the marker; `none` when the line ends before them or they are no digits. -/
def expectedChecksum (L : List Byte) (m : Nat) : Option Byte :=
  if L.length ≤ m + 2 then none else hexPair (L.getD (m + 1) 0#8) (L.getD (m + 2) 0#8)

/-- Step (e) (R155): the index and the length of the longest token that begins the text (the first such token of a list that
00_scope.md R9 forbids, where two equal tokens match). -/
def longestMatch : List (List Byte) → List Byte → Option (Nat × Nat)
  | [], _ => none
  | t :: ts, text =>
    let later := (longestMatch ts text).map fun e => (e.1 + 1, e.2)
    if t.isPrefixOf text then
      match later with
      | some (j, len) => if t.length < len then some (j, len) else some (0, t.length)
      | none => some (0, t.length)
    else later

/-- The index of an entry equal to `T` (R156). -/
def indexIn (T : List Byte) (list : List (List Byte)) : Option Nat := list.findIdx? fun t => t == T

/-- A list index as one response byte (R150); an index above 255 has no byte in the spec (log 8). -/
def indexByte (j : Nat) : Byte := if j < 256 then BitVec.ofNat 8 j else Config.unstatedIndexByte j

/-- Step (f) (R156): the three bytes after the source token (which ends before index `t`) against the two lists, in order. -/
def classify (p : Config.Params) (L : List Byte) (m t js : Nat) : Status × List Byte :=
  if m < t + 3 then (.badType, [])
  else
    let T := slice L t (t + 3)
    match indexIn T p.parseList with
    | some jp => (.ok, [indexByte js, indexByte jp])
    | none =>
      match indexIn T p.knownList with
      | some jk => (.knownUnparsed, [indexByte js, indexByte jk])
      | none => (.badType, [])

/-- The validation of a line (R150): the first step that rejects decides the status.  DEDUCED, unsafe: two remarks of the spec promise a
rejection that the steps do not always give, and the model follows the steps: 42_validator.md R158 on a byte changed to 0x00 (log 12), and
70_reset_and_hazards.md R290 on a line with a `$` in the middle under the policy KEEP (log 20). -/
def validate (p : Config.Params) (L : List Byte) : Status × List Byte :=
  if !hasSentinel L then (.badSentinel, [])
  else
    match lastMarker L with
    | none => (.noMarker, [])
    | some m =>
      match expectedChecksum L m with
      | none => (.badHex, [])
      | some e =>
        if xorBytes (slice L 1 m) ≠ e then (.badChecksum, [])
        else
          match longestMatch p.srcList (slice L 1 m) with
          | none => (.badSource, [])
          | some (js, len) => classify p L m (1 + len) js

/-- `VALID` (R150): validate the stable line; no state is written. -/
def execValid (s : State) : Result :=
  respond (validate s.params s.stableLine).1 (validate s.params s.stableLine).2 s

end Sys2Proof.Machine
end

