-- ==== Sys2Proof/Machine/Dispatch.lean ====
section
/-!
DEFINITION. One arm per operation of 30_encoding.md R84.
-/
namespace Sys2Proof.Machine

/-- Execute one operation (00_scope.md R7). -/
def exec (i : Instr) (s : State) : Host.Outcome State Fault Refusal :=
  match i with
  | .feed b => Sys2Proof.Machine.execFeed b s
  | .has => Sys2Proof.Machine.execHas s
  | .take => Sys2Proof.Machine.execTake s
  | .lread index => Sys2Proof.Machine.execLread index s
  | .xorrng lo hi => Sys2Proof.Machine.execXorrng lo hi s
  | .hexr v => Sys2Proof.Machine.execHexr v s
  | .hexp c1 c2 => Sys2Proof.Machine.execHexp c1 c2 s
  | .txframe text => Sys2Proof.Machine.execTxframe text s
  | .valid => Sys2Proof.Machine.execValid s
  | .frst => Sys2Proof.Machine.execFrst s
  | .fnext => Sys2Proof.Machine.execFnext s
  | .fempty => Sys2Proof.Machine.execFempty s
  | .timed => Sys2Proof.Machine.execTimed s
  | .dated => Sys2Proof.Machine.execDated s
  | .coord kind => Sys2Proof.Machine.execCoord kind s
  | .rdreg r => Sys2Proof.Machine.execRdreg r s
  | .psend cmd payload => Sys2Proof.Machine.execPsend cmd payload s
  | .await budget expected => Sys2Proof.Machine.execAwait budget expected s
  | .prx b => Sys2Proof.Machine.execPrx b s
  | .tick => Sys2Proof.Machine.execTick s
  | .ubegin => Sys2Proof.Machine.execUbegin s
  | .usub d => Sys2Proof.Machine.execUsub d s
  | .ufin => Sys2Proof.Machine.execUfin s

end Sys2Proof.Machine
end

