-- ==== Sys2Proof/Machine/Step.lean ====
section
/-!
DEFINITION. One step of the block: the oldest event of the command port.
-/
namespace Sys2Proof.Machine

/-- One step (00_scope.md R7): the block executes the operation the host presents and then waits for the next (10_state.md R33); with
nothing presented it waits and nothing changes.  An illegal command word answers `ILLEGAL_OP` (30_encoding.md R89). -/
def step (s : State) : Host.Outcome State Fault Refusal :=
  match fetch s with
  | none => .next s
  | some (.reset, s) => .next (assertReset s)
  | some (.command w, s) =>
    match decode w with
    | .ok i => exec i s
    | .error _ => illegalWord s

/-- `s` with the command word of an opcode-table row presented as the next one: the word's low `nbits` bits are `w`, and the operand
bytes above them, up to the length R81 tells, are zero (log 4). -/
def State.withFetchWord (s : State) (nbits w : Nat) : State := present (tableWord nbits w) s

end Sys2Proof.Machine
end

