-- ==== Sys2Proof/Machine/Assembler.lean ====
section
/-!
DEFINITION. The written form of operations (30_encoding.md R90) and the pseudo-operations (R91).
-/
namespace Sys2Proof

/-- The expansion of a pseudo-operation into operations (R91). -/
def Pseudo.expand : Pseudo → List Instr
  | .feeds s => s.map .feed
  | .prxs bs => bs.map .prx
  | .ticks k => List.replicate k .tick
  | .usubs d => [.usub (Machine.slice d 0 60), .usub (Machine.slice d 60 120), .usub (Machine.slice d 120 180)]

end Sys2Proof

namespace Sys2Proof.Machine

/-- A token of the written form (R90). -/
inductive AsmToken where
  /-- A mnemonic, a register name, `LAT` or `LON`. -/
  | name (cs : List Char)
  /-- A byte operand or number: hexadecimal, decimal or character literal. -/
  | number (v : Nat)
  /-- A byte-string operand: string literal or hexadecimal byte list. -/
  | bytes (bs : List Byte)
  /-- The separator of operands. -/
  | comma
  deriving DecidableEq, Repr

/-- A hexadecimal digit of a literal (R90): its place among the uppercase digits of 40_checksum.md R115, or among their lowercase
spellings (log 15). -/
def hexDigitChar (c : Char) : Option Nat := "0123456789ABCDEF".toList.findIdx? fun d => d == c || d.toLower == c

/-- A decimal digit of a literal (R90): a hexadecimal one below ten. -/
def decDigit (c : Char) : Option Nat := (hexDigitChar c).filter fun v => v < 10

/-- A numeral in a base, and what follows it. -/
def numeral (base : Nat) (digit : Char → Option Nat) : Nat → List Char → Nat × List Char
  | v, [] => (v, [])
  | v, c :: cs =>
    match digit c with
    | some d => numeral base digit (base * v + d) cs
    | none => (v, c :: cs)

/-- One character of a literal, with the escapes `\r`, `\n`, `\0`, `\xHH` of R90; a character has a byte when its code is below 128
(00_scope.md R13). -/
def literalByte : List Char → Option (Byte × List Char)
  | '\\' :: 'r' :: cs => some (0x0D#8, cs)
  | '\\' :: 'n' :: cs => some (0x0A#8, cs)
  | '\\' :: '0' :: cs => some (0x00#8, cs)
  | '\\' :: 'x' :: h :: l :: cs =>
    match hexDigitChar h, hexDigitChar l with
    | some a, some b => some (BitVec.ofNat 8 (16 * a + b), cs)
    | _, _ => none
  | '\\' :: _ => none
  | c :: cs => if c.toNat < 128 then some (BitVec.ofNat 8 c.toNat, cs) else none
  | [] => none

/-- The rest of a string literal up to its closing quote; the first argument bounds the number of characters. -/
def stringLiteral : Nat → List Char → Option (List Byte × List Char)
  | _, '"' :: cs => some ([], cs)
  | 0, _ => none
  | fuel + 1, cs =>
    match literalByte cs with
    | none => none
    | some (b, cs) =>
      match stringLiteral fuel cs with
      | some (bs, cs) => some (b :: bs, cs)
      | none => none

/-- The rest of a hexadecimal byte list up to its closing bracket. -/
def byteList : List Char → Option (List Byte × List Char)
  | ']' :: cs => some ([], cs)
  | ' ' :: cs => byteList cs
  | h :: l :: cs =>
    match hexDigitChar h, hexDigitChar l, byteList cs with
    | some a, some b, some (bs, cs) => some (BitVec.ofNat 8 (16 * a + b) :: bs, cs)
    | _, _, _ => none
  | _ => none

/-- A character of a mnemonic or register name. -/
def nameChar (c : Char) : Bool := ('A' ≤ c && c ≤ 'Z') || ('0' ≤ c && c ≤ '9') || c == '_'

/-- The tokens of a line; the first argument bounds their number. -/
def tokenize : Nat → List Char → Option (List AsmToken)
  | _, [] => some []
  | 0, _ => none
  | fuel + 1, ' ' :: cs => tokenize fuel cs
  | fuel + 1, ',' :: cs => (tokenize fuel cs).map (.comma :: ·)
  | fuel + 1, '0' :: 'x' :: cs =>
    let (v, rest) := numeral 16 hexDigitChar 0 cs
    if rest.length < cs.length then (tokenize fuel rest).map (.number v :: ·) else none
  | fuel + 1, '\'' :: cs =>
    match literalByte cs with
    | some (b, '\'' :: rest) => (tokenize fuel rest).map (.number b.toNat :: ·)
    | _ => none
  | fuel + 1, '"' :: cs =>
    match stringLiteral cs.length cs with
    | some (bs, rest) => (tokenize fuel rest).map (.bytes bs :: ·)
    | none => none
  | fuel + 1, '[' :: cs =>
    match byteList cs with
    | some (bs, rest) => (tokenize fuel rest).map (.bytes bs :: ·)
    | none => none
  | fuel + 1, c :: cs =>
    match decDigit c with
    | some _ =>
      let (v, rest) := numeral 10 decDigit 0 (c :: cs)
      (tokenize fuel rest).map (.number v :: ·)
    | none =>
      if nameChar c then
        (tokenize fuel (cs.dropWhile nameChar)).map (.name (c :: cs.takeWhile nameChar) :: ·)
      else none

/-- The name of a register (10_state.md R26, R42). -/
def Reg.name : Reg → String
  | .hour => "HOUR"
  | .minute => "MIN"
  | .second => "SEC"
  | .millis => "MS"
  | .day => "DAY"
  | .month => "MONTH"
  | .year => "YEAR"
  | .latRaw => "LAT_RAW"
  | .latFix => "LAT_FIX"
  | .latHemi => "LAT_HEMI"
  | .lonRaw => "LON_RAW"
  | .lonFix => "LON_FIX"
  | .lonHemi => "LON_HEMI"
  | .rvalid => "RVALID"
  | .cur => "CUR"
  | .act => "ACT"
  | .new => "NEW"
  | .fp => "FP"
  | .seq => "SEQ"
  | .subcnt => "SUBCNT"
  | .awst => "AWST"
  | .tmo => "TMO"
  | .rxn => "RXN"
  | .rxlen => "RXLEN"
  | .uplpend => "UPLPEND"
  | .rxck => "RXCK"
  | .explen => "EXPLEN"

/-- The number a register name stands for. -/
def registerNamed (cs : List Char) : Option Byte :=
  (registerTable.find? fun g => g.name.toList == cs).map Reg.number

/-- A number as a byte operand. -/
def asByte (v : Nat) : Option Byte := if v < 256 then some (BitVec.ofNat 8 v) else none

/-- A number as a u16 operand. -/
def asHalf (v : Nat) : Option Half := if v < 65536 then some (BitVec.ofNat 16 v) else none

/-- An operation whose byte strings fit its format. -/
def asInstr (i : Instr) : Option (List Instr) := if i.wf then some [i] else none

/-- The operations a mnemonic and its operands stand for (R90, R91). -/
def assembleWith (m : String) (ops : List AsmToken) : Option (List Instr) :=
  match m, ops with
  | "FEED", [.number b] => (asByte b).map fun b => [.feed b]
  | "HAS", [] => some [.has]
  | "TAKE", [] => some [.take]
  | "LREAD", [.number i] => (asByte i).map fun i => [.lread i]
  | "XORRNG", [.number lo, .comma, .number hi] => (asByte lo).bind fun lo => (asByte hi).map fun hi => [.xorrng lo hi]
  | "HEXR", [.number v] => (asByte v).map fun v => [.hexr v]
  | "HEXP", [.number a, .comma, .number b] => (asByte a).bind fun a => (asByte b).map fun b => [.hexp a b]
  | "TXFRAME", [.bytes text] => asInstr (.txframe text)
  | "VALID", [] => some [.valid]
  | "FRST", [] => some [.frst]
  | "FNEXT", [] => some [.fnext]
  | "FEMPTY", [] => some [.fempty]
  | "TIMED", [] => some [.timed]
  | "DATED", [] => some [.dated]
  | "COORD", [.name k] =>
      if k = "LAT".toList then some [.coord 0#8] else if k = "LON".toList then some [.coord 1#8] else none
  | "RDREG", [.name g] => (registerNamed g).map fun r => [.rdreg r]
  | "RDREG", [.number r] => (asByte r).map fun r => [.rdreg r]
  | "PSEND", [.number cmd, .comma, .bytes payload] => (asHalf cmd).bind fun cmd => asInstr (.psend cmd payload)
  | "AWAIT", [.number t, .comma, .bytes expected] => (asHalf t).bind fun t => asInstr (.await t expected)
  | "PRX", [.number b] => (asByte b).map fun b => [.prx b]
  | "TICK", [] => some [.tick]
  | "UBEGIN", [] => some [.ubegin]
  | "USUB", [.bytes d] => asInstr (.usub d)
  | "UFIN", [] => some [.ufin]
  | "FEEDS", [.bytes s] => some (Pseudo.feeds s).expand
  | "PRXS", [.bytes bs] => some (Pseudo.prxs bs).expand
  | "TICKS", [.number k] => some (Pseudo.ticks k).expand
  | "USUBS", [.bytes d] => if (Pseudo.usubs d).wf then some (Pseudo.usubs d).expand else none
  | _, _ => none

/-- The operations a written line stands for (R90, R91); `none` when the line is not of that form. -/
def assemble (line : String) : Option (List Instr) :=
  match tokenize line.toList.length line.toList with
  | some (.name m :: ops) => assembleWith (String.ofList m) ops
  | _ => none

end Sys2Proof.Machine
end

