-- ==== Sys2Proof/Safety.lean ====
section
/-!
DEFINITION. What a good state and a good run are, in the terms the statements use: the invariant of the block, the classes and the table of
statuses, runs of several operations, and the two independent halves of the state.
-/
namespace Sys2Proof.Machine

/-! ### The invariant -/

/-- One byte array is in canonical form and lies inside its space (20_memory.md R60, R61). -/
abbrev State.arrayWf (s : State) (S : Space) : Prop :=
  (s.mem S).wf = true ∧ (s.mem S).within (s.size S) = true

/-- All five byte arrays are. -/
abbrev State.arraysWf (s : State) : Prop :=
  s.arrayWf (.line false) ∧ s.arrayWf (.line true) ∧ s.arrayWf .rxbuf ∧ s.arrayWf .exp ∧ s.arrayWf .ubuf

/-- The cursors are in their ranges (10_state.md R22, R25). -/
abbrev State.cursorsWf (s : State) : Prop :=
  s.cur.toNat + 1 ≤ s.params.maxLine.val ∧ s.fp.toNat ≤ s.params.maxLine.val

/-- The time registers are in their ranges, and 0 while `TIME_V` is clear (10_state.md R26, R28). -/
abbrev State.timeWf (s : State) : Prop :=
  s.hour.toNat ≤ 99 ∧ s.minute.toNat ≤ 99 ∧ s.second.toNat ≤ 99 ∧ s.millis.toNat ≤ 999 ∧
  (s.rvalid &&& timeV = 0#4 → s.hour = 0#8 ∧ s.minute = 0#8 ∧ s.second = 0#8 ∧ s.millis = 0#16)

/-- The date registers are in their ranges, and 0 while `DATE_V` is clear (R26, R28). -/
abbrev State.dateWf (s : State) : Prop :=
  s.day.toNat ≤ 99 ∧ s.month.toNat ≤ 99 ∧ s.year.toNat ≤ 99 ∧
  (s.rvalid &&& dateV = 0#4 → s.day = 0#8 ∧ s.month = 0#8 ∧ s.year = 0#8)

/-- The latitude registers are in their ranges, the letter is one of the four once `LAT_V` is set, and all are 0 while it is clear
(R26, R28). -/
abbrev State.latWf (s : State) : Prop :=
  s.latRaw.toNat ≤ 999999999 ∧ s.latFix.toInt.natAbs ≤ 900000000 ∧
  (s.rvalid &&& latV ≠ 0#4 → isHemisphere s.latHemi = true) ∧
  (s.rvalid &&& latV = 0#4 → s.latRaw = 0#32 ∧ s.latFix = 0#32 ∧ s.latHemi = 0#8)

/-- The same for the longitude registers (R26, R28). -/
abbrev State.lonWf (s : State) : Prop :=
  s.lonRaw.toNat ≤ 999999999 ∧ s.lonFix.toInt.natAbs ≤ 1800000000 ∧
  (s.rvalid &&& lonV ≠ 0#4 → isHemisphere s.lonHemi = true) ∧
  (s.rvalid &&& lonV = 0#4 → s.lonRaw = 0#32 ∧ s.lonFix = 0#32 ∧ s.lonHemi = 0#8)

/-- The wait registers (10_state.md R35, R36, R37, R39; 44_packet.md R207, R208): a wait in progress has ticks left and bytes to expect,
outside a wait the receive machine is idle, and a unit's wait never has the reserved sequence value. -/
abbrev State.waitWf (s : State) : Prop :=
  s.rxlen.toNat ≤ Config.pktMax ∧ s.explen.toNat ≤ Config.pktMax ∧
  (s.awst = .waiting → s.tmo ≠ 0#16 ∧ s.explen ≠ 0#8) ∧
  (s.awst ≠ .waiting → s.rxn = 0#8) ∧
  (s.awst = .none → s.uplpend = .none) ∧
  (s.awst = .timedOut → s.tmo = 0#16) ∧
  (s.awst = .waiting → s.uplpend = .unit → s.seq ≠ Config.finalSeq) ∧
  (s.awst = .waiting → s.uplpend ≠ .none → s.subcnt = 0)

/-- How many bytes of the candidate `RXCK` covers: all from index 2 on, but not the checksum and what follows it (44_packet.md R205;
log 11). -/
def State.summed (s : State) : Nat :=
  if s.rxn.toNat < 4 then s.rxn.toNat - 2 else min s.rxn.toNat (s.rxlen.toNat - 3) - 2

/-- The candidate under assembly (10_state.md R34, R35; 44_packet.md R204, R206): every byte stored so far is one a packet may have
there. -/
abbrev State.candidateWf (s : State) : Prop :=
  (1 ≤ s.rxn.toNat → s.byteAt .rxbuf 0 = Config.pre0) ∧
  (2 ≤ s.rxn.toNat → s.byteAt .rxbuf 1 = Config.pre1 ∧ s.rxck = xorBytes (s.bytesAt .rxbuf 2 s.summed)) ∧
  (4 ≤ s.rxn.toNat →
    9 ≤ s.rxlen.toNat ∧ s.rxn.toNat < s.rxlen.toNat ∧
    s.rxlen.toNat = (s.byteAt .rxbuf 2).toNat + 256 * (s.byteAt .rxbuf 3).toNat ∧
    (s.rxlen.toNat ≤ s.rxn.toNat + 2 → s.byteAt .rxbuf (s.rxlen.toNat - 3) = s.rxck) ∧
    (s.rxlen.toNat ≤ s.rxn.toNat + 1 → s.byteAt .rxbuf (s.rxlen.toNat - 2) = Config.end0))

/-- The invariant of the block: it holds after reset, and every step keeps it. -/
abbrev State.Inv (s : State) : Prop :=
  s.params.wf = true ∧ s.arraysWf ∧ s.cursorsWf ∧ s.timeWf ∧ s.dateWf ∧ s.latWf ∧ s.lonWf ∧ s.waitWf ∧ s.candidateWf

/-! ### Statuses (60_exceptions.md R250, R252, R254) -/

/-- The classes of 30_encoding.md R83 and 60_exceptions.md R250. -/
inductive StatusClass where
  | success
  | framing
  | semantic
  | timeout
  | usage
  deriving DecidableEq, Repr

/-- The class of a status (R83, R250). -/
def Status.statusClass : Status → StatusClass
  | .ok | .empty | .noField | .pending | .matched => .success
  | .badSentinel | .noMarker | .badHex | .badChecksum | .badSource | .knownUnparsed | .badType => .framing
  | .badField | .badHemi | .outOfRange => .semantic
  | .timedOut => .timeout
  | .notWaiting | .busy | .tooLong | .seqExhausted | .badState | .badOperand | .illegalOp => .usage

/-- The statuses whose operation may have written state: every other one ends an operation that wrote none (R252, and the rules of
`EMPTY`, `NO_FIELD` and `KNOWN_UNPARSED`). -/
def Status.mayWrite : Status → Bool
  | .ok | .pending | .matched | .timedOut => true
  | .empty | .noField | .badSentinel | .noMarker | .badHex | .badChecksum | .badSource | .knownUnparsed | .badType | .badField
  | .badHemi | .outOfRange | .notWaiting | .busy | .tooLong | .seqExhausted | .badState | .badOperand | .illegalOp => false

/-- The statuses an operation can answer (R254, with the `OK` or `PENDING` of its own rule). -/
def mayAnswer : Instr → List Status
  | .feed _ | .has | .take | .frst | .hexr _ | .fempty => [.ok]
  | .lread _ | .xorrng _ _ | .txframe _ | .rdreg _ => [.ok, .badOperand]
  | .hexp _ _ => [.ok, .badHex]
  | .valid =>
      [.ok, .badSentinel, .noMarker, .badHex, .badChecksum, .badSource, .badType, .knownUnparsed]
  | .fnext => [.ok, .noField]
  | .timed | .dated => [.ok, .empty, .badField]
  | .coord _ => [.ok, .badOperand, .empty, .badField, .badHemi, .outOfRange]
  | .psend _ _ => [.ok, .tooLong]
  | .await _ _ => [.pending, .busy, .badOperand]
  | .prx _ => [.pending, .notWaiting, .matched]
  | .tick => [.pending, .notWaiting, .timedOut]
  | .ubegin => [.ok, .busy]
  | .usub _ => [.ok, .pending, .busy, .seqExhausted]
  | .ufin => [.pending, .busy, .badState]

/-! ### Runs and halves -/

/-- Run operations one after the other, stopping at the first that does not answer a next state (70_reset_and_hazards.md R293). -/
def runAll : List Instr → State → Result
  | [], s => .next s
  | i :: is, s =>
    match exec i s with
    | .next t => runAll is t
    | .fault r => .fault r
    | .refused r => .refused r

/-- The operations of the packet and upload units (44_packet.md, 45_upload.md). -/
def isPacketSide : Instr → Bool
  | .psend _ _ | .await _ _ | .prx _ | .tick | .ubegin | .usub _ | .ufin => true
  | .feed _ | .has | .take | .lread _ | .xorrng _ _ | .hexr _ | .hexp _ _ | .txframe _ | .valid | .frst | .fnext | .fempty
  | .timed | .dated | .coord _ | .rdreg _ => false

/-- `s` with the state of the sentence path (line buffers, cursors, `NEW`, result registers) taken from `u`. -/
def State.withSentenceSide (s u : State) : State :=
  { s with
    buf0 := u.buf0, buf1 := u.buf1, act := u.act, cur := u.cur, new := u.new, fp := u.fp,
    hour := u.hour, minute := u.minute, second := u.second, millis := u.millis,
    day := u.day, month := u.month, year := u.year,
    latRaw := u.latRaw, latFix := u.latFix, latHemi := u.latHemi,
    lonRaw := u.lonRaw, lonFix := u.lonFix, lonHemi := u.lonHemi, rvalid := u.rvalid }

/-- The next state of a result, changed by `f`. -/
def mapNext (f : State → State) : Result → Result
  | .next s => .next (f s)
  | .fault r => .fault r
  | .refused r => .refused r

/-! ### The spec's own notions, said without the model's functions -/

/-- The decimal numeral of a digit string, most significant digit first (43_field_decoder.md R174). -/
def decimal (ds : List Byte) : Nat := Nat.ofDigits 10 ((ds.map fun c => c.toNat - 0x30).reverse)

/-- Only the bytes `0`..`9` (00_scope.md R13). -/
abbrev allDigits (ds : List Byte) : Prop := ∀ c ∈ ds, 0x30 ≤ c.toNat ∧ c.toNat ≤ 0x39

/-- `T` is the token at `p` of `L` (43_field_decoder.md R173): no delimiter in it, and a delimiter or the end of the line after it. -/
def IsTokenAt (L : List Byte) (p : Nat) (T : List Byte) : Prop :=
  ∃ tail, L.drop p = T ++ tail ∧ (∀ b ∈ T, b ≠ 0x2C#8 ∧ b ≠ 0x2A#8) ∧ ∀ b ∈ tail.head?, b = 0x2C#8 ∨ b = 0x2A#8

/-- `m` is the index of the last `*` of `L` (42_validator.md R152). -/
def IsLastMarker (L : List Byte) (m : Nat) : Prop := L[m]? = some 0x2A#8 ∧ ∀ i, m < i → L[i]? ≠ some 0x2A#8

/-- The two characters after index `m` are digits of the byte `e` (42_validator.md R153). -/
def HasChecksumDigits (L : List Byte) (m : Nat) (e : Byte) : Prop :=
  ∃ c1 c2 h l, L[m + 1]? = some c1 ∧ L[m + 2]? = some c2 ∧ hexval c1 = some h ∧ hexval c2 = some l ∧ e.toNat = 16 * h + l

/-- `src` is the longest token of `list` that begins `text` (42_validator.md R155). -/
def IsLongestSource (list : List (List Byte)) (text src : List Byte) : Prop :=
  src ∈ list ∧ src <+: text ∧ ∀ tok ∈ list, tok <+: text → tok.length ≤ src.length

/-- `q` is `N * 10^7 / D` rounded to the nearest integer, an exact half upward (43_field_decoder.md R181). -/
def IsRounded (N D q : Nat) : Prop := 2 * q * D ≤ 2 * N * 10 ^ 7 + D ∧ 2 * N * 10 ^ 7 + D < 2 * q * D + 2 * D

end Sys2Proof.Machine
end

