-- ==== Sys2Proof/Certificates/Slice0/Obligations.lean ====
section
/-!
DEFINITION. The statements for the provers.  They say what the numbered rules of spec/ say of the machine; the docstring of each names the
rule.  A response is written as its bytes, so that the status codes of 30_encoding.md R83 are part of every statement; that the model records it
at the end of `responses` is its form of "returns one response" (log 5), and `port` is its form of "the host presents" (log 4).
-/
open Sys2Proof Sys2Proof.Machine

/-! ### Command words -/

/-- 30_encoding.md R80, R81, R84: the decoder reads back what the encoder writes, for every operation and every operand. -/
def Obligations.DecodeOfEncodeIsTheInstruction : Prop :=
  ∀ i : Instr, i.wf = true → decode (encode i) = .ok i

/-- 30_encoding.md R84, R89: a word that decodes is the encoding of the one well-formed operation it decodes to. -/
def Obligations.EncodeOfDecodeIsTheWord : Prop :=
  ∀ (w : List Byte) (i : Instr), decode w = .ok i → i.wf = true ∧ encode i = w

/-- 30_encoding.md R81, R84, R89: which byte strings are operations, by opcode and length, and none else. -/
def Obligations.LegalWordsByOpcodeAndLength : Prop :=
  ∀ w : List Byte, (∃ i, decode w = .ok i) ↔
    ∃ op rest, w = op :: rest ∧
      ((op ∈ [0x02#8, 0x03#8, 0x20#8, 0x30#8, 0x31#8, 0x32#8, 0x33#8, 0x34#8, 0x43#8, 0x48#8, 0x4A#8] ∧ rest.length = 0) ∨
       (op ∈ [0x01#8, 0x04#8, 0x11#8, 0x35#8, 0x36#8, 0x42#8] ∧ rest.length = 1) ∨
       (op ∈ [0x10#8, 0x12#8] ∧ rest.length = 2) ∨
       (op = 0x13#8 ∧ ∃ n s, rest = n :: s ∧ s.length = n.toNat) ∨
       (op = 0x40#8 ∧ ∃ c0 c1 n0 n1 p, rest = c0 :: c1 :: n0 :: n1 :: p ∧ p.length = n0.toNat + 256 * n1.toNat) ∨
       (op = 0x41#8 ∧ ∃ t0 t1 n e, rest = t0 :: t1 :: n :: e ∧ e.length = n.toNat) ∨
       (op = 0x49#8 ∧ rest.length = 60))

/-- 30_encoding.md R90: the example words, and one of each format. -/
def Obligations.WrittenWordsDecode : Prop :=
  decode [0x01#8, 0x24#8] = .ok (.feed 0x24#8) ∧
  decode [0x35#8, 0x01#8] = .ok (.coord 0x01#8) ∧
  decode [0x40#8, 0xD2#8, 0x02#8, 0x03#8, 0x00#8, 0x01#8, 0x02#8, 0x03#8] = .ok (.psend 0x02D2#16 [0x01#8, 0x02#8, 0x03#8]) ∧
  decode [0x41#8, 0x64#8, 0x00#8, 0x02#8, 0x04#8, 0x24#8] = .ok (.await 100#16 [0x04#8, 0x24#8]) ∧
  decode [0x13#8, 0x02#8, 0x24#8, 0x41#8] = .ok (.txframe [0x24#8, 0x41#8]) ∧
  decode [0x20#8] = .ok .valid ∧
  decode [0x10#8, 0x01#8, 0x03#8] = .ok (.xorrng 0x01#8 0x03#8) ∧
  decode (0x49#8 :: List.replicate 60 0xAA#8) = .ok (.usub (List.replicate 60 0xAA#8))

/-! ### The step, the port and reset -/

/-- 00_scope.md R7: a step takes the oldest command word off the port (log 4) and runs the decoded operation at the state that is left. -/
def Obligations.StepRunsTheDecodedInstruction : Prop :=
  ∀ (s : State) (w : List Byte) (rest : List PortEvent) (i : Instr),
    s.port = .command w :: rest → decode w = .ok i → step s = exec i { s with port := rest }

/-- 30_encoding.md R89: an illegal command word, taken off the port (log 4), answers `ILLEGAL_OP`, changes no state and emits nothing. -/
def Obligations.IllegalWordAnswersIllegalOp : Prop :=
  ∀ (s : State) (w : List Byte) (rest : List PortEvent),
    s.port = .command w :: rest → (¬∃ i, decode w = .ok i) →
    step s = .next { s with port := rest, responses := s.responses ++ [[0xFF#8]] }

/-- 10_state.md R33: with no operation presented the block waits.  That a step then leaves the state is the model's choice (log 4). -/
def Obligations.StepWithNothingPresentedWaits : Prop :=
  ∀ s : State, s.port = [] → step s = .next s

/-- 10_state.md R45: the state after reset, for every instance, and its three consequences.  That the model's own fields `port` and
`responses` are empty is its choice (log 4, 5) and is not stated here. -/
def Obligations.ResetStateIsTheRestingState : Prop :=
  ∀ p : Config.Params, ∀ s : State, s = State.resetWith p →
    (∀ S a, s.byteAt S a = 0x00#8) ∧
    s.act = false ∧ s.cur = 0 ∧ s.new = false ∧ s.fp = 0 ∧ (∀ g : Reg, s.readReg g = 0) ∧
    s.hour = 0 ∧ s.minute = 0 ∧ s.second = 0 ∧ s.millis = 0 ∧ s.day = 0 ∧ s.month = 0 ∧ s.year = 0 ∧
    s.latRaw = 0 ∧ s.latFix = 0 ∧ s.latHemi = 0 ∧ s.lonRaw = 0 ∧ s.lonFix = 0 ∧ s.lonHemi = 0 ∧ s.rvalid = 0 ∧
    s.rxn = 0 ∧ s.rxlen = 0 ∧ s.rxck = 0 ∧ s.explen = 0 ∧ s.awst = .none ∧ s.tmo = 0 ∧ s.seq = 0 ∧ s.subcnt = 0 ∧
    s.uplpend = .none ∧ s.txOut = [] ∧ s.savail = false ∧
    s.stableLine = [] ∧
    exec .has s = .next { s with responses := s.responses ++ [[0x00#8, 0x00#8]] } ∧
    exec .valid s = .next { s with responses := s.responses ++ [[0x10#8]] }

/-- 70_reset_and_hazards.md R280, R281: the reset input puts the block into the reset state whatever the state was.  That what the host has
presented stays and that the responses restart are the model's choices (log 5, 6). -/
def Obligations.ResetInputGivesTheResetState : Prop :=
  ∀ (s : State) (rest : List PortEvent), s.port = .reset :: rest →
    step s = .next { State.resetWith s.params with port := rest }

/-! ### Line assembler (41_line_assembler.md) -/

/-- R130, R135: a byte other than the terminator is stored at the cursor of the active buffer (at 0 for a `$` under RESET) and the cursor
grows up to MAXLINE - 1; nothing else changes. -/
def Obligations.FeedStoresDataByte : Prop :=
  ∀ (s : State) (b : Byte) (c : Nat), s.Inv → b ≠ 0x0A#8 →
    c = (if s.params.dollarPolicy = .reset ∧ b = 0x24#8 then 0 else s.cur.toNat) →
    ∃ t, exec (.feed b) s = .next t ∧
      t = { s with buf0 := t.buf0, buf1 := t.buf1, cur := t.cur, responses := s.responses ++ [[0x00#8]] } ∧
      t.cur.toNat = min (c + 1) (s.params.maxLine.val - 1) ∧
      t.byteAt (.line s.act) c = b ∧
      ∀ S a, S ≠ .line s.act ∨ a ≠ c → t.byteAt S a = s.byteAt S a

/-- R130, 20_memory.md R68: the terminator is stored, the NUL goes after it, the roles swap, the cursor returns to 0 and `NEW` is set, in one
step; nothing else changes. -/
def Obligations.FeedTerminatorCompletesTheLine : Prop :=
  ∀ (s : State) (c' : Nat), s.Inv → c' = min (s.cur.toNat + 1) (s.params.maxLine.val - 1) →
    ∃ t, exec (.feed 0x0A#8) s = .next t ∧
      t = { s with
        buf0 := t.buf0, buf1 := t.buf1, act := !s.act, cur := 0, new := true, responses := s.responses ++ [[0x00#8]] } ∧
      t.byteAt (.line s.act) c' = 0x00#8 ∧
      (s.cur.toNat ≠ c' → t.byteAt (.line s.act) s.cur.toNat = 0x0A#8) ∧
      ∀ S a, S ≠ .line s.act ∨ (a ≠ s.cur.toNat ∧ a ≠ c') → t.byteAt S a = s.byteAt S a

/-- R130, R131, R137: feeding a line of any length and its terminator, from a cursor at 0, makes it the stable line, whole when it fits and cut to
its first MAXLINE - 1 bytes otherwise, while the other buffer is not written.  The line holds no 0x00, which would cut it, and under the policy
RESET no `$` after its first byte; `FeedStoresDataByte` covers those bytes one by one. -/
def Obligations.FeedsAssembleTheLine : Prop :=
  ∀ (s : State) (bs : List Byte), s.Inv → s.cur = 0 → (∀ b ∈ bs, b ≠ 0x0A#8 ∧ b ≠ 0x00#8) →
    (s.params.dollarPolicy = .keep ∨ ∀ b ∈ bs.tail, b ≠ 0x24#8) →
    ∃ t, runAll (Pseudo.feeds (bs ++ [0x0A#8])).expand s = .next t ∧
      t.stableLine =
        (if bs.length ≤ s.params.maxLine.val - 2 then bs ++ [0x0A#8] else bs.take (s.params.maxLine.val - 1)) ∧
      t.act = (!s.act) ∧ t.cur = 0 ∧ t.new = true ∧
      ∀ a, t.byteAt (.line (!s.act)) a = s.byteAt (.line (!s.act)) a

/-- R132: `HAS` answers the flag and changes nothing. -/
def Obligations.HasAnswersTheFreshnessFlag : Prop :=
  encode .has = [0x02#8] ∧
  (∀ s : State, exec .has s = .next { s with responses := s.responses ++ [[0x00#8, if s.new then 0x01#8 else 0x00#8]] }) ∧
  ∀ p : Config.Params, (State.resetWith p).new = false

/-- R133: `TAKE` clears `NEW` and `FP` whatever `NEW` was, and answers the index of the stable buffer. -/
def Obligations.TakeClaimsTheStableLine : Prop :=
  encode .take = [0x03#8] ∧
  ∀ s : State, exec .take s =
    .next { s with new := false, fp := 0, responses := s.responses ++ [[0x00#8, if s.act then 0x00#8 else 0x01#8]] }

/-- R134: `LREAD` answers one byte of the stable buffer, or `BAD_OPERAND` at and above MAXLINE; it changes nothing. -/
def Obligations.LreadAnswersAStableByte : Prop :=
  (∀ i : Byte, encode (.lread i) = [0x04#8, i]) ∧
  ∀ (s : State) (i : Byte),
    (i.toNat < s.params.maxLine.val →
      exec (.lread i) s = .next { s with responses := s.responses ++ [[0x00#8, s.byteAt (.line (!s.act)) i.toNat]] }) ∧
    (s.params.maxLine.val ≤ i.toNat → exec (.lread i) s = .next { s with responses := s.responses ++ [[0xFE#8]] })

/-! ### Checksum engine (40_checksum.md) -/

/-- R111: the XOR of the half-open range of the raw stable buffer, or `BAD_OPERAND`; nothing changes. -/
def Obligations.XorrngAnswersTheRangeXor : Prop :=
  ∀ (s : State) (lo hi : Byte),
    (lo.toNat ≤ hi.toNat ∧ hi.toNat ≤ s.params.maxLine.val →
      exec (.xorrng lo hi) s = .next { s with responses := s.responses ++
        [[0x00#8, (List.range' lo.toNat (hi.toNat - lo.toNat)).foldl (fun v i => v ^^^ s.byteAt (.line (!s.act)) i) 0x00#8]] }) ∧
    (hi.toNat < lo.toNat ∨ s.params.maxLine.val < hi.toNat →
      exec (.xorrng lo hi) s = .next { s with responses := s.responses ++ [[0xFE#8]] })

/-- R112, R115: `HEXR` answers the two uppercase digits of the byte, high nibble first; nothing changes. -/
def Obligations.HexrAnswersTwoDigits : Prop :=
  (∀ v : Byte, encode (.hexr v) = [0x11#8, v]) ∧
  ∀ (s : State) (v : Byte), ∃ h l : Byte,
    exec (.hexr v) s = .next { s with responses := s.responses ++ [[0x00#8, h, l]] } ∧
    "0123456789ABCDEF".toList[v.toNat / 16]?.map (fun c => BitVec.ofNat 8 c.toNat) = some h ∧
    "0123456789ABCDEF".toList[v.toNat % 16]?.map (fun c => BitVec.ofNat 8 c.toNat) = some l

/-- R113, R115: `HEXP` answers the byte of two digits `0`-`9`, `A`-`F` and refuses every other pair; nothing changes. -/
def Obligations.HexpParsesUppercaseDigits : Prop :=
  ∀ (s : State) (c1 c2 : Byte),
    (∀ h l : Fin 16,
      "0123456789ABCDEF".toList[h.val]?.map (fun c => BitVec.ofNat 8 c.toNat) = some c1 →
      "0123456789ABCDEF".toList[l.val]?.map (fun c => BitVec.ofNat 8 c.toNat) = some c2 →
      exec (.hexp c1 c2) s = .next { s with responses := s.responses ++ [[0x00#8, BitVec.ofNat 8 (16 * h.val + l.val)]] }) ∧
    (c1 ∉ "0123456789ABCDEF".toList.map (fun c => BitVec.ofNat 8 c.toNat) ∨
      c2 ∉ "0123456789ABCDEF".toList.map (fun c => BitVec.ofNat 8 c.toNat) →
      exec (.hexp c1 c2) s = .next { s with responses := s.responses ++ [[0x12#8]] })

/-- R113, derived there: for every byte, `HEXP` of the two bytes `HEXR` answers gives it back. -/
def Obligations.HexpOfHexrGivesTheByteBack : Prop :=
  ∀ (s t : State) (v h l : Byte),
    exec (.hexr v) s = .next { s with responses := s.responses ++ [[0x00#8, h, l]] } →
    exec (.hexp h l) t = .next { t with responses := t.responses ++ [[0x00#8, v]] }

/-- R114: `TXFRAME` appends the text, `*`, the two digits of the XOR of everything after its first byte, CR and LF, or answers
`BAD_OPERAND` for the empty text; only `TXOUT` changes. -/
def Obligations.TxframeFramesTheText : Prop :=
  ∀ (s : State) (first : Byte) (rest : List Byte),
    (∃ h l : Byte,
      exec (.txframe (first :: rest)) s = .next { s with
        txOut := s.txOut ++ (first :: rest) ++ [0x2A#8, h, l, 0x0D#8, 0x0A#8], responses := s.responses ++ [[0x00#8]] } ∧
      hexPair h l = some (rest.foldl (fun v b => v ^^^ b) 0x00#8)) ∧
    exec (.txframe []) s = .next { s with responses := s.responses ++ [[0xFE#8]] }

/-! ### Validator (42_validator.md) -/

/-- R150, R155, R156: a line that passes steps (a) to (e) is classified by the three bytes after its longest source token, the parseable list
first.  An index above 255 answers a free byte (log 8), which the last clause leaves open.  That this holds of a line with a `$` in the middle
too, whatever the policy, is the model's choice (log 20, DEDUCED: the steps of R150 against the words of 70_reset_and_hazards.md R290), and of a
line that a 0x00 in its span cut short (log 12, DEDUCED: the same steps against the words of R158). -/
def Obligations.ValidClassifiesByLongestSource : Prop :=
  ∀ (s : State) (m js : Nat) (e : Byte) (src typ : List Byte),
    s.params.wf = true →
    (s.stableLine[0]? = some 0x24#8 ∨ s.stableLine[0]? = some 0x21#8) →
    IsLastMarker s.stableLine m → HasChecksumDigits s.stableLine m e →
    xorBytes (slice s.stableLine 1 m) = e →
    IsLongestSource s.params.srcList (slice s.stableLine 1 m) src → s.params.srcList[js]? = some src →
    typ = slice s.stableLine (1 + src.length) (1 + src.length + 3) →
    (1 + src.length + 3 ≤ m →
      (∀ jp, s.params.parseList[jp]? = some typ →
        exec .valid s = .next { s with responses := s.responses ++ [[0x00#8, indexByte js, indexByte jp]] }) ∧
      (∀ jk, typ ∉ s.params.parseList → s.params.knownList[jk]? = some typ →
        exec .valid s = .next { s with responses := s.responses ++ [[0x15#8, indexByte js, indexByte jk]] }) ∧
      (typ ∉ s.params.parseList → typ ∉ s.params.knownList →
        exec .valid s = .next { s with responses := s.responses ++ [[0x16#8]] })) ∧
    (m < 1 + src.length + 3 → exec .valid s = .next { s with responses := s.responses ++ [[0x16#8]] }) ∧
    ∀ j < 256, indexByte j = BitVec.ofNat 8 j

/-- R151 to R155, R157: the first step that rejects decides the status; no state is written.  That this holds of a line that a 0x00 in its span
cut short too, is the model's choice (log 12, DEDUCED: these steps against the words of R158). -/
def Obligations.ValidReportsTheFirstDefect : Prop :=
  ∀ s : State,
    (s.stableLine[0]? ≠ some 0x24#8 ∧ s.stableLine[0]? ≠ some 0x21#8 →
      exec .valid s = .next { s with responses := s.responses ++ [[0x10#8]] }) ∧
    (s.stableLine[0]? = some 0x24#8 ∨ s.stableLine[0]? = some 0x21#8 →
      (0x2A#8 ∉ s.stableLine → exec .valid s = .next { s with responses := s.responses ++ [[0x11#8]] }) ∧
      ∀ m, IsLastMarker s.stableLine m →
        ((¬∃ e, HasChecksumDigits s.stableLine m e) →
          exec .valid s = .next { s with responses := s.responses ++ [[0x12#8]] }) ∧
        ∀ e, HasChecksumDigits s.stableLine m e →
          (xorBytes (slice s.stableLine 1 m) ≠ e →
            exec .valid s = .next { s with responses := s.responses ++ [[0x13#8]] }) ∧
          (xorBytes (slice s.stableLine 1 m) = e →
            (∀ tok ∈ s.params.srcList, ¬tok <+: slice s.stableLine 1 m) →
            exec .valid s = .next { s with responses := s.responses ++ [[0x14#8]] }))

/-- R158, for a changed byte that is not 0x00 (for 0x00 see log 12): a line that validates, with exactly one byte inside the checksummed span
changed, fails its checksum. -/
def Obligations.OneFlippedByteFailsTheChecksum : Prop :=
  ∀ (s s' : State) (m i : Nat) (b : Byte) (data : List Byte),
    exec .valid s = .next { s with responses := s.responses ++ [0x00#8 :: data] } →
    IsLastMarker s.stableLine m → 1 ≤ i → i < m →
    s.stableLine[i]? ≠ some b → b ≠ 0x00#8 → s'.stableLine = s.stableLine.set i b →
    exec .valid s' = .next { s' with responses := s'.responses ++ [[0x13#8]] }

/-! ### Field decoder (43_field_decoder.md) -/

/-- R170: `FRST` returns `FP` to 0 and changes nothing else. -/
def Obligations.FrstPointsAtTheStart : Prop :=
  encode .frst = [0x30#8] ∧
  ∀ s : State, exec .frst s = .next { s with fp := 0, responses := s.responses ++ [[0x00#8]] }

/-- R171, R173: `FNEXT` steps over the next comma when the token at `FP` ends at one, and otherwise answers `NO_FIELD` and writes nothing. -/
def Obligations.FnextStepsOverTheComma : Prop :=
  ∀ (s : State) (T : List Byte), IsTokenAt s.stableLine s.fp.toNat T →
    (s.stableLine[s.fp.toNat + T.length]? = some 0x2C#8 →
      exec .fnext s = .next { s with
        fp := BitVec.ofNat 8 (s.fp.toNat + T.length + 1),
        responses := s.responses ++ [[0x00#8, BitVec.ofNat 8 (s.fp.toNat + T.length + 1)]] } ∧
      s.fp.toNat + T.length + 1 ≤ s.params.maxLine.val) ∧
    (s.stableLine[s.fp.toNat + T.length]? ≠ some 0x2C#8 →
      exec .fnext s = .next { s with responses := s.responses ++ [[0x02#8]] })

/-- R172: `FEMPTY` answers 1 when `FP` is at the end of the line, at a comma or at the marker, and 0 at every other byte; it changes nothing. -/
def Obligations.FemptyTellsEmptyFields : Prop :=
  encode .fempty = [0x32#8] ∧
  ∀ s : State,
    (s.stableLine.length ≤ s.fp.toNat ∨ s.stableLine[s.fp.toNat]? = some 0x2C#8 ∨ s.stableLine[s.fp.toNat]? = some 0x2A#8 →
      exec .fempty s = .next { s with responses := s.responses ++ [[0x00#8, 0x01#8]] }) ∧
    ∀ b : Byte, s.stableLine[s.fp.toNat]? = some b → b ≠ 0x2C#8 → b ≠ 0x2A#8 →
      exec .fempty s = .next { s with responses := s.responses ++ [[0x00#8, 0x00#8]] }

/-- R175, R184: `TIMED` decodes `digit{1,6}` with an optional fraction into the four time registers and `TIME_V` together; an empty or
malformed token writes nothing. -/
def Obligations.TimedDecodesTheTime : Prop :=
  ∀ (s : State) (T : List Byte), IsTokenAt s.stableLine s.fp.toNat T →
    (T = [] → exec .timed s = .next { s with responses := s.responses ++ [[0x01#8]] }) ∧
    (∀ I frac F, T = I ++ frac → (frac = [] ∧ F = [] ∨ frac = 0x2E#8 :: F) → allDigits I → allDigits F →
      1 ≤ I.length → I.length ≤ 6 →
      exec .timed s = .next { s with
        hour := BitVec.ofNat 8 (decimal I / 10000), minute := BitVec.ofNat 8 (decimal I / 100 % 100),
        second := BitVec.ofNat 8 (decimal I % 100),
        millis := BitVec.ofNat 16 (decimal ((F ++ [0x30#8, 0x30#8, 0x30#8]).take 3)),
        rvalid := s.rvalid ||| 0b0001#4, responses := s.responses ++ [[0x00#8]] } ∧
      decimal I / 10000 ≤ 99 ∧ decimal ((F ++ [0x30#8, 0x30#8, 0x30#8]).take 3) ≤ 999) ∧
    (T ≠ [] →
      (¬∃ I frac F, T = I ++ frac ∧ (frac = [] ∧ F = [] ∨ frac = 0x2E#8 :: F) ∧ allDigits I ∧ allDigits F ∧
        1 ≤ I.length ∧ I.length ≤ 6) →
      exec .timed s = .next { s with responses := s.responses ++ [[0x20#8]] })

/-- R177, R184: `DATED` decodes `digit{1,6}` into the three date registers and `DATE_V` together; an empty or malformed token writes
nothing. -/
def Obligations.DatedDecodesTheDate : Prop :=
  ∀ (s : State) (T : List Byte), IsTokenAt s.stableLine s.fp.toNat T →
    (T = [] → exec .dated s = .next { s with responses := s.responses ++ [[0x01#8]] }) ∧
    (T ≠ [] → allDigits T → T.length ≤ 6 →
      exec .dated s = .next { s with
        day := BitVec.ofNat 8 (decimal T / 10000), month := BitVec.ofNat 8 (decimal T / 100 % 100),
        year := BitVec.ofNat 8 (decimal T % 100),
        rvalid := s.rvalid ||| 0b0010#4, responses := s.responses ++ [[0x00#8]] } ∧ decimal T / 10000 ≤ 99) ∧
    (T ≠ [] → ¬(allDigits T ∧ T.length ≤ 6) →
      exec .dated s = .next { s with responses := s.responses ++ [[0x20#8]] })

/-- R180 to R184: a well-formed coordinate with a hemisphere letter is rounded exactly, checked against the limit of its kind and committed
whole, or rejected with `OUT_OF_RANGE` and nothing written. -/
def Obligations.CoordConvertsExactly : Prop :=
  ∀ (s : State) (I F rest : List Byte) (h : Byte) (q w N D mag raw : Nat) (fixed : Int),
    s.stableLine.drop s.fp.toNat = I ++ [0x2E#8] ++ F ++ [0x2C#8] ++ h :: rest →
    allDigits I → allDigits F → 1 ≤ I.length → I.length ≤ 5 → h ∈ [0x4E#8, 0x53#8, 0x45#8, 0x57#8] →
    w = decimal I → N = w % 100 * 10 ^ F.length + decimal F → D = 60 * 10 ^ F.length → IsRounded N D q →
    mag = w / 100 * 10 ^ 7 + q → fixed = (if h = 0x53#8 ∨ h = 0x57#8 then -(mag : Int) else mag) →
    raw = w * 10 ^ 4 + decimal ((F ++ [0x30#8, 0x30#8, 0x30#8, 0x30#8]).take 4) →
    (mag ≤ 900000000 → exec (.coord 0x00#8) s = .next { s with
      latRaw := BitVec.ofNat 32 raw, latFix := BitVec.ofInt 32 fixed, latHemi := h,
      rvalid := s.rvalid ||| 0b0100#4, responses := s.responses ++ [[0x00#8]] }) ∧
    (900000000 < mag → exec (.coord 0x00#8) s = .next { s with responses := s.responses ++ [[0x22#8]] }) ∧
    (mag ≤ 1800000000 → exec (.coord 0x01#8) s = .next { s with
      lonRaw := BitVec.ofNat 32 raw, lonFix := BitVec.ofInt 32 fixed, lonHemi := h,
      rvalid := s.rvalid ||| 0b1000#4, responses := s.responses ++ [[0x00#8]] } ∧
      (BitVec.ofInt 32 fixed).toInt = fixed ∧ (BitVec.ofNat 32 raw).toNat = raw) ∧
    (1800000000 < mag → exec (.coord 0x01#8) s = .next { s with responses := s.responses ++ [[0x22#8]] })

/-- R180, R182, 60_exceptions.md R255: the other answers of `COORD`, in the order of its tests; nothing is written. -/
def Obligations.CoordRejectsInOrder : Prop :=
  ∀ (s : State) (kind : Byte) (T : List Byte), IsTokenAt s.stableLine s.fp.toNat T →
    (1 < kind.toNat → exec (.coord kind) s = .next { s with responses := s.responses ++ [[0xFE#8]] }) ∧
    (kind.toNat ≤ 1 →
      (T = [] → exec (.coord kind) s = .next { s with responses := s.responses ++ [[0x01#8]] }) ∧
      (T ≠ [] →
        (¬∃ I F, T = I ++ [0x2E#8] ++ F ∧ allDigits I ∧ allDigits F ∧ 1 ≤ I.length ∧ I.length ≤ 5) →
        exec (.coord kind) s = .next { s with responses := s.responses ++ [[0x20#8]] }) ∧
      ∀ I F, T = I ++ [0x2E#8] ++ F → allDigits I → allDigits F → 1 ≤ I.length → I.length ≤ 5 →
        (¬∃ h rest, s.stableLine.drop (s.fp.toNat + T.length) = 0x2C#8 :: h :: rest ∧ h ∈ [0x4E#8, 0x53#8, 0x45#8, 0x57#8]) →
        exec (.coord kind) s = .next { s with responses := s.responses ++ [[0x21#8]] })

/-- R190, 10_state.md R26, R42: every assigned number reads its register, zero-extended (the two s32 registers as they are), four bytes least
significant first; every other number answers `BAD_OPERAND`; nothing changes. -/
def Obligations.RdregReadsTheNumberedRegister : Prop :=
  ∀ s : State, ∀ table : List (Byte × Nat),
    table =
      [(0x00#8, s.hour.toNat), (0x01#8, s.minute.toNat), (0x02#8, s.second.toNat), (0x03#8, s.millis.toNat),
       (0x04#8, s.day.toNat), (0x05#8, s.month.toNat), (0x06#8, s.year.toNat),
       (0x08#8, s.latRaw.toNat), (0x09#8, s.latFix.toNat), (0x0A#8, s.latHemi.toNat),
       (0x0C#8, s.lonRaw.toNat), (0x0D#8, s.lonFix.toNat), (0x0E#8, s.lonHemi.toNat), (0x0F#8, s.rvalid.toNat),
       (0x10#8, s.cur.toNat), (0x11#8, if s.act then 1 else 0), (0x12#8, if s.new then 1 else 0), (0x13#8, s.fp.toNat),
       (0x18#8, s.seq.toNat), (0x19#8, s.subcnt.val),
       (0x1A#8, match s.awst with | .none => 0 | .waiting => 1 | .matched => 2 | .timedOut => 3),
       (0x1B#8, s.tmo.toNat), (0x1C#8, s.rxn.toNat), (0x1D#8, s.rxlen.toNat),
       (0x1E#8, match s.uplpend with | .none => 0 | .unit => 1 | .final => 2),
       (0x1F#8, s.rxck.toNat), (0x20#8, s.explen.toNat)] →
    (∀ r v, (r, v) ∈ table →
      ∃ b0 b1 b2 b3 : Byte,
        exec (.rdreg r) s = .next { s with responses := s.responses ++ [[0x00#8, b0, b1, b2, b3]] } ∧
        v = b0.toNat + 256 * b1.toNat + 65536 * b2.toNat + 16777216 * b3.toNat) ∧
    ∀ r, r ∉ table.map Prod.fst → exec (.rdreg r) s = .next { s with responses := s.responses ++ [[0xFE#8]] }

/-! ### Packets (44_packet.md) -/

/-- R200, R201, 30_encoding.md R86: `PSEND` appends one packet to `TXOUT`, or answers `TOO_LONG`; nothing else changes. -/
def Obligations.PsendSendsOnePacket : Prop :=
  ∀ (s : State) (cmd : Half) (payload : List Byte) (len : Nat), len = 9 + payload.length →
    (len ≤ 65535 →
      ∃ lenLo lenHi cmdLo cmdHi ck : Byte,
        exec (.psend cmd payload) s = .next { s with
          txOut := s.txOut ++ ([0x04#8, 0x24#8, lenLo, lenHi, cmdLo, cmdHi] ++ payload ++ [ck, 0x0D#8, 0x0A#8]),
          responses := s.responses ++ [[0x00#8]] } ∧
        lenLo.toNat + 256 * lenHi.toNat = len ∧ cmdLo.toNat + 256 * cmdHi.toNat = cmd.toNat ∧
        ck = payload.foldl (fun v b => v ^^^ b) (lenLo ^^^ lenHi ^^^ cmdLo ^^^ cmdHi)) ∧
    (65535 < len → exec (.psend cmd payload) s = .next { s with responses := s.responses ++ [[0x35#8]] })

/-- R202, R203, 60_exceptions.md R255: `AWAIT` starts a wait with the receive machine idle, or answers `BUSY` or `BAD_OPERAND` in that order and
changes nothing. -/
def Obligations.AwaitStartsTheWait : Prop :=
  ∀ (s : State) (budget : Half) (expected : List Byte),
    (s.awst = .waiting → exec (.await budget expected) s = .next { s with responses := s.responses ++ [[0x34#8]] }) ∧
    (s.awst ≠ .waiting → budget = 0 ∨ expected.length = 0 ∨ 191 < expected.length →
      exec (.await budget expected) s = .next { s with responses := s.responses ++ [[0xFE#8]] }) ∧
    (s.awst ≠ .waiting → budget ≠ 0 → 1 ≤ expected.length → expected.length ≤ 191 → s.exp.wf = true →
      ∃ t, exec (.await budget expected) s = .next t ∧
        t = { s with
          exp := t.exp, explen := BitVec.ofNat 8 expected.length, tmo := budget, rxn := 0, rxlen := 0, rxck := 0,
          uplpend := .none, awst := .waiting, responses := s.responses ++ [[0x30#8]] } ∧
        t.bytesAt .exp 0 expected.length = expected ∧
        ∀ a, expected.length ≤ a → t.byteAt .exp a = s.byteAt .exp a)

/-- R205: outside a wait a received byte is dropped with `NOT_WAITING`. -/
def Obligations.PrxOutsideAWaitIsDropped : Prop :=
  ∀ (s : State) (b : Byte), s.awst ≠ .waiting →
    exec (.prx b) s = .next { s with responses := s.responses ++ [[0x33#8]] }

/-- R205, R206: the two preamble bytes, a repeated 0x04, and every other byte in `Idle` and `SawPreamble1`. -/
def Obligations.PrxFindsThePreamble : Prop :=
  ∀ (s : State) (b : Byte), s.Inv → s.awst = .waiting →
    (s.rxn = 0 → b ≠ 0x04#8 → exec (.prx b) s = .next { s with responses := s.responses ++ [[0x30#8]] }) ∧
    (s.rxn = 0 → b = 0x04#8 → ∃ t, exec (.prx b) s = .next t ∧
      t = { s with rxbuf := t.rxbuf, rxn := 1, responses := s.responses ++ [[0x30#8]] } ∧
      ∀ a, t.byteAt .rxbuf a = if a = 0 then b else s.byteAt .rxbuf a) ∧
    (s.rxn = 1 → b = 0x24#8 → ∃ t, exec (.prx b) s = .next t ∧
      t = { s with rxbuf := t.rxbuf, rxn := 2, rxck := 0, responses := s.responses ++ [[0x30#8]] } ∧
      ∀ a, t.byteAt .rxbuf a = if a = 1 then b else s.byteAt .rxbuf a) ∧
    (s.rxn = 1 → b = 0x04#8 → exec (.prx b) s = .next { s with responses := s.responses ++ [[0x30#8]] }) ∧
    (s.rxn = 1 → b ≠ 0x24#8 → b ≠ 0x04#8 →
      exec (.prx b) s = .next { s with rxn := 0, responses := s.responses ++ [[0x30#8]] })

/-- R205: the length bytes; a length below 9 or above 191 returns the machine to `Idle`.  That the second byte of such a length is not stored
is the model's choice (log 19, DEDUCED: the pseudocode of R205 against the words of R206). -/
def Obligations.PrxReadsTheLength : Prop :=
  ∀ (s : State) (b : Byte) (len : Nat), s.Inv → s.awst = .waiting → len = (s.byteAt .rxbuf 2).toNat + 256 * b.toNat →
    (s.rxn = 2 → ∃ t, exec (.prx b) s = .next t ∧
      t = { s with rxbuf := t.rxbuf, rxn := 3, rxck := s.rxck ^^^ b, responses := s.responses ++ [[0x30#8]] } ∧
      ∀ a, t.byteAt .rxbuf a = if a = 2 then b else s.byteAt .rxbuf a) ∧
    (s.rxn = 3 → len < 9 ∨ 191 < len →
      exec (.prx b) s = .next { s with rxn := 0, responses := s.responses ++ [[0x30#8]] }) ∧
    (s.rxn = 3 → 9 ≤ len → len ≤ 191 → ∃ t, exec (.prx b) s = .next t ∧
      t = { s with
        rxbuf := t.rxbuf, rxn := 4, rxlen := BitVec.ofNat 8 len, rxck := s.rxck ^^^ b,
        responses := s.responses ++ [[0x30#8]] } ∧
      ∀ a, t.byteAt .rxbuf a = if a = 3 then b else s.byteAt .rxbuf a)

/-- R205, R206: command and payload bytes are stored and enter the running checksum; the checksum byte and the first end byte are stored when
they are right and return the machine to `Idle` when they are wrong.  That these two leave `RXCK` as it is, is the model's choice (log 11,
DEDUCED: R205 and R206 against the words of 10_state.md R35). -/
def Obligations.PrxReadsBodyAndChecksum : Prop :=
  ∀ (s : State) (b : Byte), s.Inv → s.awst = .waiting → 4 ≤ s.rxn.toNat →
    (s.rxn.toNat < s.rxlen.toNat - 3 → ∃ t, exec (.prx b) s = .next t ∧
      t = { s with rxbuf := t.rxbuf, rxn := s.rxn + 1, rxck := s.rxck ^^^ b, responses := s.responses ++ [[0x30#8]] } ∧
      ∀ a, t.byteAt .rxbuf a = if a = s.rxn.toNat then b else s.byteAt .rxbuf a) ∧
    (s.rxn.toNat = s.rxlen.toNat - 3 ∧ b = s.rxck ∨ s.rxn.toNat = s.rxlen.toNat - 2 ∧ b = 0x0D#8 →
      ∃ t, exec (.prx b) s = .next t ∧
        t = { s with rxbuf := t.rxbuf, rxn := s.rxn + 1, responses := s.responses ++ [[0x30#8]] } ∧
        ∀ a, t.byteAt .rxbuf a = if a = s.rxn.toNat then b else s.byteAt .rxbuf a) ∧
    (s.rxn.toNat = s.rxlen.toNat - 3 ∧ b ≠ s.rxck ∨ s.rxn.toNat = s.rxlen.toNat - 2 ∧ b ≠ 0x0D#8 →
      exec (.prx b) s = .next { s with rxn := 0, responses := s.responses ++ [[0x30#8]] })

/-- R205, R207: the last byte of a candidate.  A wrong byte abandons it; a right one stores it, returns to `Idle`, and ends the wait with
`MATCHED` exactly when the candidate equals the expected bytes, advancing `SEQ` in a unit's wait only.  That the byte leaves `RXCK` as it is, is
the model's choice (log 11, DEDUCED: R205 against the words of 10_state.md R35). -/
def Obligations.PrxCompletesTheCandidate : Prop :=
  ∀ (s : State) (b : Byte), s.Inv → s.awst = .waiting → 4 ≤ s.rxn.toNat → s.rxn.toNat + 1 = s.rxlen.toNat →
    (b ≠ 0x0A#8 → exec (.prx b) s = .next { s with rxn := 0, responses := s.responses ++ [[0x30#8]] }) ∧
    (b = 0x0A#8 → ∃ t, exec (.prx b) s = .next t ∧
      (∀ a, t.byteAt .rxbuf a = if a = s.rxn.toNat then b else s.byteAt .rxbuf a) ∧
      (s.rxlen ≠ s.explen ∨ (∃ a < s.rxlen.toNat, t.byteAt .rxbuf a ≠ s.byteAt .exp a) →
        t = { s with rxbuf := t.rxbuf, rxn := 0, responses := s.responses ++ [[0x30#8]] }) ∧
      (s.rxlen = s.explen → (∀ a < s.rxlen.toNat, t.byteAt .rxbuf a = s.byteAt .exp a) →
        t = { s with
          rxbuf := t.rxbuf, rxn := 0, awst := .matched, seq := t.seq, responses := s.responses ++ [[0x31#8]] } ∧
        t.seq.toNat = s.seq.toNat + (if s.uplpend = .unit then 1 else 0)))

/-- R209: a waiting, idle machine that receives the expected packet, with no other operation in between, answers `PENDING` to every byte but the
last and `MATCHED` to the last, and every further byte is dropped without undoing the success. -/
def Obligations.ExpectedPacketEndsTheWait : Prop :=
  ∀ (s : State) (cmd : Half) (payload : List Byte) (extra : List Byte) (len : Nat),
    s.Inv → s.awst = .waiting → s.rxn = 0 → len = 9 + payload.length → len ≤ 191 →
    s.explen.toNat = len → s.bytesAt .exp 0 len = packet cmd payload →
    ∃ t, runAll (Pseudo.prxs (packet cmd payload ++ extra)).expand s = .next t ∧
      t.awst = .matched ∧
      t.responses = s.responses ++ List.replicate (len - 1) [0x30#8] ++ [[0x31#8]] ++ List.replicate extra.length [0x33#8] ∧
      t.seq.toNat = s.seq.toNat + (if s.uplpend = .unit then 1 else 0)

/-- R203 (corner cases), R207: a wait ends in a match only when the expected bytes are one well-formed packet. -/
def Obligations.OnlyAWellFormedPacketMatches : Prop :=
  ∀ (s t : State) (b : Byte), s.Inv → s.awst = .waiting → exec (.prx b) s = .next t → t.awst = .matched →
    b = 0x0A#8 ∧ ∃ cmd payload, s.bytesAt .exp 0 s.explen.toNat = packet cmd payload ∧
      s.explen.toNat = 9 + payload.length

/-- R208: one tick of a wait, the last tick, and a tick outside a wait.  That the last tick sets `RXN` to 0 is the model's choice (log 11, DEDUCED:
R208 against the writers that 10_state.md R35 lists). -/
def Obligations.TickCountsTheBudgetDown : Prop :=
  ∀ s : State,
    (s.awst ≠ .waiting → exec .tick s = .next { s with responses := s.responses ++ [[0x33#8]] }) ∧
    (s.awst = .waiting → 2 ≤ s.tmo.toNat → ∃ t, exec .tick s = .next t ∧
      t = { s with tmo := t.tmo, responses := s.responses ++ [[0x30#8]] } ∧ t.tmo.toNat = s.tmo.toNat - 1) ∧
    (s.awst = .waiting → s.tmo.toNat = 1 →
      exec .tick s = .next { s with tmo := 0, awst := .timedOut, rxn := 0, responses := s.responses ++ [[0x32#8]] })

/-- R208, R209: of `n` `TICK`s in a row in a wait with `n` ticks left, all but the last answer `PENDING` and the `n`-th answers `TIMED_OUT`, with
`SEQ` not advanced.  That `RXN` is then 0 is the model's choice (log 11, DEDUCED: R208 against the writers that 10_state.md R35 lists). -/
def Obligations.WaitTimesOutAtItsBudget : Prop :=
  ∀ (s : State) (n : Nat), s.awst = .waiting → s.tmo.toNat = n → 1 ≤ n →
    runAll (Pseudo.ticks n).expand s = .next { s with
      tmo := 0, awst := .timedOut, rxn := 0,
      responses := s.responses ++ List.replicate (n - 1) [0x30#8] ++ [[0x32#8]] }

/-! ### Upload (45_upload.md) -/

/-- R230: `UBEGIN` restarts the sequencer, or answers `BUSY` and changes nothing. -/
def Obligations.UbeginRestartsTheUpload : Prop :=
  ∀ s : State,
    (s.awst = .waiting → exec .ubegin s = .next { s with responses := s.responses ++ [[0x34#8]] }) ∧
    (s.awst ≠ .waiting → ∃ t, exec .ubegin s = .next t ∧
      t = { s with
        seq := 0, subcnt := 0, uplpend := .none, awst := .none, ubuf := t.ubuf, responses := s.responses ++ [[0x00#8]] } ∧
      ∀ a, t.byteAt .ubuf a = 0x00#8)

/-- R231, 60_exceptions.md R255: `USUB` is refused during a wait and at the reserved sequence value, in that order; the first two sub-payloads of
a unit are only stored. -/
def Obligations.UsubStoresASubPayload : Prop :=
  ∀ (s : State) (d : List Byte), d.length = 60 →
    (s.awst = .waiting → exec (.usub d) s = .next { s with responses := s.responses ++ [[0x34#8]] }) ∧
    (s.awst ≠ .waiting → s.seq = 0xFFFF#16 → exec (.usub d) s = .next { s with responses := s.responses ++ [[0x36#8]] }) ∧
    (s.awst ≠ .waiting → s.seq ≠ 0xFFFF#16 → s.subcnt.val < 2 → s.ubuf.wf = true → ∃ t, exec (.usub d) s = .next t ∧
      t = { s with ubuf := t.ubuf, subcnt := t.subcnt, responses := s.responses ++ [[0x00#8]] } ∧
      t.subcnt.val = s.subcnt.val + 1 ∧
      t.bytesAt .ubuf (8 + 60 * s.subcnt.val) 60 = d ∧
      ∀ a, a < 8 + 60 * s.subcnt.val ∨ 8 + 60 * s.subcnt.val + 60 ≤ a → t.byteAt .ubuf a = s.byteAt .ubuf a)

/-- R231, 30_encoding.md R87, 44_packet.md R202: the third sub-payload sends the unit as one packet with the sequence value and starts the wait
for the acknowledgement of that value. -/
def Obligations.ThirdSubPayloadSendsTheUnit : Prop :=
  ∀ (s : State) (d : List Byte), s.Inv → d.length = 60 → s.awst ≠ .waiting → s.seq ≠ 0xFFFF#16 → s.subcnt = 2 →
    ∃ t, exec (.usub d) s = .next t ∧
      t = { s with
        ubuf := t.ubuf, exp := t.exp, subcnt := 0, explen := BitVec.ofNat 8 (ackOf s.params s.seq).length,
        tmo := s.params.uplTmo, rxn := 0, rxlen := 0, rxck := 0, uplpend := .unit, awst := .waiting,
        txOut := s.txOut ++ packet s.params.uplCmd ([lo8 s.seq, hi8 s.seq] ++ s.bytesAt .ubuf 8 120 ++ d),
        responses := s.responses ++ [[0x30#8]] } ∧
      t.bytesAt .ubuf 0 191 = packet s.params.uplCmd ([lo8 s.seq, hi8 s.seq] ++ s.bytesAt .ubuf 8 120 ++ d) ∧
      t.bytesAt .exp 0 (ackOf s.params s.seq).length = ackOf s.params s.seq ∧
      ∀ a, (ackOf s.params s.seq).length ≤ a → t.byteAt .exp a = s.byteAt .exp a

/-- R231 (derived there), R234: three `USUB`s in a row emit the packet of the upload command with the sequence value and the three sub-payloads,
whatever `UBUF` held before. -/
def Obligations.ThreeSubPayloadsEmitOneUnit : Prop :=
  ∀ (s : State) (d : List Byte), s.Inv → d.length = 180 → s.awst ≠ .waiting → s.seq ≠ 0xFFFF#16 → s.subcnt = 0 →
    ∃ t, runAll (Pseudo.usubs d).expand s = .next t ∧
      t.txOut = s.txOut ++ packet s.params.uplCmd ([lo8 s.seq, hi8 s.seq] ++ d) ∧
      t.awst = .waiting ∧ t.uplpend = .unit ∧ t.tmo = s.params.uplTmo ∧ t.seq = s.seq ∧ t.subcnt = 0 ∧
      t.bytesAt .exp 0 t.explen.toNat = ackOf s.params s.seq ∧
      t.responses = s.responses ++ [[0x00#8], [0x00#8], [0x30#8]]

/-- R233, 30_encoding.md R87: `UFIN` sends the final packet with the all-ones sequence value and a zero-filled area and waits for its
acknowledgement, or answers `BUSY` or `BAD_STATE` in that order and changes nothing. -/
def Obligations.UfinSendsTheFinalPacket : Prop :=
  ∀ s : State,
    (s.awst = .waiting → exec .ufin s = .next { s with responses := s.responses ++ [[0x34#8]] }) ∧
    (s.awst ≠ .waiting → s.subcnt ≠ 0 → exec .ufin s = .next { s with responses := s.responses ++ [[0x37#8]] }) ∧
    (s.Inv → s.awst ≠ .waiting → s.subcnt = 0 → ∃ t, exec .ufin s = .next t ∧
      t = { s with
        ubuf := t.ubuf, exp := t.exp, explen := BitVec.ofNat 8 (ackOf s.params 0xFFFF#16).length,
        tmo := s.params.uplTmo, rxn := 0, rxlen := 0, rxck := 0, uplpend := .final, awst := .waiting,
        txOut := s.txOut ++ packet s.params.uplCmd ([0xFF#8, 0xFF#8] ++ List.replicate 180 0x00#8),
        responses := s.responses ++ [[0x30#8]] } ∧
      t.bytesAt .ubuf 0 191 = packet s.params.uplCmd ([0xFF#8, 0xFF#8] ++ List.replicate 180 0x00#8) ∧
      t.bytesAt .exp 0 (ackOf s.params 0xFFFF#16).length = ackOf s.params 0xFFFF#16 ∧
      ∀ a, (ackOf s.params 0xFFFF#16).length ≤ a → t.byteAt .exp a = s.byteAt .exp a)

/-! ### The whole machine -/

/-- The invariant holds after reset, for every instance whose parameters obey 00_scope.md R8 and R9. -/
def Obligations.InvariantHoldsAfterReset : Prop :=
  (∀ p : Config.Params, p.wf = true → (State.resetWith p).Inv) ∧ State.reset.Inv

/-- Every step keeps the invariant: ranges of 10_state.md R22, R25, R26, R35 to R39, values of registers whose valid bit is clear (R28), the
arrays' canonical form, the wait and the candidate under assembly (44_packet.md R204, R205, R208).  Which bytes `RXCK` covers (`State.summed`)
and that `RXN` is 0 after a timeout are the model's choice (log 11, DEDUCED: R205 and R208 against the words of 10_state.md R35). -/
def Obligations.EveryStepKeepsTheInvariant : Prop :=
  ∀ s t : State, s.Inv → step s = .next t → t.Inv

/-- 60_exceptions.md R253: no failure is fatal and no state is a dead end; from a state with the invariant every step answers a next state.  That a
step of an empty port leaves the state, and that `RXCK` and `RXN` are as the invariant has them, are the model's choices (log 4, log 11). -/
def Obligations.WellFormedStateNeverStops : Prop :=
  ∀ s : State, s.Inv → ∃ t, step s = .next t

/-- 60_exceptions.md R253, R254: every operation gets exactly one response, with a status of its row of the table. -/
def Obligations.EveryOperationAnswersOnce : Prop :=
  ∀ (i : Instr) (s t : State), exec i s = .next t →
    ∃ st ∈ mayAnswer i, ∃ data : List Byte, t.responses = s.responses ++ [st.code :: data]

/-- 60_exceptions.md R252: an operation that ends in a failure (or `EMPTY`, `NO_FIELD`, `KNOWN_UNPARSED`) has written no register, no buffer byte
and no output byte. -/
def Obligations.FailureWritesNothing : Prop :=
  ∀ (i : Instr) (s t : State) (st : Status) (data : List Byte), exec i s = .next t →
    t.responses = s.responses ++ [st.code :: data] → st.mayWrite = false →
    t = { s with responses := s.responses ++ [st.code :: data] }

/-- 10_state.md R24: `FEED` is the only operation that writes a line buffer, and it writes only the active one. -/
def Obligations.OnlyFeedWritesTheActiveBuffer : Prop :=
  ∀ (i : Instr) (s t : State), exec i s = .next t →
    t.mem (.line (!s.act)) = s.mem (.line (!s.act)) ∧
    ((∀ b, i ≠ .feed b) → t.buf0 = s.buf0 ∧ t.buf1 = s.buf1 ∧ t.act = s.act ∧ t.cur = s.cur)

/-- 20_memory.md R67: the read operations change no state. -/
def Obligations.ReadOperationsChangeNothing : Prop :=
  ∀ (i : Instr) (s t : State), exec i s = .next t →
    i = .has ∨ (∃ a, i = .lread a) ∨ (∃ r, i = .rdreg r) ∨ (∃ lo hi, i = .xorrng lo hi) ∨ (∃ v, i = .hexr v) ∨
      (∃ a b, i = .hexp a b) ∨ i = .valid ∨ i = .fempty →
    ∃ resp, t = { s with responses := s.responses ++ [resp] } ∧
      exec i t = .next { t with responses := t.responses ++ [resp] }

/-- 10_state.md R26, R28, 70_reset_and_hazards.md R280: no operation clears a valid bit, each is set only by its own decode operation, and a result
register is written only by its own decode operation. -/
def Obligations.ResultRegistersBelongToTheirDecoder : Prop :=
  ∀ (i : Instr) (s t : State), exec i s = .next t →
    t.rvalid &&& s.rvalid = s.rvalid ∧
    (i ≠ .timed → t.hour = s.hour ∧ t.minute = s.minute ∧ t.second = s.second ∧ t.millis = s.millis ∧
      t.rvalid &&& timeV = s.rvalid &&& timeV) ∧
    (i ≠ .dated → t.day = s.day ∧ t.month = s.month ∧ t.year = s.year ∧ t.rvalid &&& dateV = s.rvalid &&& dateV) ∧
    (i ≠ .coord 0#8 → t.latRaw = s.latRaw ∧ t.latFix = s.latFix ∧ t.latHemi = s.latHemi ∧
      t.rvalid &&& latV = s.rvalid &&& latV) ∧
    (i ≠ .coord 1#8 → t.lonRaw = s.lonRaw ∧ t.lonFix = s.lonFix ∧ t.lonHemi = s.lonHemi ∧
      t.rvalid &&& lonV = s.rvalid &&& lonV)

/-- 10_state.md R40: `TXOUT` is append-only, and only `TXFRAME`, `PSEND`, `USUB` and `UFIN` append to it. -/
def Obligations.TransmitStreamIsAppendOnly : Prop :=
  ∀ (i : Instr) (s t : State), exec i s = .next t →
    s.txOut <+: t.txOut ∧
    ((∀ x, i ≠ .txframe x) → (∀ c p, i ≠ .psend c p) → (∀ d, i ≠ .usub d) → i ≠ .ufin → t.txOut = s.txOut)

/-- 10_state.md R41, 60_exceptions.md R256: `SAVAIL` equals `NEW`, goes to 1 only in the `FEED` of a terminator and to 0 only in `TAKE`. -/
def Obligations.SavailFollowsTheFreshnessFlag : Prop :=
  ∀ (i : Instr) (s t : State), exec i s = .next t →
    t.savail = t.new ∧
    (i = .feed 0x0A#8 → t.savail = true) ∧ (i = .take → t.savail = false) ∧
    (i ≠ .feed 0x0A#8 → i ≠ .take → t.savail = s.savail)

/-- 45_upload.md R236, 44_packet.md R207: `SEQ` changes only when `UBEGIN` sets it to 0 and when a `PRX` that answers `MATCHED` in a unit's wait adds
1; it never wraps. -/
def Obligations.SequenceCounterLaws : Prop :=
  ∀ (i : Instr) (s t : State), exec i s = .next t →
    t.seq = s.seq ∨ (i = .ubegin ∧ t.seq = 0) ∨
    ((∃ b, i = .prx b) ∧ s.awst = .waiting ∧ t.awst = .matched ∧ s.uplpend = .unit ∧ t.seq.toNat = s.seq.toNat + 1)

/-- 70_reset_and_hazards.md R288: a wait ends only by a `PRX` that answers `MATCHED` or by the `TICK` that uses up the budget; every other operation
leaves it in progress with its expected bytes. -/
def Obligations.WaitEndsOnlyByMatchOrTimeout : Prop :=
  ∀ (i : Instr) (s t : State), exec i s = .next t → s.awst = .waiting →
    (t.awst = .waiting ∧ t.exp = s.exp ∧ t.explen = s.explen ∧ t.uplpend = s.uplpend) ∨
    ((∃ b, i = .prx b) ∧ t.awst = .matched ∧ t.responses = s.responses ++ [[0x31#8]]) ∨
    (i = .tick ∧ s.tmo = 1 ∧ t.awst = .timedOut ∧ t.responses = s.responses ++ [[0x32#8]])

/-- 44_packet.md (opening), 70_reset_and_hazards.md R282: the packet and upload operations neither read nor write the line buffers, the cursors, `NEW`
or the result registers, and no step changes a parameter. -/
def Obligations.PacketSideIgnoresTheSentenceSide : Prop :=
  (∀ (i : Instr) (s u : State), isPacketSide i = true →
    exec i (s.withSentenceSide u) = mapNext (fun t => t.withSentenceSide u) (exec i s)) ∧
  ∀ s t : State, step s = .next t → t.params = s.params
end

