-- ==== Sys2Proof/Laws/Decode.lean ====
section
/-!
SUPPORT. The laws of the 16-bit operands, of the opcode map and of each format's reader.
-/
namespace Sys2Proof

theorem u16_toNat (lo hi : Byte) : (u16 lo hi).toNat = lo.toNat + 256 * hi.toNat := by
  unfold u16
  rw [BitVec.toNat_append, ← Nat.shiftLeft_add_eq_or_of_lt lo.isLt, Nat.shiftLeft_eq]
  omega

theorem lo8_toNat (v : Half) : (lo8 v).toNat = v.toNat % 256 := by
  simp [lo8]

theorem hi8_toNat (v : Half) : (hi8 v).toNat = v.toNat / 256 := by
  have := v.isLt
  simp only [hi8, BitVec.toNat_setWidth, BitVec.toNat_ushiftRight, Nat.shiftRight_eq_div_pow]
  omega

@[simp] theorem u16_lo8_hi8 (v : Half) : u16 (lo8 v) (hi8 v) = v := by
  apply BitVec.eq_of_toNat_eq
  rw [u16_toNat, lo8_toNat, hi8_toNat]
  omega

@[simp] theorem lo8_u16 (lo hi : Byte) : lo8 (u16 lo hi) = lo := by
  apply BitVec.eq_of_toNat_eq
  rw [lo8_toNat, u16_toNat]
  have := lo.isLt
  omega

@[simp] theorem hi8_u16 (lo hi : Byte) : hi8 (u16 lo hi) = hi := by
  apply BitVec.eq_of_toNat_eq
  rw [hi8_toNat, u16_toNat]
  have := lo.isLt
  omega

/-- Every row of R84 is found by its opcode. -/
theorem opcodeOf_byte (o : Opcode) : opcodeOf o.byte = some o := by
  cases o <;> decide

theorem opcodeOf_eq_some (b : Byte) (o : Opcode) (h : opcodeOf b = some o) : b = o.byte := by
  have hb := List.find?_some h
  exact (beq_iff_eq.1 hb).symm

theorem readF0_some (i j : Instr) (rest : List Byte) : readF0 i rest = some j ↔ rest = [] ∧ j = i := by
  cases rest <;> simp [readF0, eq_comm]

theorem readF1_some (f : Byte → Instr) (j : Instr) (rest : List Byte) :
    readF1 f rest = some j ↔ ∃ a, rest = [a] ∧ j = f a := by
  rcases rest with _ | ⟨a, _ | ⟨b, rest⟩⟩ <;> simp [readF1, eq_comm]

theorem readF2_some (f : Byte → Byte → Instr) (j : Instr) (rest : List Byte) :
    readF2 f rest = some j ↔ ∃ a b, rest = [a, b] ∧ j = f a b := by
  rcases rest with _ | ⟨a, _ | ⟨b, _ | ⟨c, rest⟩⟩⟩
  · simp [readF2]
  · simp [readF2]
  · simp only [readF2, Option.some.injEq, List.cons.injEq, and_true]
    constructor
    · rintro rfl
      exact ⟨a, b, ⟨rfl, rfl⟩, rfl⟩
    · rintro ⟨_, _, ⟨rfl, rfl⟩, rfl⟩
      rfl
  · simp [readF2]

theorem readFS_some (f : List Byte → Instr) (j : Instr) (rest : List Byte) :
    readFS f rest = some j ↔ ∃ n text, rest = n :: text ∧ text.length = n.toNat ∧ j = f text := by
  rcases rest with _ | ⟨n, text⟩
  · simp [readFS]
  · simp only [readFS, Option.ite_none_right_eq_some, Option.some.injEq, List.cons.injEq]
    constructor
    · rintro ⟨h, rfl⟩
      exact ⟨n, text, ⟨rfl, rfl⟩, h, rfl⟩
    · rintro ⟨_, _, ⟨rfl, rfl⟩, h, rfl⟩
      exact ⟨h, rfl⟩

theorem readFP_some (f : Half → List Byte → Instr) (j : Instr) (rest : List Byte) :
    readFP f rest = some j ↔ ∃ c0 c1 n0 n1 p, rest = c0 :: c1 :: n0 :: n1 :: p ∧
      p.length = n0.toNat + 256 * n1.toNat ∧ j = f (u16 c0 c1) p := by
  rcases rest with _ | ⟨c0, _ | ⟨c1, _ | ⟨n0, _ | ⟨n1, p⟩⟩⟩⟩
  · simp [readFP]
  · simp [readFP]
  · simp [readFP]
  · simp [readFP]
  · simp only [readFP, Option.ite_none_right_eq_some, Option.some.injEq, List.cons.injEq, u16_toNat]
    constructor
    · rintro ⟨h, rfl⟩
      exact ⟨c0, c1, n0, n1, p, ⟨rfl, rfl, rfl, rfl, rfl⟩, h, rfl⟩
    · rintro ⟨_, _, _, _, _, ⟨rfl, rfl, rfl, rfl, rfl⟩, h, rfl⟩
      exact ⟨h, rfl⟩

theorem readFA_some (f : Half → List Byte → Instr) (j : Instr) (rest : List Byte) :
    readFA f rest = some j ↔ ∃ t0 t1 n e, rest = t0 :: t1 :: n :: e ∧ e.length = n.toNat ∧ j = f (u16 t0 t1) e := by
  rcases rest with _ | ⟨t0, _ | ⟨t1, _ | ⟨n, e⟩⟩⟩
  · simp [readFA]
  · simp [readFA]
  · simp [readFA]
  · simp only [readFA, Option.ite_none_right_eq_some, Option.some.injEq, List.cons.injEq]
    constructor
    · rintro ⟨h, rfl⟩
      exact ⟨t0, t1, n, e, ⟨rfl, rfl, rfl, rfl⟩, h, rfl⟩
    · rintro ⟨_, _, _, _, ⟨rfl, rfl, rfl, rfl⟩, h, rfl⟩
      exact ⟨h, rfl⟩

theorem readFU_some (f : List Byte → Instr) (j : Instr) (d : List Byte) :
    readFU f d = some j ↔ d.length = 60 ∧ j = f d := by
  simp [readFU, eq_comm]

/-- What a word that decodes is made of. -/
theorem decode_eq_ok (w : List Byte) (i : Instr) :
    decode w = .ok i ↔ ∃ o rest, w = o.byte :: rest ∧ decodeOperands o rest = some i := by
  constructor
  · intro h
    unfold decode at h
    split at h
    · cases h
    · next b rest =>
      split at h
      · cases h
      · next o ho =>
        split at h
        · next j hj =>
          cases h
          exact ⟨o, rest, by rw [opcodeOf_eq_some b o ho], hj⟩
        · cases h
  · rintro ⟨o, rest, rfl, h⟩
    simp [decode, opcodeOf_byte, h]

end Sys2Proof
end

