-- ==== Sys2Proof/Laws/Memory.lean ====
section
/-!
SUPPORT. The laws of the byte arrays: a read after a write, the canonical form kept by every operation, equality by contents.
-/
namespace Sys2Proof.Machine

@[simp] theorem Memory.read_nil (a : Nat) : Memory.read [] a = 0#8 := rfl

theorem Memory.read_cons (x : Nat) (y : Byte) (m : Memory) (a : Nat) :
    Memory.read ((x, y) :: m) a = if x = a then y else m.read a := rfl

/-- An index below every listed one reads 0. -/
theorem Memory.read_eq_zero_of_lt (m : Memory) (a : Nat) (h : ∀ c ∈ m, a < c.1) : m.read a = 0#8 := by
  induction m with
  | nil => rfl
  | cons c m ih =>
    obtain ⟨x, y⟩ := c
    have hx : a < x := h (x, y) (by simp)
    have hne : x ≠ a := by omega
    rw [Memory.read_cons, if_neg hne]
    exact ih fun c hc => h c (by simp [hc])

theorem Memory.wf_cons (x : Nat) (y : Byte) (m : Memory) :
    Memory.wf ((x, y) :: m) = true ↔ y ≠ 0#8 ∧ (∀ c ∈ m, x < c.1) ∧ m.wf = true := by
  simp [Memory.wf, and_assoc]

theorem Memory.within_cons (c : Host.Cell) (m : Memory) (n : Nat) :
    Memory.within (c :: m) n = true ↔ c.1 < n ∧ m.within n = true := by
  simp [Memory.within]

/-- Where the entries of a write come from. -/
theorem Memory.mem_write (m : Memory) (a : Nat) (b : Byte) (c : Host.Cell) (h : c ∈ m.write a b) : c = (a, b) ∨ c ∈ m := by
  induction m with
  | nil =>
    unfold Memory.write at h
    split at h <;> simp_all
  | cons d m ih =>
    obtain ⟨x, y⟩ := d
    unfold Memory.write at h
    split at h
    · rcases List.mem_cons.1 h with h | h
      · exact .inr (by simp [h])
      · rcases ih h with h | h
        · exact .inl h
        · exact .inr (by simp [h])
    · split at h
      · split at h
        · exact .inr (by simp [h])
        · rcases List.mem_cons.1 h with h | h
          · exact .inl h
          · exact .inr (by simp [h])
      · split at h
        · exact .inr h
        · rcases List.mem_cons.1 h with h | h
          · exact .inl h
          · exact .inr h

/-- A write keeps the canonical form. -/
theorem Memory.wf_write (m : Memory) (a : Nat) (b : Byte) (h : m.wf = true) : (m.write a b).wf = true := by
  induction m with
  | nil =>
    unfold Memory.write
    split
    · rfl
    · simp_all [Memory.wf]
  | cons d m ih =>
    obtain ⟨x, y⟩ := d
    obtain ⟨hy, hx, hm⟩ := (Memory.wf_cons x y m).1 h
    unfold Memory.write
    split
    · refine (Memory.wf_cons _ _ _).2 ⟨hy, fun c hc => ?_, ih hm⟩
      rcases Memory.mem_write m a b c hc with rfl | hc
      · assumption
      · exact hx c hc
    · split
      · split
        · exact hm
        · subst x
          exact (Memory.wf_cons _ _ _).2 ⟨by assumption, hx, hm⟩
      · split
        · exact h
        · refine (Memory.wf_cons _ _ _).2 ⟨by assumption, fun c hc => ?_, h⟩
          have hax : a < x := by omega
          rcases List.mem_cons.1 hc with rfl | hc
          · exact hax
          · have := hx c hc
            omega

/-- A write inside an array keeps every entry inside it. -/
theorem Memory.within_write (m : Memory) (a n : Nat) (b : Byte) (h : m.within n = true) (ha : a < n) :
    (m.write a b).within n = true := by
  simp only [Memory.within, List.all_eq_true, decide_eq_true_eq] at h ⊢
  intro c hc
  rcases Memory.mem_write m a b c hc with rfl | hc
  · exact ha
  · exact h c hc

/-- Reading after a write: the byte written at its index, the old byte everywhere else. -/
theorem Memory.read_write (m : Memory) (a : Nat) (b : Byte) (i : Nat) (h : m.wf = true) :
    (m.write a b).read i = if i = a then b else m.read i := by
  induction m with
  | nil =>
    unfold Memory.write
    split
    · simp_all [Memory.read]
    · simp only [Memory.read, eq_comm]
  | cons d m ih =>
    obtain ⟨x, y⟩ := d
    obtain ⟨hy, hx, hm⟩ := (Memory.wf_cons x y m).1 h
    unfold Memory.write
    split
    · rw [Memory.read_cons, ih hm, Memory.read_cons]
      split <;> split <;> first | rfl | omega
    · split
      · subst x
        have hz : Memory.read m a = 0#8 := Memory.read_eq_zero_of_lt m a hx
        split
        · subst b
          rw [Memory.read_cons]
          by_cases hi : i = a
          · simp [hi, hz]
          · simp [hi, Ne.symm hi]
        · simp only [Memory.read_cons]
          by_cases hi : i = a
          · simp [hi]
          · simp [hi, Ne.symm hi]
      · have hax : a < x := by omega
        split
        · subst b
          by_cases hi : i = a
          · subst hi
            rw [if_pos rfl]
            refine Memory.read_eq_zero_of_lt _ _ fun c hc => ?_
            rcases List.mem_cons.1 hc with rfl | hc
            · exact hax
            · exact lt_trans hax (hx c hc)
          · rw [if_neg hi]
        · rw [Memory.read_cons]
          by_cases hi : i = a
          · simp [hi]
          · simp [hi, Ne.symm hi]

/-- An index outside the array reads 0. -/
theorem Memory.read_of_within (m : Memory) (n i : Nat) (h : m.within n = true) (hi : n ≤ i) : m.read i = 0#8 := by
  induction m with
  | nil => rfl
  | cons d m ih =>
    obtain ⟨hd, hm⟩ := (Memory.within_cons d m n).1 h
    obtain ⟨x, y⟩ := d
    have hne : x ≠ i := by
      intro he
      simp only at hd
      omega
    rw [Memory.read_cons, if_neg hne, ih hm]

theorem Memory.wf_writeBytes (bs : List Byte) : ∀ (m : Memory) (a : Nat), m.wf = true → (m.writeBytes a bs).wf = true := by
  induction bs with
  | nil => exact fun m a h => h
  | cons b bs ih => exact fun m a h => ih _ _ (Memory.wf_write m a b h)

theorem Memory.within_writeBytes (bs : List Byte) :
    ∀ (m : Memory) (a n : Nat), m.within n = true → a + bs.length ≤ n → (m.writeBytes a bs).within n = true := by
  induction bs with
  | nil => exact fun m a n h _ => h
  | cons b bs ih =>
    intro m a n h ha
    simp only [List.length_cons] at ha
    exact ih _ _ _ (Memory.within_write m a n b h (by omega)) (by omega)

/-- Reading after a range was written: the bytes written inside the range, the old byte everywhere else. -/
theorem Memory.read_writeBytes (bs : List Byte) :
    ∀ (m : Memory) (a i : Nat), m.wf = true →
      (m.writeBytes a bs).read i = if a ≤ i ∧ i < a + bs.length then bs.getD (i - a) 0#8 else m.read i := by
  induction bs with
  | nil =>
    intro m a i _
    have : ¬(a ≤ i ∧ i < a + ([] : List Byte).length) := by
      simp only [List.length_nil]
      omega
    rw [if_neg this]
    rfl
  | cons b bs ih =>
    intro m a i h
    have hw := Memory.wf_write m a b h
    show ((m.write a b).writeBytes (a + 1) bs).read i = _
    rw [ih _ _ _ hw, Memory.read_write m a b i h]
    simp only [List.length_cons]
    by_cases hi : i = a
    · subst hi
      rw [if_neg (by omega), if_pos rfl, if_pos (by omega)]
      simp
    · by_cases hr : a + 1 ≤ i ∧ i < a + 1 + bs.length
      · rw [if_pos hr, if_pos (by omega)]
        obtain ⟨k, hk⟩ : ∃ k, i - a = k + 1 := ⟨i - a - 1, by omega⟩
        rw [hk, show i - (a + 1) = k by omega]
        simp
      · rw [if_neg hr, if_neg hi, if_neg (by omega)]

@[simp] theorem Memory.length_readBytes (m : Memory) (a n : Nat) : (m.readBytes a n).length = n := by
  simp [Memory.readBytes]

theorem Memory.getD_readBytes (m : Memory) (a n i : Nat) (h : i < n) : (m.readBytes a n).getD i 0#8 = m.read (a + i) := by
  simp [Memory.readBytes, List.getD_eq_getElem?_getD, h]

theorem Memory.getElem_readBytes (m : Memory) (a n i : Nat) (h : i < (m.readBytes a n).length) :
    (m.readBytes a n)[i] = m.read (a + i) := by
  simp [Memory.readBytes]

theorem Memory.readBytes_append (m : Memory) (a n k : Nat) :
    m.readBytes a (n + k) = m.readBytes a n ++ m.readBytes (a + n) k := by
  simp only [Memory.readBytes, ← List.map_append, List.range'_append_1]

theorem Memory.readBytes_succ (m : Memory) (a n : Nat) : m.readBytes a (n + 1) = m.readBytes a n ++ [m.read (a + n)] := by
  rw [Memory.readBytes_append]
  rfl

/-- Two memories that read the same over a range give the same bytes. -/
theorem Memory.readBytes_congr (m m' : Memory) (a n : Nat) (h : ∀ i, a ≤ i → i < a + n → m.read i = m'.read i) :
    m.readBytes a n = m'.readBytes a n := by
  refine List.map_congr_left fun i hi => ?_
  rw [List.mem_range'_1] at hi
  exact h i hi.1 hi.2

/-- What was written is read back. -/
theorem Memory.readBytes_writeBytes (m : Memory) (a : Nat) (bs : List Byte) (h : m.wf = true) :
    (m.writeBytes a bs).readBytes a bs.length = bs := by
  refine List.ext_getElem (by simp) fun i h1 h2 => ?_
  rw [Memory.getElem_readBytes, Memory.read_writeBytes bs m a (a + i) h, if_pos (by omega)]
  simp [List.getD_eq_getElem?_getD, h2]

/-- Equal memories are equal lists: the canonical form is unique. -/
theorem Memory.eq_of_read_eq : ∀ (m m' : Memory), m.wf = true → m'.wf = true → (∀ i, m.read i = m'.read i) → m = m'
  | [], [], _, _, _ => rfl
  | [], (x, y) :: m', _, h', h => by
    obtain ⟨hy, _, _⟩ := (Memory.wf_cons x y m').1 h'
    have := h x
    simp [Memory.read] at this
    exact absurd this.symm hy
  | (x, y) :: m, [], hw, _, h => by
    obtain ⟨hy, _, _⟩ := (Memory.wf_cons x y m).1 hw
    have := h x
    simp [Memory.read] at this
    exact absurd this hy
  | (x, y) :: m, (x', y') :: m', hw, hw', h => by
    obtain ⟨hy, hx, hm⟩ := (Memory.wf_cons x y m).1 hw
    obtain ⟨hy', hx', hm'⟩ := (Memory.wf_cons x' y' m').1 hw'
    have hxx : x = x' := by
      rcases Nat.lt_trichotomy x x' with hlt | heq | hgt
      · have h1 := h x
        rw [Memory.read_cons, if_pos rfl, Memory.read_eq_zero_of_lt] at h1
        · exact absurd h1 hy
        · intro c hc
          rcases List.mem_cons.1 hc with rfl | hc
          · exact hlt
          · exact lt_trans hlt (hx' c hc)
      · exact heq
      · have h1 := (h x').symm
        rw [Memory.read_cons, if_pos rfl, Memory.read_eq_zero_of_lt] at h1
        · exact absurd h1 hy'
        · intro c hc
          rcases List.mem_cons.1 hc with rfl | hc
          · exact hgt
          · exact lt_trans hgt (hx c hc)
    subst hxx
    have hyy : y = y' := by
      have h1 := h x
      simpa [Memory.read_cons] using h1
    subst hyy
    have : m = m' := by
      refine Memory.eq_of_read_eq m m' hm hm' fun i => ?_
      by_cases hi : x = i
      · subst hi
        rw [Memory.read_eq_zero_of_lt m x hx, Memory.read_eq_zero_of_lt m' x hx']
      · have h1 := h i
        simpa [Memory.read_cons, hi] using h1
    rw [this]

end Sys2Proof.Machine
end

