-- ==== Sys2Proof/Laws/State.lean ====
section
/-!
SUPPORT. One lemma per field of `State` and named update: what the field holds after the update.
-/
namespace Sys2Proof.Machine

/-! ### `State.answer` -/

@[simp] theorem State.answer_params (st : Status) (data : List Byte) (s : State) : (s.answer st data).params = s.params := rfl
@[simp] theorem State.answer_buf0 (st : Status) (data : List Byte) (s : State) : (s.answer st data).buf0 = s.buf0 := rfl
@[simp] theorem State.answer_buf1 (st : Status) (data : List Byte) (s : State) : (s.answer st data).buf1 = s.buf1 := rfl
@[simp] theorem State.answer_act (st : Status) (data : List Byte) (s : State) : (s.answer st data).act = s.act := rfl
@[simp] theorem State.answer_cur (st : Status) (data : List Byte) (s : State) : (s.answer st data).cur = s.cur := rfl
@[simp] theorem State.answer_new (st : Status) (data : List Byte) (s : State) : (s.answer st data).new = s.new := rfl
@[simp] theorem State.answer_fp (st : Status) (data : List Byte) (s : State) : (s.answer st data).fp = s.fp := rfl
@[simp] theorem State.answer_hour (st : Status) (data : List Byte) (s : State) : (s.answer st data).hour = s.hour := rfl
@[simp] theorem State.answer_minute (st : Status) (data : List Byte) (s : State) : (s.answer st data).minute = s.minute := rfl
@[simp] theorem State.answer_second (st : Status) (data : List Byte) (s : State) : (s.answer st data).second = s.second := rfl
@[simp] theorem State.answer_millis (st : Status) (data : List Byte) (s : State) : (s.answer st data).millis = s.millis := rfl
@[simp] theorem State.answer_day (st : Status) (data : List Byte) (s : State) : (s.answer st data).day = s.day := rfl
@[simp] theorem State.answer_month (st : Status) (data : List Byte) (s : State) : (s.answer st data).month = s.month := rfl
@[simp] theorem State.answer_year (st : Status) (data : List Byte) (s : State) : (s.answer st data).year = s.year := rfl
@[simp] theorem State.answer_latRaw (st : Status) (data : List Byte) (s : State) : (s.answer st data).latRaw = s.latRaw := rfl
@[simp] theorem State.answer_latFix (st : Status) (data : List Byte) (s : State) : (s.answer st data).latFix = s.latFix := rfl
@[simp] theorem State.answer_latHemi (st : Status) (data : List Byte) (s : State) : (s.answer st data).latHemi = s.latHemi := rfl
@[simp] theorem State.answer_lonRaw (st : Status) (data : List Byte) (s : State) : (s.answer st data).lonRaw = s.lonRaw := rfl
@[simp] theorem State.answer_lonFix (st : Status) (data : List Byte) (s : State) : (s.answer st data).lonFix = s.lonFix := rfl
@[simp] theorem State.answer_lonHemi (st : Status) (data : List Byte) (s : State) : (s.answer st data).lonHemi = s.lonHemi := rfl
@[simp] theorem State.answer_rvalid (st : Status) (data : List Byte) (s : State) : (s.answer st data).rvalid = s.rvalid := rfl
@[simp] theorem State.answer_rxbuf (st : Status) (data : List Byte) (s : State) : (s.answer st data).rxbuf = s.rxbuf := rfl
@[simp] theorem State.answer_rxn (st : Status) (data : List Byte) (s : State) : (s.answer st data).rxn = s.rxn := rfl
@[simp] theorem State.answer_rxlen (st : Status) (data : List Byte) (s : State) : (s.answer st data).rxlen = s.rxlen := rfl
@[simp] theorem State.answer_rxck (st : Status) (data : List Byte) (s : State) : (s.answer st data).rxck = s.rxck := rfl
@[simp] theorem State.answer_exp (st : Status) (data : List Byte) (s : State) : (s.answer st data).exp = s.exp := rfl
@[simp] theorem State.answer_explen (st : Status) (data : List Byte) (s : State) : (s.answer st data).explen = s.explen := rfl
@[simp] theorem State.answer_awst (st : Status) (data : List Byte) (s : State) : (s.answer st data).awst = s.awst := rfl
@[simp] theorem State.answer_tmo (st : Status) (data : List Byte) (s : State) : (s.answer st data).tmo = s.tmo := rfl
@[simp] theorem State.answer_seq (st : Status) (data : List Byte) (s : State) : (s.answer st data).seq = s.seq := rfl
@[simp] theorem State.answer_subcnt (st : Status) (data : List Byte) (s : State) : (s.answer st data).subcnt = s.subcnt := rfl
@[simp] theorem State.answer_ubuf (st : Status) (data : List Byte) (s : State) : (s.answer st data).ubuf = s.ubuf := rfl
@[simp] theorem State.answer_uplpend (st : Status) (data : List Byte) (s : State) : (s.answer st data).uplpend = s.uplpend := rfl
@[simp] theorem State.answer_txOut (st : Status) (data : List Byte) (s : State) : (s.answer st data).txOut = s.txOut := rfl
@[simp] theorem State.answer_port (st : Status) (data : List Byte) (s : State) : (s.answer st data).port = s.port := rfl
@[simp] theorem State.answer_responses (st : Status) (data : List Byte) (s : State) : (s.answer st data).responses = s.responses ++ [st.code :: data] := rfl

@[simp] theorem State.answer_mem (st : Status) (data : List Byte) (s : State) (S : Space) : (s.answer st data).mem S = s.mem S := by
  rcases S with (_ | _) | _ | _ | _ <;> rfl

@[simp] theorem State.answer_byteAt (st : Status) (data : List Byte) (s : State) (S : Space) (a : Nat) :
    (s.answer st data).byteAt S a = s.byteAt S a := by
  unfold State.byteAt
  rw [State.answer_mem]

@[simp] theorem State.answer_bytesAt (st : Status) (data : List Byte) (s : State) (S : Space) (a n : Nat) :
    (s.answer st data).bytesAt S a n = s.bytesAt S a n := by
  unfold State.bytesAt
  rw [State.answer_mem]

/-! ### `State.emit` -/

@[simp] theorem State.emit_params (bs : List Byte) (s : State) : (s.emit bs).params = s.params := rfl
@[simp] theorem State.emit_buf0 (bs : List Byte) (s : State) : (s.emit bs).buf0 = s.buf0 := rfl
@[simp] theorem State.emit_buf1 (bs : List Byte) (s : State) : (s.emit bs).buf1 = s.buf1 := rfl
@[simp] theorem State.emit_act (bs : List Byte) (s : State) : (s.emit bs).act = s.act := rfl
@[simp] theorem State.emit_cur (bs : List Byte) (s : State) : (s.emit bs).cur = s.cur := rfl
@[simp] theorem State.emit_new (bs : List Byte) (s : State) : (s.emit bs).new = s.new := rfl
@[simp] theorem State.emit_fp (bs : List Byte) (s : State) : (s.emit bs).fp = s.fp := rfl
@[simp] theorem State.emit_hour (bs : List Byte) (s : State) : (s.emit bs).hour = s.hour := rfl
@[simp] theorem State.emit_minute (bs : List Byte) (s : State) : (s.emit bs).minute = s.minute := rfl
@[simp] theorem State.emit_second (bs : List Byte) (s : State) : (s.emit bs).second = s.second := rfl
@[simp] theorem State.emit_millis (bs : List Byte) (s : State) : (s.emit bs).millis = s.millis := rfl
@[simp] theorem State.emit_day (bs : List Byte) (s : State) : (s.emit bs).day = s.day := rfl
@[simp] theorem State.emit_month (bs : List Byte) (s : State) : (s.emit bs).month = s.month := rfl
@[simp] theorem State.emit_year (bs : List Byte) (s : State) : (s.emit bs).year = s.year := rfl
@[simp] theorem State.emit_latRaw (bs : List Byte) (s : State) : (s.emit bs).latRaw = s.latRaw := rfl
@[simp] theorem State.emit_latFix (bs : List Byte) (s : State) : (s.emit bs).latFix = s.latFix := rfl
@[simp] theorem State.emit_latHemi (bs : List Byte) (s : State) : (s.emit bs).latHemi = s.latHemi := rfl
@[simp] theorem State.emit_lonRaw (bs : List Byte) (s : State) : (s.emit bs).lonRaw = s.lonRaw := rfl
@[simp] theorem State.emit_lonFix (bs : List Byte) (s : State) : (s.emit bs).lonFix = s.lonFix := rfl
@[simp] theorem State.emit_lonHemi (bs : List Byte) (s : State) : (s.emit bs).lonHemi = s.lonHemi := rfl
@[simp] theorem State.emit_rvalid (bs : List Byte) (s : State) : (s.emit bs).rvalid = s.rvalid := rfl
@[simp] theorem State.emit_rxbuf (bs : List Byte) (s : State) : (s.emit bs).rxbuf = s.rxbuf := rfl
@[simp] theorem State.emit_rxn (bs : List Byte) (s : State) : (s.emit bs).rxn = s.rxn := rfl
@[simp] theorem State.emit_rxlen (bs : List Byte) (s : State) : (s.emit bs).rxlen = s.rxlen := rfl
@[simp] theorem State.emit_rxck (bs : List Byte) (s : State) : (s.emit bs).rxck = s.rxck := rfl
@[simp] theorem State.emit_exp (bs : List Byte) (s : State) : (s.emit bs).exp = s.exp := rfl
@[simp] theorem State.emit_explen (bs : List Byte) (s : State) : (s.emit bs).explen = s.explen := rfl
@[simp] theorem State.emit_awst (bs : List Byte) (s : State) : (s.emit bs).awst = s.awst := rfl
@[simp] theorem State.emit_tmo (bs : List Byte) (s : State) : (s.emit bs).tmo = s.tmo := rfl
@[simp] theorem State.emit_seq (bs : List Byte) (s : State) : (s.emit bs).seq = s.seq := rfl
@[simp] theorem State.emit_subcnt (bs : List Byte) (s : State) : (s.emit bs).subcnt = s.subcnt := rfl
@[simp] theorem State.emit_ubuf (bs : List Byte) (s : State) : (s.emit bs).ubuf = s.ubuf := rfl
@[simp] theorem State.emit_uplpend (bs : List Byte) (s : State) : (s.emit bs).uplpend = s.uplpend := rfl
@[simp] theorem State.emit_txOut (bs : List Byte) (s : State) : (s.emit bs).txOut = s.txOut ++ bs := rfl
@[simp] theorem State.emit_port (bs : List Byte) (s : State) : (s.emit bs).port = s.port := rfl
@[simp] theorem State.emit_responses (bs : List Byte) (s : State) : (s.emit bs).responses = s.responses := rfl

@[simp] theorem State.emit_mem (bs : List Byte) (s : State) (S : Space) : (s.emit bs).mem S = s.mem S := by
  rcases S with (_ | _) | _ | _ | _ <;> rfl

@[simp] theorem State.emit_byteAt (bs : List Byte) (s : State) (S : Space) (a : Nat) :
    (s.emit bs).byteAt S a = s.byteAt S a := by
  unfold State.byteAt
  rw [State.emit_mem]

@[simp] theorem State.emit_bytesAt (bs : List Byte) (s : State) (S : Space) (a n : Nat) :
    (s.emit bs).bytesAt S a n = s.bytesAt S a n := by
  unfold State.bytesAt
  rw [State.emit_mem]

/-! ### `State.completeLine` -/

@[simp] theorem State.completeLine_params (s : State) : (s.completeLine).params = s.params := rfl
@[simp] theorem State.completeLine_buf0 (s : State) : (s.completeLine).buf0 = s.buf0 := rfl
@[simp] theorem State.completeLine_buf1 (s : State) : (s.completeLine).buf1 = s.buf1 := rfl
@[simp] theorem State.completeLine_act (s : State) : (s.completeLine).act = !s.act := rfl
@[simp] theorem State.completeLine_cur (s : State) : (s.completeLine).cur = 0#8 := rfl
@[simp] theorem State.completeLine_new (s : State) : (s.completeLine).new = true := rfl
@[simp] theorem State.completeLine_fp (s : State) : (s.completeLine).fp = s.fp := rfl
@[simp] theorem State.completeLine_hour (s : State) : (s.completeLine).hour = s.hour := rfl
@[simp] theorem State.completeLine_minute (s : State) : (s.completeLine).minute = s.minute := rfl
@[simp] theorem State.completeLine_second (s : State) : (s.completeLine).second = s.second := rfl
@[simp] theorem State.completeLine_millis (s : State) : (s.completeLine).millis = s.millis := rfl
@[simp] theorem State.completeLine_day (s : State) : (s.completeLine).day = s.day := rfl
@[simp] theorem State.completeLine_month (s : State) : (s.completeLine).month = s.month := rfl
@[simp] theorem State.completeLine_year (s : State) : (s.completeLine).year = s.year := rfl
@[simp] theorem State.completeLine_latRaw (s : State) : (s.completeLine).latRaw = s.latRaw := rfl
@[simp] theorem State.completeLine_latFix (s : State) : (s.completeLine).latFix = s.latFix := rfl
@[simp] theorem State.completeLine_latHemi (s : State) : (s.completeLine).latHemi = s.latHemi := rfl
@[simp] theorem State.completeLine_lonRaw (s : State) : (s.completeLine).lonRaw = s.lonRaw := rfl
@[simp] theorem State.completeLine_lonFix (s : State) : (s.completeLine).lonFix = s.lonFix := rfl
@[simp] theorem State.completeLine_lonHemi (s : State) : (s.completeLine).lonHemi = s.lonHemi := rfl
@[simp] theorem State.completeLine_rvalid (s : State) : (s.completeLine).rvalid = s.rvalid := rfl
@[simp] theorem State.completeLine_rxbuf (s : State) : (s.completeLine).rxbuf = s.rxbuf := rfl
@[simp] theorem State.completeLine_rxn (s : State) : (s.completeLine).rxn = s.rxn := rfl
@[simp] theorem State.completeLine_rxlen (s : State) : (s.completeLine).rxlen = s.rxlen := rfl
@[simp] theorem State.completeLine_rxck (s : State) : (s.completeLine).rxck = s.rxck := rfl
@[simp] theorem State.completeLine_exp (s : State) : (s.completeLine).exp = s.exp := rfl
@[simp] theorem State.completeLine_explen (s : State) : (s.completeLine).explen = s.explen := rfl
@[simp] theorem State.completeLine_awst (s : State) : (s.completeLine).awst = s.awst := rfl
@[simp] theorem State.completeLine_tmo (s : State) : (s.completeLine).tmo = s.tmo := rfl
@[simp] theorem State.completeLine_seq (s : State) : (s.completeLine).seq = s.seq := rfl
@[simp] theorem State.completeLine_subcnt (s : State) : (s.completeLine).subcnt = s.subcnt := rfl
@[simp] theorem State.completeLine_ubuf (s : State) : (s.completeLine).ubuf = s.ubuf := rfl
@[simp] theorem State.completeLine_uplpend (s : State) : (s.completeLine).uplpend = s.uplpend := rfl
@[simp] theorem State.completeLine_txOut (s : State) : (s.completeLine).txOut = s.txOut := rfl
@[simp] theorem State.completeLine_port (s : State) : (s.completeLine).port = s.port := rfl
@[simp] theorem State.completeLine_responses (s : State) : (s.completeLine).responses = s.responses := rfl

@[simp] theorem State.completeLine_mem (s : State) (S : Space) : (s.completeLine).mem S = s.mem S := by
  rcases S with (_ | _) | _ | _ | _ <;> rfl

@[simp] theorem State.completeLine_byteAt (s : State) (S : Space) (a : Nat) :
    (s.completeLine).byteAt S a = s.byteAt S a := by
  unfold State.byteAt
  rw [State.completeLine_mem]

@[simp] theorem State.completeLine_bytesAt (s : State) (S : Space) (a n : Nat) :
    (s.completeLine).bytesAt S a n = s.bytesAt S a n := by
  unfold State.bytesAt
  rw [State.completeLine_mem]

/-! ### `State.waitingFor` -/

@[simp] theorem State.waitingFor_params (k : Nat) (t : Half) (u : Pending) (s : State) : (s.waitingFor k t u).params = s.params := rfl
@[simp] theorem State.waitingFor_buf0 (k : Nat) (t : Half) (u : Pending) (s : State) : (s.waitingFor k t u).buf0 = s.buf0 := rfl
@[simp] theorem State.waitingFor_buf1 (k : Nat) (t : Half) (u : Pending) (s : State) : (s.waitingFor k t u).buf1 = s.buf1 := rfl
@[simp] theorem State.waitingFor_act (k : Nat) (t : Half) (u : Pending) (s : State) : (s.waitingFor k t u).act = s.act := rfl
@[simp] theorem State.waitingFor_cur (k : Nat) (t : Half) (u : Pending) (s : State) : (s.waitingFor k t u).cur = s.cur := rfl
@[simp] theorem State.waitingFor_new (k : Nat) (t : Half) (u : Pending) (s : State) : (s.waitingFor k t u).new = s.new := rfl
@[simp] theorem State.waitingFor_fp (k : Nat) (t : Half) (u : Pending) (s : State) : (s.waitingFor k t u).fp = s.fp := rfl
@[simp] theorem State.waitingFor_hour (k : Nat) (t : Half) (u : Pending) (s : State) : (s.waitingFor k t u).hour = s.hour := rfl
@[simp] theorem State.waitingFor_minute (k : Nat) (t : Half) (u : Pending) (s : State) : (s.waitingFor k t u).minute = s.minute := rfl
@[simp] theorem State.waitingFor_second (k : Nat) (t : Half) (u : Pending) (s : State) : (s.waitingFor k t u).second = s.second := rfl
@[simp] theorem State.waitingFor_millis (k : Nat) (t : Half) (u : Pending) (s : State) : (s.waitingFor k t u).millis = s.millis := rfl
@[simp] theorem State.waitingFor_day (k : Nat) (t : Half) (u : Pending) (s : State) : (s.waitingFor k t u).day = s.day := rfl
@[simp] theorem State.waitingFor_month (k : Nat) (t : Half) (u : Pending) (s : State) : (s.waitingFor k t u).month = s.month := rfl
@[simp] theorem State.waitingFor_year (k : Nat) (t : Half) (u : Pending) (s : State) : (s.waitingFor k t u).year = s.year := rfl
@[simp] theorem State.waitingFor_latRaw (k : Nat) (t : Half) (u : Pending) (s : State) : (s.waitingFor k t u).latRaw = s.latRaw := rfl
@[simp] theorem State.waitingFor_latFix (k : Nat) (t : Half) (u : Pending) (s : State) : (s.waitingFor k t u).latFix = s.latFix := rfl
@[simp] theorem State.waitingFor_latHemi (k : Nat) (t : Half) (u : Pending) (s : State) : (s.waitingFor k t u).latHemi = s.latHemi := rfl
@[simp] theorem State.waitingFor_lonRaw (k : Nat) (t : Half) (u : Pending) (s : State) : (s.waitingFor k t u).lonRaw = s.lonRaw := rfl
@[simp] theorem State.waitingFor_lonFix (k : Nat) (t : Half) (u : Pending) (s : State) : (s.waitingFor k t u).lonFix = s.lonFix := rfl
@[simp] theorem State.waitingFor_lonHemi (k : Nat) (t : Half) (u : Pending) (s : State) : (s.waitingFor k t u).lonHemi = s.lonHemi := rfl
@[simp] theorem State.waitingFor_rvalid (k : Nat) (t : Half) (u : Pending) (s : State) : (s.waitingFor k t u).rvalid = s.rvalid := rfl
@[simp] theorem State.waitingFor_rxbuf (k : Nat) (t : Half) (u : Pending) (s : State) : (s.waitingFor k t u).rxbuf = s.rxbuf := rfl
@[simp] theorem State.waitingFor_rxn (k : Nat) (t : Half) (u : Pending) (s : State) : (s.waitingFor k t u).rxn = 0#8 := rfl
@[simp] theorem State.waitingFor_rxlen (k : Nat) (t : Half) (u : Pending) (s : State) : (s.waitingFor k t u).rxlen = 0#8 := rfl
@[simp] theorem State.waitingFor_rxck (k : Nat) (t : Half) (u : Pending) (s : State) : (s.waitingFor k t u).rxck = 0#8 := rfl
@[simp] theorem State.waitingFor_exp (k : Nat) (t : Half) (u : Pending) (s : State) : (s.waitingFor k t u).exp = s.exp := rfl
@[simp] theorem State.waitingFor_explen (k : Nat) (t : Half) (u : Pending) (s : State) : (s.waitingFor k t u).explen = BitVec.ofNat 8 k := rfl
@[simp] theorem State.waitingFor_awst (k : Nat) (t : Half) (u : Pending) (s : State) : (s.waitingFor k t u).awst = .waiting := rfl
@[simp] theorem State.waitingFor_tmo (k : Nat) (t : Half) (u : Pending) (s : State) : (s.waitingFor k t u).tmo = t := rfl
@[simp] theorem State.waitingFor_seq (k : Nat) (t : Half) (u : Pending) (s : State) : (s.waitingFor k t u).seq = s.seq := rfl
@[simp] theorem State.waitingFor_subcnt (k : Nat) (t : Half) (u : Pending) (s : State) : (s.waitingFor k t u).subcnt = s.subcnt := rfl
@[simp] theorem State.waitingFor_ubuf (k : Nat) (t : Half) (u : Pending) (s : State) : (s.waitingFor k t u).ubuf = s.ubuf := rfl
@[simp] theorem State.waitingFor_uplpend (k : Nat) (t : Half) (u : Pending) (s : State) : (s.waitingFor k t u).uplpend = u := rfl
@[simp] theorem State.waitingFor_txOut (k : Nat) (t : Half) (u : Pending) (s : State) : (s.waitingFor k t u).txOut = s.txOut := rfl
@[simp] theorem State.waitingFor_port (k : Nat) (t : Half) (u : Pending) (s : State) : (s.waitingFor k t u).port = s.port := rfl
@[simp] theorem State.waitingFor_responses (k : Nat) (t : Half) (u : Pending) (s : State) : (s.waitingFor k t u).responses = s.responses := rfl

@[simp] theorem State.waitingFor_mem (k : Nat) (t : Half) (u : Pending) (s : State) (S : Space) : (s.waitingFor k t u).mem S = s.mem S := by
  rcases S with (_ | _) | _ | _ | _ <;> rfl

@[simp] theorem State.waitingFor_byteAt (k : Nat) (t : Half) (u : Pending) (s : State) (S : Space) (a : Nat) :
    (s.waitingFor k t u).byteAt S a = s.byteAt S a := by
  unfold State.byteAt
  rw [State.waitingFor_mem]

@[simp] theorem State.waitingFor_bytesAt (k : Nat) (t : Half) (u : Pending) (s : State) (S : Space) (a n : Nat) :
    (s.waitingFor k t u).bytesAt S a n = s.bytesAt S a n := by
  unfold State.bytesAt
  rw [State.waitingFor_mem]

/-! ### `State.rxIdle` -/

@[simp] theorem State.rxIdle_params (s : State) : (s.rxIdle).params = s.params := rfl
@[simp] theorem State.rxIdle_buf0 (s : State) : (s.rxIdle).buf0 = s.buf0 := rfl
@[simp] theorem State.rxIdle_buf1 (s : State) : (s.rxIdle).buf1 = s.buf1 := rfl
@[simp] theorem State.rxIdle_act (s : State) : (s.rxIdle).act = s.act := rfl
@[simp] theorem State.rxIdle_cur (s : State) : (s.rxIdle).cur = s.cur := rfl
@[simp] theorem State.rxIdle_new (s : State) : (s.rxIdle).new = s.new := rfl
@[simp] theorem State.rxIdle_fp (s : State) : (s.rxIdle).fp = s.fp := rfl
@[simp] theorem State.rxIdle_hour (s : State) : (s.rxIdle).hour = s.hour := rfl
@[simp] theorem State.rxIdle_minute (s : State) : (s.rxIdle).minute = s.minute := rfl
@[simp] theorem State.rxIdle_second (s : State) : (s.rxIdle).second = s.second := rfl
@[simp] theorem State.rxIdle_millis (s : State) : (s.rxIdle).millis = s.millis := rfl
@[simp] theorem State.rxIdle_day (s : State) : (s.rxIdle).day = s.day := rfl
@[simp] theorem State.rxIdle_month (s : State) : (s.rxIdle).month = s.month := rfl
@[simp] theorem State.rxIdle_year (s : State) : (s.rxIdle).year = s.year := rfl
@[simp] theorem State.rxIdle_latRaw (s : State) : (s.rxIdle).latRaw = s.latRaw := rfl
@[simp] theorem State.rxIdle_latFix (s : State) : (s.rxIdle).latFix = s.latFix := rfl
@[simp] theorem State.rxIdle_latHemi (s : State) : (s.rxIdle).latHemi = s.latHemi := rfl
@[simp] theorem State.rxIdle_lonRaw (s : State) : (s.rxIdle).lonRaw = s.lonRaw := rfl
@[simp] theorem State.rxIdle_lonFix (s : State) : (s.rxIdle).lonFix = s.lonFix := rfl
@[simp] theorem State.rxIdle_lonHemi (s : State) : (s.rxIdle).lonHemi = s.lonHemi := rfl
@[simp] theorem State.rxIdle_rvalid (s : State) : (s.rxIdle).rvalid = s.rvalid := rfl
@[simp] theorem State.rxIdle_rxbuf (s : State) : (s.rxIdle).rxbuf = s.rxbuf := rfl
@[simp] theorem State.rxIdle_rxn (s : State) : (s.rxIdle).rxn = 0#8 := rfl
@[simp] theorem State.rxIdle_rxlen (s : State) : (s.rxIdle).rxlen = s.rxlen := rfl
@[simp] theorem State.rxIdle_rxck (s : State) : (s.rxIdle).rxck = s.rxck := rfl
@[simp] theorem State.rxIdle_exp (s : State) : (s.rxIdle).exp = s.exp := rfl
@[simp] theorem State.rxIdle_explen (s : State) : (s.rxIdle).explen = s.explen := rfl
@[simp] theorem State.rxIdle_awst (s : State) : (s.rxIdle).awst = s.awst := rfl
@[simp] theorem State.rxIdle_tmo (s : State) : (s.rxIdle).tmo = s.tmo := rfl
@[simp] theorem State.rxIdle_seq (s : State) : (s.rxIdle).seq = s.seq := rfl
@[simp] theorem State.rxIdle_subcnt (s : State) : (s.rxIdle).subcnt = s.subcnt := rfl
@[simp] theorem State.rxIdle_ubuf (s : State) : (s.rxIdle).ubuf = s.ubuf := rfl
@[simp] theorem State.rxIdle_uplpend (s : State) : (s.rxIdle).uplpend = s.uplpend := rfl
@[simp] theorem State.rxIdle_txOut (s : State) : (s.rxIdle).txOut = s.txOut := rfl
@[simp] theorem State.rxIdle_port (s : State) : (s.rxIdle).port = s.port := rfl
@[simp] theorem State.rxIdle_responses (s : State) : (s.rxIdle).responses = s.responses := rfl

@[simp] theorem State.rxIdle_mem (s : State) (S : Space) : (s.rxIdle).mem S = s.mem S := by
  rcases S with (_ | _) | _ | _ | _ <;> rfl

@[simp] theorem State.rxIdle_byteAt (s : State) (S : Space) (a : Nat) :
    (s.rxIdle).byteAt S a = s.byteAt S a := by
  unfold State.byteAt
  rw [State.rxIdle_mem]

@[simp] theorem State.rxIdle_bytesAt (s : State) (S : Space) (a n : Nat) :
    (s.rxIdle).bytesAt S a n = s.bytesAt S a n := by
  unfold State.bytesAt
  rw [State.rxIdle_mem]

/-! ### `State.rxSum` -/

@[simp] theorem State.rxSum_params (b : Byte) (s : State) : (s.rxSum b).params = s.params := rfl
@[simp] theorem State.rxSum_buf0 (b : Byte) (s : State) : (s.rxSum b).buf0 = s.buf0 := rfl
@[simp] theorem State.rxSum_buf1 (b : Byte) (s : State) : (s.rxSum b).buf1 = s.buf1 := rfl
@[simp] theorem State.rxSum_act (b : Byte) (s : State) : (s.rxSum b).act = s.act := rfl
@[simp] theorem State.rxSum_cur (b : Byte) (s : State) : (s.rxSum b).cur = s.cur := rfl
@[simp] theorem State.rxSum_new (b : Byte) (s : State) : (s.rxSum b).new = s.new := rfl
@[simp] theorem State.rxSum_fp (b : Byte) (s : State) : (s.rxSum b).fp = s.fp := rfl
@[simp] theorem State.rxSum_hour (b : Byte) (s : State) : (s.rxSum b).hour = s.hour := rfl
@[simp] theorem State.rxSum_minute (b : Byte) (s : State) : (s.rxSum b).minute = s.minute := rfl
@[simp] theorem State.rxSum_second (b : Byte) (s : State) : (s.rxSum b).second = s.second := rfl
@[simp] theorem State.rxSum_millis (b : Byte) (s : State) : (s.rxSum b).millis = s.millis := rfl
@[simp] theorem State.rxSum_day (b : Byte) (s : State) : (s.rxSum b).day = s.day := rfl
@[simp] theorem State.rxSum_month (b : Byte) (s : State) : (s.rxSum b).month = s.month := rfl
@[simp] theorem State.rxSum_year (b : Byte) (s : State) : (s.rxSum b).year = s.year := rfl
@[simp] theorem State.rxSum_latRaw (b : Byte) (s : State) : (s.rxSum b).latRaw = s.latRaw := rfl
@[simp] theorem State.rxSum_latFix (b : Byte) (s : State) : (s.rxSum b).latFix = s.latFix := rfl
@[simp] theorem State.rxSum_latHemi (b : Byte) (s : State) : (s.rxSum b).latHemi = s.latHemi := rfl
@[simp] theorem State.rxSum_lonRaw (b : Byte) (s : State) : (s.rxSum b).lonRaw = s.lonRaw := rfl
@[simp] theorem State.rxSum_lonFix (b : Byte) (s : State) : (s.rxSum b).lonFix = s.lonFix := rfl
@[simp] theorem State.rxSum_lonHemi (b : Byte) (s : State) : (s.rxSum b).lonHemi = s.lonHemi := rfl
@[simp] theorem State.rxSum_rvalid (b : Byte) (s : State) : (s.rxSum b).rvalid = s.rvalid := rfl
@[simp] theorem State.rxSum_rxbuf (b : Byte) (s : State) : (s.rxSum b).rxbuf = s.rxbuf := rfl
@[simp] theorem State.rxSum_rxn (b : Byte) (s : State) : (s.rxSum b).rxn = s.rxn := rfl
@[simp] theorem State.rxSum_rxlen (b : Byte) (s : State) : (s.rxSum b).rxlen = s.rxlen := rfl
@[simp] theorem State.rxSum_rxck (b : Byte) (s : State) : (s.rxSum b).rxck = s.rxck ^^^ b := rfl
@[simp] theorem State.rxSum_exp (b : Byte) (s : State) : (s.rxSum b).exp = s.exp := rfl
@[simp] theorem State.rxSum_explen (b : Byte) (s : State) : (s.rxSum b).explen = s.explen := rfl
@[simp] theorem State.rxSum_awst (b : Byte) (s : State) : (s.rxSum b).awst = s.awst := rfl
@[simp] theorem State.rxSum_tmo (b : Byte) (s : State) : (s.rxSum b).tmo = s.tmo := rfl
@[simp] theorem State.rxSum_seq (b : Byte) (s : State) : (s.rxSum b).seq = s.seq := rfl
@[simp] theorem State.rxSum_subcnt (b : Byte) (s : State) : (s.rxSum b).subcnt = s.subcnt := rfl
@[simp] theorem State.rxSum_ubuf (b : Byte) (s : State) : (s.rxSum b).ubuf = s.ubuf := rfl
@[simp] theorem State.rxSum_uplpend (b : Byte) (s : State) : (s.rxSum b).uplpend = s.uplpend := rfl
@[simp] theorem State.rxSum_txOut (b : Byte) (s : State) : (s.rxSum b).txOut = s.txOut := rfl
@[simp] theorem State.rxSum_port (b : Byte) (s : State) : (s.rxSum b).port = s.port := rfl
@[simp] theorem State.rxSum_responses (b : Byte) (s : State) : (s.rxSum b).responses = s.responses := rfl

@[simp] theorem State.rxSum_mem (b : Byte) (s : State) (S : Space) : (s.rxSum b).mem S = s.mem S := by
  rcases S with (_ | _) | _ | _ | _ <;> rfl

@[simp] theorem State.rxSum_byteAt (b : Byte) (s : State) (S : Space) (a : Nat) :
    (s.rxSum b).byteAt S a = s.byteAt S a := by
  unfold State.byteAt
  rw [State.rxSum_mem]

@[simp] theorem State.rxSum_bytesAt (b : Byte) (s : State) (S : Space) (a n : Nat) :
    (s.rxSum b).bytesAt S a n = s.bytesAt S a n := by
  unfold State.bytesAt
  rw [State.rxSum_mem]

/-! ### `State.setCur` -/

@[simp] theorem State.setCur_params (c : Nat) (s : State) : (s.setCur c).params = s.params := rfl
@[simp] theorem State.setCur_buf0 (c : Nat) (s : State) : (s.setCur c).buf0 = s.buf0 := rfl
@[simp] theorem State.setCur_buf1 (c : Nat) (s : State) : (s.setCur c).buf1 = s.buf1 := rfl
@[simp] theorem State.setCur_act (c : Nat) (s : State) : (s.setCur c).act = s.act := rfl
@[simp] theorem State.setCur_cur (c : Nat) (s : State) : (s.setCur c).cur = BitVec.ofNat 8 c := rfl
@[simp] theorem State.setCur_new (c : Nat) (s : State) : (s.setCur c).new = s.new := rfl
@[simp] theorem State.setCur_fp (c : Nat) (s : State) : (s.setCur c).fp = s.fp := rfl
@[simp] theorem State.setCur_hour (c : Nat) (s : State) : (s.setCur c).hour = s.hour := rfl
@[simp] theorem State.setCur_minute (c : Nat) (s : State) : (s.setCur c).minute = s.minute := rfl
@[simp] theorem State.setCur_second (c : Nat) (s : State) : (s.setCur c).second = s.second := rfl
@[simp] theorem State.setCur_millis (c : Nat) (s : State) : (s.setCur c).millis = s.millis := rfl
@[simp] theorem State.setCur_day (c : Nat) (s : State) : (s.setCur c).day = s.day := rfl
@[simp] theorem State.setCur_month (c : Nat) (s : State) : (s.setCur c).month = s.month := rfl
@[simp] theorem State.setCur_year (c : Nat) (s : State) : (s.setCur c).year = s.year := rfl
@[simp] theorem State.setCur_latRaw (c : Nat) (s : State) : (s.setCur c).latRaw = s.latRaw := rfl
@[simp] theorem State.setCur_latFix (c : Nat) (s : State) : (s.setCur c).latFix = s.latFix := rfl
@[simp] theorem State.setCur_latHemi (c : Nat) (s : State) : (s.setCur c).latHemi = s.latHemi := rfl
@[simp] theorem State.setCur_lonRaw (c : Nat) (s : State) : (s.setCur c).lonRaw = s.lonRaw := rfl
@[simp] theorem State.setCur_lonFix (c : Nat) (s : State) : (s.setCur c).lonFix = s.lonFix := rfl
@[simp] theorem State.setCur_lonHemi (c : Nat) (s : State) : (s.setCur c).lonHemi = s.lonHemi := rfl
@[simp] theorem State.setCur_rvalid (c : Nat) (s : State) : (s.setCur c).rvalid = s.rvalid := rfl
@[simp] theorem State.setCur_rxbuf (c : Nat) (s : State) : (s.setCur c).rxbuf = s.rxbuf := rfl
@[simp] theorem State.setCur_rxn (c : Nat) (s : State) : (s.setCur c).rxn = s.rxn := rfl
@[simp] theorem State.setCur_rxlen (c : Nat) (s : State) : (s.setCur c).rxlen = s.rxlen := rfl
@[simp] theorem State.setCur_rxck (c : Nat) (s : State) : (s.setCur c).rxck = s.rxck := rfl
@[simp] theorem State.setCur_exp (c : Nat) (s : State) : (s.setCur c).exp = s.exp := rfl
@[simp] theorem State.setCur_explen (c : Nat) (s : State) : (s.setCur c).explen = s.explen := rfl
@[simp] theorem State.setCur_awst (c : Nat) (s : State) : (s.setCur c).awst = s.awst := rfl
@[simp] theorem State.setCur_tmo (c : Nat) (s : State) : (s.setCur c).tmo = s.tmo := rfl
@[simp] theorem State.setCur_seq (c : Nat) (s : State) : (s.setCur c).seq = s.seq := rfl
@[simp] theorem State.setCur_subcnt (c : Nat) (s : State) : (s.setCur c).subcnt = s.subcnt := rfl
@[simp] theorem State.setCur_ubuf (c : Nat) (s : State) : (s.setCur c).ubuf = s.ubuf := rfl
@[simp] theorem State.setCur_uplpend (c : Nat) (s : State) : (s.setCur c).uplpend = s.uplpend := rfl
@[simp] theorem State.setCur_txOut (c : Nat) (s : State) : (s.setCur c).txOut = s.txOut := rfl
@[simp] theorem State.setCur_port (c : Nat) (s : State) : (s.setCur c).port = s.port := rfl
@[simp] theorem State.setCur_responses (c : Nat) (s : State) : (s.setCur c).responses = s.responses := rfl

@[simp] theorem State.setCur_mem (c : Nat) (s : State) (S : Space) : (s.setCur c).mem S = s.mem S := by
  rcases S with (_ | _) | _ | _ | _ <;> rfl

@[simp] theorem State.setCur_byteAt (c : Nat) (s : State) (S : Space) (a : Nat) :
    (s.setCur c).byteAt S a = s.byteAt S a := by
  unfold State.byteAt
  rw [State.setCur_mem]

@[simp] theorem State.setCur_bytesAt (c : Nat) (s : State) (S : Space) (a n : Nat) :
    (s.setCur c).bytesAt S a n = s.bytesAt S a n := by
  unfold State.bytesAt
  rw [State.setCur_mem]

/-! ### `State.claimLine` -/

@[simp] theorem State.claimLine_params (s : State) : (s.claimLine).params = s.params := rfl
@[simp] theorem State.claimLine_buf0 (s : State) : (s.claimLine).buf0 = s.buf0 := rfl
@[simp] theorem State.claimLine_buf1 (s : State) : (s.claimLine).buf1 = s.buf1 := rfl
@[simp] theorem State.claimLine_act (s : State) : (s.claimLine).act = s.act := rfl
@[simp] theorem State.claimLine_cur (s : State) : (s.claimLine).cur = s.cur := rfl
@[simp] theorem State.claimLine_new (s : State) : (s.claimLine).new = false := rfl
@[simp] theorem State.claimLine_fp (s : State) : (s.claimLine).fp = 0#8 := rfl
@[simp] theorem State.claimLine_hour (s : State) : (s.claimLine).hour = s.hour := rfl
@[simp] theorem State.claimLine_minute (s : State) : (s.claimLine).minute = s.minute := rfl
@[simp] theorem State.claimLine_second (s : State) : (s.claimLine).second = s.second := rfl
@[simp] theorem State.claimLine_millis (s : State) : (s.claimLine).millis = s.millis := rfl
@[simp] theorem State.claimLine_day (s : State) : (s.claimLine).day = s.day := rfl
@[simp] theorem State.claimLine_month (s : State) : (s.claimLine).month = s.month := rfl
@[simp] theorem State.claimLine_year (s : State) : (s.claimLine).year = s.year := rfl
@[simp] theorem State.claimLine_latRaw (s : State) : (s.claimLine).latRaw = s.latRaw := rfl
@[simp] theorem State.claimLine_latFix (s : State) : (s.claimLine).latFix = s.latFix := rfl
@[simp] theorem State.claimLine_latHemi (s : State) : (s.claimLine).latHemi = s.latHemi := rfl
@[simp] theorem State.claimLine_lonRaw (s : State) : (s.claimLine).lonRaw = s.lonRaw := rfl
@[simp] theorem State.claimLine_lonFix (s : State) : (s.claimLine).lonFix = s.lonFix := rfl
@[simp] theorem State.claimLine_lonHemi (s : State) : (s.claimLine).lonHemi = s.lonHemi := rfl
@[simp] theorem State.claimLine_rvalid (s : State) : (s.claimLine).rvalid = s.rvalid := rfl
@[simp] theorem State.claimLine_rxbuf (s : State) : (s.claimLine).rxbuf = s.rxbuf := rfl
@[simp] theorem State.claimLine_rxn (s : State) : (s.claimLine).rxn = s.rxn := rfl
@[simp] theorem State.claimLine_rxlen (s : State) : (s.claimLine).rxlen = s.rxlen := rfl
@[simp] theorem State.claimLine_rxck (s : State) : (s.claimLine).rxck = s.rxck := rfl
@[simp] theorem State.claimLine_exp (s : State) : (s.claimLine).exp = s.exp := rfl
@[simp] theorem State.claimLine_explen (s : State) : (s.claimLine).explen = s.explen := rfl
@[simp] theorem State.claimLine_awst (s : State) : (s.claimLine).awst = s.awst := rfl
@[simp] theorem State.claimLine_tmo (s : State) : (s.claimLine).tmo = s.tmo := rfl
@[simp] theorem State.claimLine_seq (s : State) : (s.claimLine).seq = s.seq := rfl
@[simp] theorem State.claimLine_subcnt (s : State) : (s.claimLine).subcnt = s.subcnt := rfl
@[simp] theorem State.claimLine_ubuf (s : State) : (s.claimLine).ubuf = s.ubuf := rfl
@[simp] theorem State.claimLine_uplpend (s : State) : (s.claimLine).uplpend = s.uplpend := rfl
@[simp] theorem State.claimLine_txOut (s : State) : (s.claimLine).txOut = s.txOut := rfl
@[simp] theorem State.claimLine_port (s : State) : (s.claimLine).port = s.port := rfl
@[simp] theorem State.claimLine_responses (s : State) : (s.claimLine).responses = s.responses := rfl

@[simp] theorem State.claimLine_mem (s : State) (S : Space) : (s.claimLine).mem S = s.mem S := by
  rcases S with (_ | _) | _ | _ | _ <;> rfl

@[simp] theorem State.claimLine_byteAt (s : State) (S : Space) (a : Nat) :
    (s.claimLine).byteAt S a = s.byteAt S a := by
  unfold State.byteAt
  rw [State.claimLine_mem]

@[simp] theorem State.claimLine_bytesAt (s : State) (S : Space) (a n : Nat) :
    (s.claimLine).bytesAt S a n = s.bytesAt S a n := by
  unfold State.bytesAt
  rw [State.claimLine_mem]

/-! ### `State.setFp` -/

@[simp] theorem State.setFp_params (p : Nat) (s : State) : (s.setFp p).params = s.params := rfl
@[simp] theorem State.setFp_buf0 (p : Nat) (s : State) : (s.setFp p).buf0 = s.buf0 := rfl
@[simp] theorem State.setFp_buf1 (p : Nat) (s : State) : (s.setFp p).buf1 = s.buf1 := rfl
@[simp] theorem State.setFp_act (p : Nat) (s : State) : (s.setFp p).act = s.act := rfl
@[simp] theorem State.setFp_cur (p : Nat) (s : State) : (s.setFp p).cur = s.cur := rfl
@[simp] theorem State.setFp_new (p : Nat) (s : State) : (s.setFp p).new = s.new := rfl
@[simp] theorem State.setFp_fp (p : Nat) (s : State) : (s.setFp p).fp = BitVec.ofNat 8 p := rfl
@[simp] theorem State.setFp_hour (p : Nat) (s : State) : (s.setFp p).hour = s.hour := rfl
@[simp] theorem State.setFp_minute (p : Nat) (s : State) : (s.setFp p).minute = s.minute := rfl
@[simp] theorem State.setFp_second (p : Nat) (s : State) : (s.setFp p).second = s.second := rfl
@[simp] theorem State.setFp_millis (p : Nat) (s : State) : (s.setFp p).millis = s.millis := rfl
@[simp] theorem State.setFp_day (p : Nat) (s : State) : (s.setFp p).day = s.day := rfl
@[simp] theorem State.setFp_month (p : Nat) (s : State) : (s.setFp p).month = s.month := rfl
@[simp] theorem State.setFp_year (p : Nat) (s : State) : (s.setFp p).year = s.year := rfl
@[simp] theorem State.setFp_latRaw (p : Nat) (s : State) : (s.setFp p).latRaw = s.latRaw := rfl
@[simp] theorem State.setFp_latFix (p : Nat) (s : State) : (s.setFp p).latFix = s.latFix := rfl
@[simp] theorem State.setFp_latHemi (p : Nat) (s : State) : (s.setFp p).latHemi = s.latHemi := rfl
@[simp] theorem State.setFp_lonRaw (p : Nat) (s : State) : (s.setFp p).lonRaw = s.lonRaw := rfl
@[simp] theorem State.setFp_lonFix (p : Nat) (s : State) : (s.setFp p).lonFix = s.lonFix := rfl
@[simp] theorem State.setFp_lonHemi (p : Nat) (s : State) : (s.setFp p).lonHemi = s.lonHemi := rfl
@[simp] theorem State.setFp_rvalid (p : Nat) (s : State) : (s.setFp p).rvalid = s.rvalid := rfl
@[simp] theorem State.setFp_rxbuf (p : Nat) (s : State) : (s.setFp p).rxbuf = s.rxbuf := rfl
@[simp] theorem State.setFp_rxn (p : Nat) (s : State) : (s.setFp p).rxn = s.rxn := rfl
@[simp] theorem State.setFp_rxlen (p : Nat) (s : State) : (s.setFp p).rxlen = s.rxlen := rfl
@[simp] theorem State.setFp_rxck (p : Nat) (s : State) : (s.setFp p).rxck = s.rxck := rfl
@[simp] theorem State.setFp_exp (p : Nat) (s : State) : (s.setFp p).exp = s.exp := rfl
@[simp] theorem State.setFp_explen (p : Nat) (s : State) : (s.setFp p).explen = s.explen := rfl
@[simp] theorem State.setFp_awst (p : Nat) (s : State) : (s.setFp p).awst = s.awst := rfl
@[simp] theorem State.setFp_tmo (p : Nat) (s : State) : (s.setFp p).tmo = s.tmo := rfl
@[simp] theorem State.setFp_seq (p : Nat) (s : State) : (s.setFp p).seq = s.seq := rfl
@[simp] theorem State.setFp_subcnt (p : Nat) (s : State) : (s.setFp p).subcnt = s.subcnt := rfl
@[simp] theorem State.setFp_ubuf (p : Nat) (s : State) : (s.setFp p).ubuf = s.ubuf := rfl
@[simp] theorem State.setFp_uplpend (p : Nat) (s : State) : (s.setFp p).uplpend = s.uplpend := rfl
@[simp] theorem State.setFp_txOut (p : Nat) (s : State) : (s.setFp p).txOut = s.txOut := rfl
@[simp] theorem State.setFp_port (p : Nat) (s : State) : (s.setFp p).port = s.port := rfl
@[simp] theorem State.setFp_responses (p : Nat) (s : State) : (s.setFp p).responses = s.responses := rfl

@[simp] theorem State.setFp_mem (p : Nat) (s : State) (S : Space) : (s.setFp p).mem S = s.mem S := by
  rcases S with (_ | _) | _ | _ | _ <;> rfl

@[simp] theorem State.setFp_byteAt (p : Nat) (s : State) (S : Space) (a : Nat) :
    (s.setFp p).byteAt S a = s.byteAt S a := by
  unfold State.byteAt
  rw [State.setFp_mem]

@[simp] theorem State.setFp_bytesAt (p : Nat) (s : State) (S : Space) (a n : Nat) :
    (s.setFp p).bytesAt S a n = s.bytesAt S a n := by
  unfold State.bytesAt
  rw [State.setFp_mem]

/-! ### `State.rxAdvance` -/

@[simp] theorem State.rxAdvance_params (s : State) : (s.rxAdvance).params = s.params := rfl
@[simp] theorem State.rxAdvance_buf0 (s : State) : (s.rxAdvance).buf0 = s.buf0 := rfl
@[simp] theorem State.rxAdvance_buf1 (s : State) : (s.rxAdvance).buf1 = s.buf1 := rfl
@[simp] theorem State.rxAdvance_act (s : State) : (s.rxAdvance).act = s.act := rfl
@[simp] theorem State.rxAdvance_cur (s : State) : (s.rxAdvance).cur = s.cur := rfl
@[simp] theorem State.rxAdvance_new (s : State) : (s.rxAdvance).new = s.new := rfl
@[simp] theorem State.rxAdvance_fp (s : State) : (s.rxAdvance).fp = s.fp := rfl
@[simp] theorem State.rxAdvance_hour (s : State) : (s.rxAdvance).hour = s.hour := rfl
@[simp] theorem State.rxAdvance_minute (s : State) : (s.rxAdvance).minute = s.minute := rfl
@[simp] theorem State.rxAdvance_second (s : State) : (s.rxAdvance).second = s.second := rfl
@[simp] theorem State.rxAdvance_millis (s : State) : (s.rxAdvance).millis = s.millis := rfl
@[simp] theorem State.rxAdvance_day (s : State) : (s.rxAdvance).day = s.day := rfl
@[simp] theorem State.rxAdvance_month (s : State) : (s.rxAdvance).month = s.month := rfl
@[simp] theorem State.rxAdvance_year (s : State) : (s.rxAdvance).year = s.year := rfl
@[simp] theorem State.rxAdvance_latRaw (s : State) : (s.rxAdvance).latRaw = s.latRaw := rfl
@[simp] theorem State.rxAdvance_latFix (s : State) : (s.rxAdvance).latFix = s.latFix := rfl
@[simp] theorem State.rxAdvance_latHemi (s : State) : (s.rxAdvance).latHemi = s.latHemi := rfl
@[simp] theorem State.rxAdvance_lonRaw (s : State) : (s.rxAdvance).lonRaw = s.lonRaw := rfl
@[simp] theorem State.rxAdvance_lonFix (s : State) : (s.rxAdvance).lonFix = s.lonFix := rfl
@[simp] theorem State.rxAdvance_lonHemi (s : State) : (s.rxAdvance).lonHemi = s.lonHemi := rfl
@[simp] theorem State.rxAdvance_rvalid (s : State) : (s.rxAdvance).rvalid = s.rvalid := rfl
@[simp] theorem State.rxAdvance_rxbuf (s : State) : (s.rxAdvance).rxbuf = s.rxbuf := rfl
@[simp] theorem State.rxAdvance_rxn (s : State) : (s.rxAdvance).rxn = s.rxn + 1#8 := rfl
@[simp] theorem State.rxAdvance_rxlen (s : State) : (s.rxAdvance).rxlen = s.rxlen := rfl
@[simp] theorem State.rxAdvance_rxck (s : State) : (s.rxAdvance).rxck = s.rxck := rfl
@[simp] theorem State.rxAdvance_exp (s : State) : (s.rxAdvance).exp = s.exp := rfl
@[simp] theorem State.rxAdvance_explen (s : State) : (s.rxAdvance).explen = s.explen := rfl
@[simp] theorem State.rxAdvance_awst (s : State) : (s.rxAdvance).awst = s.awst := rfl
@[simp] theorem State.rxAdvance_tmo (s : State) : (s.rxAdvance).tmo = s.tmo := rfl
@[simp] theorem State.rxAdvance_seq (s : State) : (s.rxAdvance).seq = s.seq := rfl
@[simp] theorem State.rxAdvance_subcnt (s : State) : (s.rxAdvance).subcnt = s.subcnt := rfl
@[simp] theorem State.rxAdvance_ubuf (s : State) : (s.rxAdvance).ubuf = s.ubuf := rfl
@[simp] theorem State.rxAdvance_uplpend (s : State) : (s.rxAdvance).uplpend = s.uplpend := rfl
@[simp] theorem State.rxAdvance_txOut (s : State) : (s.rxAdvance).txOut = s.txOut := rfl
@[simp] theorem State.rxAdvance_port (s : State) : (s.rxAdvance).port = s.port := rfl
@[simp] theorem State.rxAdvance_responses (s : State) : (s.rxAdvance).responses = s.responses := rfl

@[simp] theorem State.rxAdvance_mem (s : State) (S : Space) : (s.rxAdvance).mem S = s.mem S := by
  rcases S with (_ | _) | _ | _ | _ <;> rfl

@[simp] theorem State.rxAdvance_byteAt (s : State) (S : Space) (a : Nat) :
    (s.rxAdvance).byteAt S a = s.byteAt S a := by
  unfold State.byteAt
  rw [State.rxAdvance_mem]

@[simp] theorem State.rxAdvance_bytesAt (s : State) (S : Space) (a n : Nat) :
    (s.rxAdvance).bytesAt S a n = s.bytesAt S a n := by
  unfold State.bytesAt
  rw [State.rxAdvance_mem]

/-! ### `State.rxClearSum` -/

@[simp] theorem State.rxClearSum_params (s : State) : (s.rxClearSum).params = s.params := rfl
@[simp] theorem State.rxClearSum_buf0 (s : State) : (s.rxClearSum).buf0 = s.buf0 := rfl
@[simp] theorem State.rxClearSum_buf1 (s : State) : (s.rxClearSum).buf1 = s.buf1 := rfl
@[simp] theorem State.rxClearSum_act (s : State) : (s.rxClearSum).act = s.act := rfl
@[simp] theorem State.rxClearSum_cur (s : State) : (s.rxClearSum).cur = s.cur := rfl
@[simp] theorem State.rxClearSum_new (s : State) : (s.rxClearSum).new = s.new := rfl
@[simp] theorem State.rxClearSum_fp (s : State) : (s.rxClearSum).fp = s.fp := rfl
@[simp] theorem State.rxClearSum_hour (s : State) : (s.rxClearSum).hour = s.hour := rfl
@[simp] theorem State.rxClearSum_minute (s : State) : (s.rxClearSum).minute = s.minute := rfl
@[simp] theorem State.rxClearSum_second (s : State) : (s.rxClearSum).second = s.second := rfl
@[simp] theorem State.rxClearSum_millis (s : State) : (s.rxClearSum).millis = s.millis := rfl
@[simp] theorem State.rxClearSum_day (s : State) : (s.rxClearSum).day = s.day := rfl
@[simp] theorem State.rxClearSum_month (s : State) : (s.rxClearSum).month = s.month := rfl
@[simp] theorem State.rxClearSum_year (s : State) : (s.rxClearSum).year = s.year := rfl
@[simp] theorem State.rxClearSum_latRaw (s : State) : (s.rxClearSum).latRaw = s.latRaw := rfl
@[simp] theorem State.rxClearSum_latFix (s : State) : (s.rxClearSum).latFix = s.latFix := rfl
@[simp] theorem State.rxClearSum_latHemi (s : State) : (s.rxClearSum).latHemi = s.latHemi := rfl
@[simp] theorem State.rxClearSum_lonRaw (s : State) : (s.rxClearSum).lonRaw = s.lonRaw := rfl
@[simp] theorem State.rxClearSum_lonFix (s : State) : (s.rxClearSum).lonFix = s.lonFix := rfl
@[simp] theorem State.rxClearSum_lonHemi (s : State) : (s.rxClearSum).lonHemi = s.lonHemi := rfl
@[simp] theorem State.rxClearSum_rvalid (s : State) : (s.rxClearSum).rvalid = s.rvalid := rfl
@[simp] theorem State.rxClearSum_rxbuf (s : State) : (s.rxClearSum).rxbuf = s.rxbuf := rfl
@[simp] theorem State.rxClearSum_rxn (s : State) : (s.rxClearSum).rxn = s.rxn := rfl
@[simp] theorem State.rxClearSum_rxlen (s : State) : (s.rxClearSum).rxlen = s.rxlen := rfl
@[simp] theorem State.rxClearSum_rxck (s : State) : (s.rxClearSum).rxck = 0#8 := rfl
@[simp] theorem State.rxClearSum_exp (s : State) : (s.rxClearSum).exp = s.exp := rfl
@[simp] theorem State.rxClearSum_explen (s : State) : (s.rxClearSum).explen = s.explen := rfl
@[simp] theorem State.rxClearSum_awst (s : State) : (s.rxClearSum).awst = s.awst := rfl
@[simp] theorem State.rxClearSum_tmo (s : State) : (s.rxClearSum).tmo = s.tmo := rfl
@[simp] theorem State.rxClearSum_seq (s : State) : (s.rxClearSum).seq = s.seq := rfl
@[simp] theorem State.rxClearSum_subcnt (s : State) : (s.rxClearSum).subcnt = s.subcnt := rfl
@[simp] theorem State.rxClearSum_ubuf (s : State) : (s.rxClearSum).ubuf = s.ubuf := rfl
@[simp] theorem State.rxClearSum_uplpend (s : State) : (s.rxClearSum).uplpend = s.uplpend := rfl
@[simp] theorem State.rxClearSum_txOut (s : State) : (s.rxClearSum).txOut = s.txOut := rfl
@[simp] theorem State.rxClearSum_port (s : State) : (s.rxClearSum).port = s.port := rfl
@[simp] theorem State.rxClearSum_responses (s : State) : (s.rxClearSum).responses = s.responses := rfl

@[simp] theorem State.rxClearSum_mem (s : State) (S : Space) : (s.rxClearSum).mem S = s.mem S := by
  rcases S with (_ | _) | _ | _ | _ <;> rfl

@[simp] theorem State.rxClearSum_byteAt (s : State) (S : Space) (a : Nat) :
    (s.rxClearSum).byteAt S a = s.byteAt S a := by
  unfold State.byteAt
  rw [State.rxClearSum_mem]

@[simp] theorem State.rxClearSum_bytesAt (s : State) (S : Space) (a n : Nat) :
    (s.rxClearSum).bytesAt S a n = s.bytesAt S a n := by
  unfold State.bytesAt
  rw [State.rxClearSum_mem]

/-! ### `State.rxAnnounce` -/

@[simp] theorem State.rxAnnounce_params (len : Nat) (s : State) : (s.rxAnnounce len).params = s.params := rfl
@[simp] theorem State.rxAnnounce_buf0 (len : Nat) (s : State) : (s.rxAnnounce len).buf0 = s.buf0 := rfl
@[simp] theorem State.rxAnnounce_buf1 (len : Nat) (s : State) : (s.rxAnnounce len).buf1 = s.buf1 := rfl
@[simp] theorem State.rxAnnounce_act (len : Nat) (s : State) : (s.rxAnnounce len).act = s.act := rfl
@[simp] theorem State.rxAnnounce_cur (len : Nat) (s : State) : (s.rxAnnounce len).cur = s.cur := rfl
@[simp] theorem State.rxAnnounce_new (len : Nat) (s : State) : (s.rxAnnounce len).new = s.new := rfl
@[simp] theorem State.rxAnnounce_fp (len : Nat) (s : State) : (s.rxAnnounce len).fp = s.fp := rfl
@[simp] theorem State.rxAnnounce_hour (len : Nat) (s : State) : (s.rxAnnounce len).hour = s.hour := rfl
@[simp] theorem State.rxAnnounce_minute (len : Nat) (s : State) : (s.rxAnnounce len).minute = s.minute := rfl
@[simp] theorem State.rxAnnounce_second (len : Nat) (s : State) : (s.rxAnnounce len).second = s.second := rfl
@[simp] theorem State.rxAnnounce_millis (len : Nat) (s : State) : (s.rxAnnounce len).millis = s.millis := rfl
@[simp] theorem State.rxAnnounce_day (len : Nat) (s : State) : (s.rxAnnounce len).day = s.day := rfl
@[simp] theorem State.rxAnnounce_month (len : Nat) (s : State) : (s.rxAnnounce len).month = s.month := rfl
@[simp] theorem State.rxAnnounce_year (len : Nat) (s : State) : (s.rxAnnounce len).year = s.year := rfl
@[simp] theorem State.rxAnnounce_latRaw (len : Nat) (s : State) : (s.rxAnnounce len).latRaw = s.latRaw := rfl
@[simp] theorem State.rxAnnounce_latFix (len : Nat) (s : State) : (s.rxAnnounce len).latFix = s.latFix := rfl
@[simp] theorem State.rxAnnounce_latHemi (len : Nat) (s : State) : (s.rxAnnounce len).latHemi = s.latHemi := rfl
@[simp] theorem State.rxAnnounce_lonRaw (len : Nat) (s : State) : (s.rxAnnounce len).lonRaw = s.lonRaw := rfl
@[simp] theorem State.rxAnnounce_lonFix (len : Nat) (s : State) : (s.rxAnnounce len).lonFix = s.lonFix := rfl
@[simp] theorem State.rxAnnounce_lonHemi (len : Nat) (s : State) : (s.rxAnnounce len).lonHemi = s.lonHemi := rfl
@[simp] theorem State.rxAnnounce_rvalid (len : Nat) (s : State) : (s.rxAnnounce len).rvalid = s.rvalid := rfl
@[simp] theorem State.rxAnnounce_rxbuf (len : Nat) (s : State) : (s.rxAnnounce len).rxbuf = s.rxbuf := rfl
@[simp] theorem State.rxAnnounce_rxn (len : Nat) (s : State) : (s.rxAnnounce len).rxn = s.rxn := rfl
@[simp] theorem State.rxAnnounce_rxlen (len : Nat) (s : State) : (s.rxAnnounce len).rxlen = BitVec.ofNat 8 len := rfl
@[simp] theorem State.rxAnnounce_rxck (len : Nat) (s : State) : (s.rxAnnounce len).rxck = s.rxck := rfl
@[simp] theorem State.rxAnnounce_exp (len : Nat) (s : State) : (s.rxAnnounce len).exp = s.exp := rfl
@[simp] theorem State.rxAnnounce_explen (len : Nat) (s : State) : (s.rxAnnounce len).explen = s.explen := rfl
@[simp] theorem State.rxAnnounce_awst (len : Nat) (s : State) : (s.rxAnnounce len).awst = s.awst := rfl
@[simp] theorem State.rxAnnounce_tmo (len : Nat) (s : State) : (s.rxAnnounce len).tmo = s.tmo := rfl
@[simp] theorem State.rxAnnounce_seq (len : Nat) (s : State) : (s.rxAnnounce len).seq = s.seq := rfl
@[simp] theorem State.rxAnnounce_subcnt (len : Nat) (s : State) : (s.rxAnnounce len).subcnt = s.subcnt := rfl
@[simp] theorem State.rxAnnounce_ubuf (len : Nat) (s : State) : (s.rxAnnounce len).ubuf = s.ubuf := rfl
@[simp] theorem State.rxAnnounce_uplpend (len : Nat) (s : State) : (s.rxAnnounce len).uplpend = s.uplpend := rfl
@[simp] theorem State.rxAnnounce_txOut (len : Nat) (s : State) : (s.rxAnnounce len).txOut = s.txOut := rfl
@[simp] theorem State.rxAnnounce_port (len : Nat) (s : State) : (s.rxAnnounce len).port = s.port := rfl
@[simp] theorem State.rxAnnounce_responses (len : Nat) (s : State) : (s.rxAnnounce len).responses = s.responses := rfl

@[simp] theorem State.rxAnnounce_mem (len : Nat) (s : State) (S : Space) : (s.rxAnnounce len).mem S = s.mem S := by
  rcases S with (_ | _) | _ | _ | _ <;> rfl

@[simp] theorem State.rxAnnounce_byteAt (len : Nat) (s : State) (S : Space) (a : Nat) :
    (s.rxAnnounce len).byteAt S a = s.byteAt S a := by
  unfold State.byteAt
  rw [State.rxAnnounce_mem]

@[simp] theorem State.rxAnnounce_bytesAt (len : Nat) (s : State) (S : Space) (a n : Nat) :
    (s.rxAnnounce len).bytesAt S a n = s.bytesAt S a n := by
  unfold State.bytesAt
  rw [State.rxAnnounce_mem]

/-! ### `State.endMatched` -/

@[simp] theorem State.endMatched_params (s : State) : (s.endMatched).params = s.params := rfl
@[simp] theorem State.endMatched_buf0 (s : State) : (s.endMatched).buf0 = s.buf0 := rfl
@[simp] theorem State.endMatched_buf1 (s : State) : (s.endMatched).buf1 = s.buf1 := rfl
@[simp] theorem State.endMatched_act (s : State) : (s.endMatched).act = s.act := rfl
@[simp] theorem State.endMatched_cur (s : State) : (s.endMatched).cur = s.cur := rfl
@[simp] theorem State.endMatched_new (s : State) : (s.endMatched).new = s.new := rfl
@[simp] theorem State.endMatched_fp (s : State) : (s.endMatched).fp = s.fp := rfl
@[simp] theorem State.endMatched_hour (s : State) : (s.endMatched).hour = s.hour := rfl
@[simp] theorem State.endMatched_minute (s : State) : (s.endMatched).minute = s.minute := rfl
@[simp] theorem State.endMatched_second (s : State) : (s.endMatched).second = s.second := rfl
@[simp] theorem State.endMatched_millis (s : State) : (s.endMatched).millis = s.millis := rfl
@[simp] theorem State.endMatched_day (s : State) : (s.endMatched).day = s.day := rfl
@[simp] theorem State.endMatched_month (s : State) : (s.endMatched).month = s.month := rfl
@[simp] theorem State.endMatched_year (s : State) : (s.endMatched).year = s.year := rfl
@[simp] theorem State.endMatched_latRaw (s : State) : (s.endMatched).latRaw = s.latRaw := rfl
@[simp] theorem State.endMatched_latFix (s : State) : (s.endMatched).latFix = s.latFix := rfl
@[simp] theorem State.endMatched_latHemi (s : State) : (s.endMatched).latHemi = s.latHemi := rfl
@[simp] theorem State.endMatched_lonRaw (s : State) : (s.endMatched).lonRaw = s.lonRaw := rfl
@[simp] theorem State.endMatched_lonFix (s : State) : (s.endMatched).lonFix = s.lonFix := rfl
@[simp] theorem State.endMatched_lonHemi (s : State) : (s.endMatched).lonHemi = s.lonHemi := rfl
@[simp] theorem State.endMatched_rvalid (s : State) : (s.endMatched).rvalid = s.rvalid := rfl
@[simp] theorem State.endMatched_rxbuf (s : State) : (s.endMatched).rxbuf = s.rxbuf := rfl
@[simp] theorem State.endMatched_rxn (s : State) : (s.endMatched).rxn = s.rxn := rfl
@[simp] theorem State.endMatched_rxlen (s : State) : (s.endMatched).rxlen = s.rxlen := rfl
@[simp] theorem State.endMatched_rxck (s : State) : (s.endMatched).rxck = s.rxck := rfl
@[simp] theorem State.endMatched_exp (s : State) : (s.endMatched).exp = s.exp := rfl
@[simp] theorem State.endMatched_explen (s : State) : (s.endMatched).explen = s.explen := rfl
@[simp] theorem State.endMatched_awst (s : State) : (s.endMatched).awst = .matched := rfl
@[simp] theorem State.endMatched_tmo (s : State) : (s.endMatched).tmo = s.tmo := rfl
@[simp] theorem State.endMatched_seq (s : State) : (s.endMatched).seq = s.seq := rfl
@[simp] theorem State.endMatched_subcnt (s : State) : (s.endMatched).subcnt = s.subcnt := rfl
@[simp] theorem State.endMatched_ubuf (s : State) : (s.endMatched).ubuf = s.ubuf := rfl
@[simp] theorem State.endMatched_uplpend (s : State) : (s.endMatched).uplpend = s.uplpend := rfl
@[simp] theorem State.endMatched_txOut (s : State) : (s.endMatched).txOut = s.txOut := rfl
@[simp] theorem State.endMatched_port (s : State) : (s.endMatched).port = s.port := rfl
@[simp] theorem State.endMatched_responses (s : State) : (s.endMatched).responses = s.responses := rfl

@[simp] theorem State.endMatched_mem (s : State) (S : Space) : (s.endMatched).mem S = s.mem S := by
  rcases S with (_ | _) | _ | _ | _ <;> rfl

@[simp] theorem State.endMatched_byteAt (s : State) (S : Space) (a : Nat) :
    (s.endMatched).byteAt S a = s.byteAt S a := by
  unfold State.byteAt
  rw [State.endMatched_mem]

@[simp] theorem State.endMatched_bytesAt (s : State) (S : Space) (a n : Nat) :
    (s.endMatched).bytesAt S a n = s.bytesAt S a n := by
  unfold State.bytesAt
  rw [State.endMatched_mem]

/-! ### `State.advanceSeq` -/

@[simp] theorem State.advanceSeq_params (s : State) : (s.advanceSeq).params = s.params := rfl
@[simp] theorem State.advanceSeq_buf0 (s : State) : (s.advanceSeq).buf0 = s.buf0 := rfl
@[simp] theorem State.advanceSeq_buf1 (s : State) : (s.advanceSeq).buf1 = s.buf1 := rfl
@[simp] theorem State.advanceSeq_act (s : State) : (s.advanceSeq).act = s.act := rfl
@[simp] theorem State.advanceSeq_cur (s : State) : (s.advanceSeq).cur = s.cur := rfl
@[simp] theorem State.advanceSeq_new (s : State) : (s.advanceSeq).new = s.new := rfl
@[simp] theorem State.advanceSeq_fp (s : State) : (s.advanceSeq).fp = s.fp := rfl
@[simp] theorem State.advanceSeq_hour (s : State) : (s.advanceSeq).hour = s.hour := rfl
@[simp] theorem State.advanceSeq_minute (s : State) : (s.advanceSeq).minute = s.minute := rfl
@[simp] theorem State.advanceSeq_second (s : State) : (s.advanceSeq).second = s.second := rfl
@[simp] theorem State.advanceSeq_millis (s : State) : (s.advanceSeq).millis = s.millis := rfl
@[simp] theorem State.advanceSeq_day (s : State) : (s.advanceSeq).day = s.day := rfl
@[simp] theorem State.advanceSeq_month (s : State) : (s.advanceSeq).month = s.month := rfl
@[simp] theorem State.advanceSeq_year (s : State) : (s.advanceSeq).year = s.year := rfl
@[simp] theorem State.advanceSeq_latRaw (s : State) : (s.advanceSeq).latRaw = s.latRaw := rfl
@[simp] theorem State.advanceSeq_latFix (s : State) : (s.advanceSeq).latFix = s.latFix := rfl
@[simp] theorem State.advanceSeq_latHemi (s : State) : (s.advanceSeq).latHemi = s.latHemi := rfl
@[simp] theorem State.advanceSeq_lonRaw (s : State) : (s.advanceSeq).lonRaw = s.lonRaw := rfl
@[simp] theorem State.advanceSeq_lonFix (s : State) : (s.advanceSeq).lonFix = s.lonFix := rfl
@[simp] theorem State.advanceSeq_lonHemi (s : State) : (s.advanceSeq).lonHemi = s.lonHemi := rfl
@[simp] theorem State.advanceSeq_rvalid (s : State) : (s.advanceSeq).rvalid = s.rvalid := rfl
@[simp] theorem State.advanceSeq_rxbuf (s : State) : (s.advanceSeq).rxbuf = s.rxbuf := rfl
@[simp] theorem State.advanceSeq_rxn (s : State) : (s.advanceSeq).rxn = s.rxn := rfl
@[simp] theorem State.advanceSeq_rxlen (s : State) : (s.advanceSeq).rxlen = s.rxlen := rfl
@[simp] theorem State.advanceSeq_rxck (s : State) : (s.advanceSeq).rxck = s.rxck := rfl
@[simp] theorem State.advanceSeq_exp (s : State) : (s.advanceSeq).exp = s.exp := rfl
@[simp] theorem State.advanceSeq_explen (s : State) : (s.advanceSeq).explen = s.explen := rfl
@[simp] theorem State.advanceSeq_awst (s : State) : (s.advanceSeq).awst = s.awst := rfl
@[simp] theorem State.advanceSeq_tmo (s : State) : (s.advanceSeq).tmo = s.tmo := rfl
@[simp] theorem State.advanceSeq_seq (s : State) : (s.advanceSeq).seq = s.seq + 1#16 := rfl
@[simp] theorem State.advanceSeq_subcnt (s : State) : (s.advanceSeq).subcnt = s.subcnt := rfl
@[simp] theorem State.advanceSeq_ubuf (s : State) : (s.advanceSeq).ubuf = s.ubuf := rfl
@[simp] theorem State.advanceSeq_uplpend (s : State) : (s.advanceSeq).uplpend = s.uplpend := rfl
@[simp] theorem State.advanceSeq_txOut (s : State) : (s.advanceSeq).txOut = s.txOut := rfl
@[simp] theorem State.advanceSeq_port (s : State) : (s.advanceSeq).port = s.port := rfl
@[simp] theorem State.advanceSeq_responses (s : State) : (s.advanceSeq).responses = s.responses := rfl

@[simp] theorem State.advanceSeq_mem (s : State) (S : Space) : (s.advanceSeq).mem S = s.mem S := by
  rcases S with (_ | _) | _ | _ | _ <;> rfl

@[simp] theorem State.advanceSeq_byteAt (s : State) (S : Space) (a : Nat) :
    (s.advanceSeq).byteAt S a = s.byteAt S a := by
  unfold State.byteAt
  rw [State.advanceSeq_mem]

@[simp] theorem State.advanceSeq_bytesAt (s : State) (S : Space) (a n : Nat) :
    (s.advanceSeq).bytesAt S a n = s.bytesAt S a n := by
  unfold State.bytesAt
  rw [State.advanceSeq_mem]

/-! ### `State.tickDown` -/

@[simp] theorem State.tickDown_params (s : State) : (s.tickDown).params = s.params := rfl
@[simp] theorem State.tickDown_buf0 (s : State) : (s.tickDown).buf0 = s.buf0 := rfl
@[simp] theorem State.tickDown_buf1 (s : State) : (s.tickDown).buf1 = s.buf1 := rfl
@[simp] theorem State.tickDown_act (s : State) : (s.tickDown).act = s.act := rfl
@[simp] theorem State.tickDown_cur (s : State) : (s.tickDown).cur = s.cur := rfl
@[simp] theorem State.tickDown_new (s : State) : (s.tickDown).new = s.new := rfl
@[simp] theorem State.tickDown_fp (s : State) : (s.tickDown).fp = s.fp := rfl
@[simp] theorem State.tickDown_hour (s : State) : (s.tickDown).hour = s.hour := rfl
@[simp] theorem State.tickDown_minute (s : State) : (s.tickDown).minute = s.minute := rfl
@[simp] theorem State.tickDown_second (s : State) : (s.tickDown).second = s.second := rfl
@[simp] theorem State.tickDown_millis (s : State) : (s.tickDown).millis = s.millis := rfl
@[simp] theorem State.tickDown_day (s : State) : (s.tickDown).day = s.day := rfl
@[simp] theorem State.tickDown_month (s : State) : (s.tickDown).month = s.month := rfl
@[simp] theorem State.tickDown_year (s : State) : (s.tickDown).year = s.year := rfl
@[simp] theorem State.tickDown_latRaw (s : State) : (s.tickDown).latRaw = s.latRaw := rfl
@[simp] theorem State.tickDown_latFix (s : State) : (s.tickDown).latFix = s.latFix := rfl
@[simp] theorem State.tickDown_latHemi (s : State) : (s.tickDown).latHemi = s.latHemi := rfl
@[simp] theorem State.tickDown_lonRaw (s : State) : (s.tickDown).lonRaw = s.lonRaw := rfl
@[simp] theorem State.tickDown_lonFix (s : State) : (s.tickDown).lonFix = s.lonFix := rfl
@[simp] theorem State.tickDown_lonHemi (s : State) : (s.tickDown).lonHemi = s.lonHemi := rfl
@[simp] theorem State.tickDown_rvalid (s : State) : (s.tickDown).rvalid = s.rvalid := rfl
@[simp] theorem State.tickDown_rxbuf (s : State) : (s.tickDown).rxbuf = s.rxbuf := rfl
@[simp] theorem State.tickDown_rxn (s : State) : (s.tickDown).rxn = s.rxn := rfl
@[simp] theorem State.tickDown_rxlen (s : State) : (s.tickDown).rxlen = s.rxlen := rfl
@[simp] theorem State.tickDown_rxck (s : State) : (s.tickDown).rxck = s.rxck := rfl
@[simp] theorem State.tickDown_exp (s : State) : (s.tickDown).exp = s.exp := rfl
@[simp] theorem State.tickDown_explen (s : State) : (s.tickDown).explen = s.explen := rfl
@[simp] theorem State.tickDown_awst (s : State) : (s.tickDown).awst = s.awst := rfl
@[simp] theorem State.tickDown_tmo (s : State) : (s.tickDown).tmo = s.tmo - 1#16 := rfl
@[simp] theorem State.tickDown_seq (s : State) : (s.tickDown).seq = s.seq := rfl
@[simp] theorem State.tickDown_subcnt (s : State) : (s.tickDown).subcnt = s.subcnt := rfl
@[simp] theorem State.tickDown_ubuf (s : State) : (s.tickDown).ubuf = s.ubuf := rfl
@[simp] theorem State.tickDown_uplpend (s : State) : (s.tickDown).uplpend = s.uplpend := rfl
@[simp] theorem State.tickDown_txOut (s : State) : (s.tickDown).txOut = s.txOut := rfl
@[simp] theorem State.tickDown_port (s : State) : (s.tickDown).port = s.port := rfl
@[simp] theorem State.tickDown_responses (s : State) : (s.tickDown).responses = s.responses := rfl

@[simp] theorem State.tickDown_mem (s : State) (S : Space) : (s.tickDown).mem S = s.mem S := by
  rcases S with (_ | _) | _ | _ | _ <;> rfl

@[simp] theorem State.tickDown_byteAt (s : State) (S : Space) (a : Nat) :
    (s.tickDown).byteAt S a = s.byteAt S a := by
  unfold State.byteAt
  rw [State.tickDown_mem]

@[simp] theorem State.tickDown_bytesAt (s : State) (S : Space) (a n : Nat) :
    (s.tickDown).bytesAt S a n = s.bytesAt S a n := by
  unfold State.bytesAt
  rw [State.tickDown_mem]

/-! ### `State.endTimedOut` -/

@[simp] theorem State.endTimedOut_params (s : State) : (s.endTimedOut).params = s.params := rfl
@[simp] theorem State.endTimedOut_buf0 (s : State) : (s.endTimedOut).buf0 = s.buf0 := rfl
@[simp] theorem State.endTimedOut_buf1 (s : State) : (s.endTimedOut).buf1 = s.buf1 := rfl
@[simp] theorem State.endTimedOut_act (s : State) : (s.endTimedOut).act = s.act := rfl
@[simp] theorem State.endTimedOut_cur (s : State) : (s.endTimedOut).cur = s.cur := rfl
@[simp] theorem State.endTimedOut_new (s : State) : (s.endTimedOut).new = s.new := rfl
@[simp] theorem State.endTimedOut_fp (s : State) : (s.endTimedOut).fp = s.fp := rfl
@[simp] theorem State.endTimedOut_hour (s : State) : (s.endTimedOut).hour = s.hour := rfl
@[simp] theorem State.endTimedOut_minute (s : State) : (s.endTimedOut).minute = s.minute := rfl
@[simp] theorem State.endTimedOut_second (s : State) : (s.endTimedOut).second = s.second := rfl
@[simp] theorem State.endTimedOut_millis (s : State) : (s.endTimedOut).millis = s.millis := rfl
@[simp] theorem State.endTimedOut_day (s : State) : (s.endTimedOut).day = s.day := rfl
@[simp] theorem State.endTimedOut_month (s : State) : (s.endTimedOut).month = s.month := rfl
@[simp] theorem State.endTimedOut_year (s : State) : (s.endTimedOut).year = s.year := rfl
@[simp] theorem State.endTimedOut_latRaw (s : State) : (s.endTimedOut).latRaw = s.latRaw := rfl
@[simp] theorem State.endTimedOut_latFix (s : State) : (s.endTimedOut).latFix = s.latFix := rfl
@[simp] theorem State.endTimedOut_latHemi (s : State) : (s.endTimedOut).latHemi = s.latHemi := rfl
@[simp] theorem State.endTimedOut_lonRaw (s : State) : (s.endTimedOut).lonRaw = s.lonRaw := rfl
@[simp] theorem State.endTimedOut_lonFix (s : State) : (s.endTimedOut).lonFix = s.lonFix := rfl
@[simp] theorem State.endTimedOut_lonHemi (s : State) : (s.endTimedOut).lonHemi = s.lonHemi := rfl
@[simp] theorem State.endTimedOut_rvalid (s : State) : (s.endTimedOut).rvalid = s.rvalid := rfl
@[simp] theorem State.endTimedOut_rxbuf (s : State) : (s.endTimedOut).rxbuf = s.rxbuf := rfl
@[simp] theorem State.endTimedOut_rxn (s : State) : (s.endTimedOut).rxn = 0#8 := rfl
@[simp] theorem State.endTimedOut_rxlen (s : State) : (s.endTimedOut).rxlen = s.rxlen := rfl
@[simp] theorem State.endTimedOut_rxck (s : State) : (s.endTimedOut).rxck = s.rxck := rfl
@[simp] theorem State.endTimedOut_exp (s : State) : (s.endTimedOut).exp = s.exp := rfl
@[simp] theorem State.endTimedOut_explen (s : State) : (s.endTimedOut).explen = s.explen := rfl
@[simp] theorem State.endTimedOut_awst (s : State) : (s.endTimedOut).awst = .timedOut := rfl
@[simp] theorem State.endTimedOut_tmo (s : State) : (s.endTimedOut).tmo = 0#16 := rfl
@[simp] theorem State.endTimedOut_seq (s : State) : (s.endTimedOut).seq = s.seq := rfl
@[simp] theorem State.endTimedOut_subcnt (s : State) : (s.endTimedOut).subcnt = s.subcnt := rfl
@[simp] theorem State.endTimedOut_ubuf (s : State) : (s.endTimedOut).ubuf = s.ubuf := rfl
@[simp] theorem State.endTimedOut_uplpend (s : State) : (s.endTimedOut).uplpend = s.uplpend := rfl
@[simp] theorem State.endTimedOut_txOut (s : State) : (s.endTimedOut).txOut = s.txOut := rfl
@[simp] theorem State.endTimedOut_port (s : State) : (s.endTimedOut).port = s.port := rfl
@[simp] theorem State.endTimedOut_responses (s : State) : (s.endTimedOut).responses = s.responses := rfl

@[simp] theorem State.endTimedOut_mem (s : State) (S : Space) : (s.endTimedOut).mem S = s.mem S := by
  rcases S with (_ | _) | _ | _ | _ <;> rfl

@[simp] theorem State.endTimedOut_byteAt (s : State) (S : Space) (a : Nat) :
    (s.endTimedOut).byteAt S a = s.byteAt S a := by
  unfold State.byteAt
  rw [State.endTimedOut_mem]

@[simp] theorem State.endTimedOut_bytesAt (s : State) (S : Space) (a n : Nat) :
    (s.endTimedOut).bytesAt S a n = s.bytesAt S a n := by
  unfold State.bytesAt
  rw [State.endTimedOut_mem]

/-! ### `State.restartUpload` -/

@[simp] theorem State.restartUpload_params (s : State) : (s.restartUpload).params = s.params := rfl
@[simp] theorem State.restartUpload_buf0 (s : State) : (s.restartUpload).buf0 = s.buf0 := rfl
@[simp] theorem State.restartUpload_buf1 (s : State) : (s.restartUpload).buf1 = s.buf1 := rfl
@[simp] theorem State.restartUpload_act (s : State) : (s.restartUpload).act = s.act := rfl
@[simp] theorem State.restartUpload_cur (s : State) : (s.restartUpload).cur = s.cur := rfl
@[simp] theorem State.restartUpload_new (s : State) : (s.restartUpload).new = s.new := rfl
@[simp] theorem State.restartUpload_fp (s : State) : (s.restartUpload).fp = s.fp := rfl
@[simp] theorem State.restartUpload_hour (s : State) : (s.restartUpload).hour = s.hour := rfl
@[simp] theorem State.restartUpload_minute (s : State) : (s.restartUpload).minute = s.minute := rfl
@[simp] theorem State.restartUpload_second (s : State) : (s.restartUpload).second = s.second := rfl
@[simp] theorem State.restartUpload_millis (s : State) : (s.restartUpload).millis = s.millis := rfl
@[simp] theorem State.restartUpload_day (s : State) : (s.restartUpload).day = s.day := rfl
@[simp] theorem State.restartUpload_month (s : State) : (s.restartUpload).month = s.month := rfl
@[simp] theorem State.restartUpload_year (s : State) : (s.restartUpload).year = s.year := rfl
@[simp] theorem State.restartUpload_latRaw (s : State) : (s.restartUpload).latRaw = s.latRaw := rfl
@[simp] theorem State.restartUpload_latFix (s : State) : (s.restartUpload).latFix = s.latFix := rfl
@[simp] theorem State.restartUpload_latHemi (s : State) : (s.restartUpload).latHemi = s.latHemi := rfl
@[simp] theorem State.restartUpload_lonRaw (s : State) : (s.restartUpload).lonRaw = s.lonRaw := rfl
@[simp] theorem State.restartUpload_lonFix (s : State) : (s.restartUpload).lonFix = s.lonFix := rfl
@[simp] theorem State.restartUpload_lonHemi (s : State) : (s.restartUpload).lonHemi = s.lonHemi := rfl
@[simp] theorem State.restartUpload_rvalid (s : State) : (s.restartUpload).rvalid = s.rvalid := rfl
@[simp] theorem State.restartUpload_rxbuf (s : State) : (s.restartUpload).rxbuf = s.rxbuf := rfl
@[simp] theorem State.restartUpload_rxn (s : State) : (s.restartUpload).rxn = s.rxn := rfl
@[simp] theorem State.restartUpload_rxlen (s : State) : (s.restartUpload).rxlen = s.rxlen := rfl
@[simp] theorem State.restartUpload_rxck (s : State) : (s.restartUpload).rxck = s.rxck := rfl
@[simp] theorem State.restartUpload_exp (s : State) : (s.restartUpload).exp = s.exp := rfl
@[simp] theorem State.restartUpload_explen (s : State) : (s.restartUpload).explen = s.explen := rfl
@[simp] theorem State.restartUpload_awst (s : State) : (s.restartUpload).awst = .none := rfl
@[simp] theorem State.restartUpload_tmo (s : State) : (s.restartUpload).tmo = s.tmo := rfl
@[simp] theorem State.restartUpload_seq (s : State) : (s.restartUpload).seq = 0#16 := rfl
@[simp] theorem State.restartUpload_subcnt (s : State) : (s.restartUpload).subcnt = 0 := rfl
@[simp] theorem State.restartUpload_ubuf (s : State) : (s.restartUpload).ubuf = [] := rfl
@[simp] theorem State.restartUpload_uplpend (s : State) : (s.restartUpload).uplpend = .none := rfl
@[simp] theorem State.restartUpload_txOut (s : State) : (s.restartUpload).txOut = s.txOut := rfl
@[simp] theorem State.restartUpload_port (s : State) : (s.restartUpload).port = s.port := rfl
@[simp] theorem State.restartUpload_responses (s : State) : (s.restartUpload).responses = s.responses := rfl

/-! ### `State.setSubcnt` -/

@[simp] theorem State.setSubcnt_params (k : Fin 3) (s : State) : (s.setSubcnt k).params = s.params := rfl
@[simp] theorem State.setSubcnt_buf0 (k : Fin 3) (s : State) : (s.setSubcnt k).buf0 = s.buf0 := rfl
@[simp] theorem State.setSubcnt_buf1 (k : Fin 3) (s : State) : (s.setSubcnt k).buf1 = s.buf1 := rfl
@[simp] theorem State.setSubcnt_act (k : Fin 3) (s : State) : (s.setSubcnt k).act = s.act := rfl
@[simp] theorem State.setSubcnt_cur (k : Fin 3) (s : State) : (s.setSubcnt k).cur = s.cur := rfl
@[simp] theorem State.setSubcnt_new (k : Fin 3) (s : State) : (s.setSubcnt k).new = s.new := rfl
@[simp] theorem State.setSubcnt_fp (k : Fin 3) (s : State) : (s.setSubcnt k).fp = s.fp := rfl
@[simp] theorem State.setSubcnt_hour (k : Fin 3) (s : State) : (s.setSubcnt k).hour = s.hour := rfl
@[simp] theorem State.setSubcnt_minute (k : Fin 3) (s : State) : (s.setSubcnt k).minute = s.minute := rfl
@[simp] theorem State.setSubcnt_second (k : Fin 3) (s : State) : (s.setSubcnt k).second = s.second := rfl
@[simp] theorem State.setSubcnt_millis (k : Fin 3) (s : State) : (s.setSubcnt k).millis = s.millis := rfl
@[simp] theorem State.setSubcnt_day (k : Fin 3) (s : State) : (s.setSubcnt k).day = s.day := rfl
@[simp] theorem State.setSubcnt_month (k : Fin 3) (s : State) : (s.setSubcnt k).month = s.month := rfl
@[simp] theorem State.setSubcnt_year (k : Fin 3) (s : State) : (s.setSubcnt k).year = s.year := rfl
@[simp] theorem State.setSubcnt_latRaw (k : Fin 3) (s : State) : (s.setSubcnt k).latRaw = s.latRaw := rfl
@[simp] theorem State.setSubcnt_latFix (k : Fin 3) (s : State) : (s.setSubcnt k).latFix = s.latFix := rfl
@[simp] theorem State.setSubcnt_latHemi (k : Fin 3) (s : State) : (s.setSubcnt k).latHemi = s.latHemi := rfl
@[simp] theorem State.setSubcnt_lonRaw (k : Fin 3) (s : State) : (s.setSubcnt k).lonRaw = s.lonRaw := rfl
@[simp] theorem State.setSubcnt_lonFix (k : Fin 3) (s : State) : (s.setSubcnt k).lonFix = s.lonFix := rfl
@[simp] theorem State.setSubcnt_lonHemi (k : Fin 3) (s : State) : (s.setSubcnt k).lonHemi = s.lonHemi := rfl
@[simp] theorem State.setSubcnt_rvalid (k : Fin 3) (s : State) : (s.setSubcnt k).rvalid = s.rvalid := rfl
@[simp] theorem State.setSubcnt_rxbuf (k : Fin 3) (s : State) : (s.setSubcnt k).rxbuf = s.rxbuf := rfl
@[simp] theorem State.setSubcnt_rxn (k : Fin 3) (s : State) : (s.setSubcnt k).rxn = s.rxn := rfl
@[simp] theorem State.setSubcnt_rxlen (k : Fin 3) (s : State) : (s.setSubcnt k).rxlen = s.rxlen := rfl
@[simp] theorem State.setSubcnt_rxck (k : Fin 3) (s : State) : (s.setSubcnt k).rxck = s.rxck := rfl
@[simp] theorem State.setSubcnt_exp (k : Fin 3) (s : State) : (s.setSubcnt k).exp = s.exp := rfl
@[simp] theorem State.setSubcnt_explen (k : Fin 3) (s : State) : (s.setSubcnt k).explen = s.explen := rfl
@[simp] theorem State.setSubcnt_awst (k : Fin 3) (s : State) : (s.setSubcnt k).awst = s.awst := rfl
@[simp] theorem State.setSubcnt_tmo (k : Fin 3) (s : State) : (s.setSubcnt k).tmo = s.tmo := rfl
@[simp] theorem State.setSubcnt_seq (k : Fin 3) (s : State) : (s.setSubcnt k).seq = s.seq := rfl
@[simp] theorem State.setSubcnt_subcnt (k : Fin 3) (s : State) : (s.setSubcnt k).subcnt = k := rfl
@[simp] theorem State.setSubcnt_ubuf (k : Fin 3) (s : State) : (s.setSubcnt k).ubuf = s.ubuf := rfl
@[simp] theorem State.setSubcnt_uplpend (k : Fin 3) (s : State) : (s.setSubcnt k).uplpend = s.uplpend := rfl
@[simp] theorem State.setSubcnt_txOut (k : Fin 3) (s : State) : (s.setSubcnt k).txOut = s.txOut := rfl
@[simp] theorem State.setSubcnt_port (k : Fin 3) (s : State) : (s.setSubcnt k).port = s.port := rfl
@[simp] theorem State.setSubcnt_responses (k : Fin 3) (s : State) : (s.setSubcnt k).responses = s.responses := rfl

@[simp] theorem State.setSubcnt_mem (k : Fin 3) (s : State) (S : Space) : (s.setSubcnt k).mem S = s.mem S := by
  rcases S with (_ | _) | _ | _ | _ <;> rfl

@[simp] theorem State.setSubcnt_byteAt (k : Fin 3) (s : State) (S : Space) (a : Nat) :
    (s.setSubcnt k).byteAt S a = s.byteAt S a := by
  unfold State.byteAt
  rw [State.setSubcnt_mem]

@[simp] theorem State.setSubcnt_bytesAt (k : Fin 3) (s : State) (S : Space) (a n : Nat) :
    (s.setSubcnt k).bytesAt S a n = s.bytesAt S a n := by
  unfold State.bytesAt
  rw [State.setSubcnt_mem]

/-! ### `State.commitTime` -/

@[simp] theorem State.commitTime_params (f : TimeFields) (s : State) : (s.commitTime f).params = s.params := rfl
@[simp] theorem State.commitTime_buf0 (f : TimeFields) (s : State) : (s.commitTime f).buf0 = s.buf0 := rfl
@[simp] theorem State.commitTime_buf1 (f : TimeFields) (s : State) : (s.commitTime f).buf1 = s.buf1 := rfl
@[simp] theorem State.commitTime_act (f : TimeFields) (s : State) : (s.commitTime f).act = s.act := rfl
@[simp] theorem State.commitTime_cur (f : TimeFields) (s : State) : (s.commitTime f).cur = s.cur := rfl
@[simp] theorem State.commitTime_new (f : TimeFields) (s : State) : (s.commitTime f).new = s.new := rfl
@[simp] theorem State.commitTime_fp (f : TimeFields) (s : State) : (s.commitTime f).fp = s.fp := rfl
@[simp] theorem State.commitTime_hour (f : TimeFields) (s : State) : (s.commitTime f).hour = BitVec.ofNat 8 f.hour := rfl
@[simp] theorem State.commitTime_minute (f : TimeFields) (s : State) : (s.commitTime f).minute = BitVec.ofNat 8 f.minute := rfl
@[simp] theorem State.commitTime_second (f : TimeFields) (s : State) : (s.commitTime f).second = BitVec.ofNat 8 f.second := rfl
@[simp] theorem State.commitTime_millis (f : TimeFields) (s : State) : (s.commitTime f).millis = BitVec.ofNat 16 f.millis := rfl
@[simp] theorem State.commitTime_day (f : TimeFields) (s : State) : (s.commitTime f).day = s.day := rfl
@[simp] theorem State.commitTime_month (f : TimeFields) (s : State) : (s.commitTime f).month = s.month := rfl
@[simp] theorem State.commitTime_year (f : TimeFields) (s : State) : (s.commitTime f).year = s.year := rfl
@[simp] theorem State.commitTime_latRaw (f : TimeFields) (s : State) : (s.commitTime f).latRaw = s.latRaw := rfl
@[simp] theorem State.commitTime_latFix (f : TimeFields) (s : State) : (s.commitTime f).latFix = s.latFix := rfl
@[simp] theorem State.commitTime_latHemi (f : TimeFields) (s : State) : (s.commitTime f).latHemi = s.latHemi := rfl
@[simp] theorem State.commitTime_lonRaw (f : TimeFields) (s : State) : (s.commitTime f).lonRaw = s.lonRaw := rfl
@[simp] theorem State.commitTime_lonFix (f : TimeFields) (s : State) : (s.commitTime f).lonFix = s.lonFix := rfl
@[simp] theorem State.commitTime_lonHemi (f : TimeFields) (s : State) : (s.commitTime f).lonHemi = s.lonHemi := rfl
@[simp] theorem State.commitTime_rvalid (f : TimeFields) (s : State) : (s.commitTime f).rvalid = s.rvalid ||| timeV := rfl
@[simp] theorem State.commitTime_rxbuf (f : TimeFields) (s : State) : (s.commitTime f).rxbuf = s.rxbuf := rfl
@[simp] theorem State.commitTime_rxn (f : TimeFields) (s : State) : (s.commitTime f).rxn = s.rxn := rfl
@[simp] theorem State.commitTime_rxlen (f : TimeFields) (s : State) : (s.commitTime f).rxlen = s.rxlen := rfl
@[simp] theorem State.commitTime_rxck (f : TimeFields) (s : State) : (s.commitTime f).rxck = s.rxck := rfl
@[simp] theorem State.commitTime_exp (f : TimeFields) (s : State) : (s.commitTime f).exp = s.exp := rfl
@[simp] theorem State.commitTime_explen (f : TimeFields) (s : State) : (s.commitTime f).explen = s.explen := rfl
@[simp] theorem State.commitTime_awst (f : TimeFields) (s : State) : (s.commitTime f).awst = s.awst := rfl
@[simp] theorem State.commitTime_tmo (f : TimeFields) (s : State) : (s.commitTime f).tmo = s.tmo := rfl
@[simp] theorem State.commitTime_seq (f : TimeFields) (s : State) : (s.commitTime f).seq = s.seq := rfl
@[simp] theorem State.commitTime_subcnt (f : TimeFields) (s : State) : (s.commitTime f).subcnt = s.subcnt := rfl
@[simp] theorem State.commitTime_ubuf (f : TimeFields) (s : State) : (s.commitTime f).ubuf = s.ubuf := rfl
@[simp] theorem State.commitTime_uplpend (f : TimeFields) (s : State) : (s.commitTime f).uplpend = s.uplpend := rfl
@[simp] theorem State.commitTime_txOut (f : TimeFields) (s : State) : (s.commitTime f).txOut = s.txOut := rfl
@[simp] theorem State.commitTime_port (f : TimeFields) (s : State) : (s.commitTime f).port = s.port := rfl
@[simp] theorem State.commitTime_responses (f : TimeFields) (s : State) : (s.commitTime f).responses = s.responses := rfl

@[simp] theorem State.commitTime_mem (f : TimeFields) (s : State) (S : Space) : (s.commitTime f).mem S = s.mem S := by
  rcases S with (_ | _) | _ | _ | _ <;> rfl

@[simp] theorem State.commitTime_byteAt (f : TimeFields) (s : State) (S : Space) (a : Nat) :
    (s.commitTime f).byteAt S a = s.byteAt S a := by
  unfold State.byteAt
  rw [State.commitTime_mem]

@[simp] theorem State.commitTime_bytesAt (f : TimeFields) (s : State) (S : Space) (a n : Nat) :
    (s.commitTime f).bytesAt S a n = s.bytesAt S a n := by
  unfold State.bytesAt
  rw [State.commitTime_mem]

/-! ### `State.commitDate` -/

@[simp] theorem State.commitDate_params (f : DateFields) (s : State) : (s.commitDate f).params = s.params := rfl
@[simp] theorem State.commitDate_buf0 (f : DateFields) (s : State) : (s.commitDate f).buf0 = s.buf0 := rfl
@[simp] theorem State.commitDate_buf1 (f : DateFields) (s : State) : (s.commitDate f).buf1 = s.buf1 := rfl
@[simp] theorem State.commitDate_act (f : DateFields) (s : State) : (s.commitDate f).act = s.act := rfl
@[simp] theorem State.commitDate_cur (f : DateFields) (s : State) : (s.commitDate f).cur = s.cur := rfl
@[simp] theorem State.commitDate_new (f : DateFields) (s : State) : (s.commitDate f).new = s.new := rfl
@[simp] theorem State.commitDate_fp (f : DateFields) (s : State) : (s.commitDate f).fp = s.fp := rfl
@[simp] theorem State.commitDate_hour (f : DateFields) (s : State) : (s.commitDate f).hour = s.hour := rfl
@[simp] theorem State.commitDate_minute (f : DateFields) (s : State) : (s.commitDate f).minute = s.minute := rfl
@[simp] theorem State.commitDate_second (f : DateFields) (s : State) : (s.commitDate f).second = s.second := rfl
@[simp] theorem State.commitDate_millis (f : DateFields) (s : State) : (s.commitDate f).millis = s.millis := rfl
@[simp] theorem State.commitDate_day (f : DateFields) (s : State) : (s.commitDate f).day = BitVec.ofNat 8 f.day := rfl
@[simp] theorem State.commitDate_month (f : DateFields) (s : State) : (s.commitDate f).month = BitVec.ofNat 8 f.month := rfl
@[simp] theorem State.commitDate_year (f : DateFields) (s : State) : (s.commitDate f).year = BitVec.ofNat 8 f.year := rfl
@[simp] theorem State.commitDate_latRaw (f : DateFields) (s : State) : (s.commitDate f).latRaw = s.latRaw := rfl
@[simp] theorem State.commitDate_latFix (f : DateFields) (s : State) : (s.commitDate f).latFix = s.latFix := rfl
@[simp] theorem State.commitDate_latHemi (f : DateFields) (s : State) : (s.commitDate f).latHemi = s.latHemi := rfl
@[simp] theorem State.commitDate_lonRaw (f : DateFields) (s : State) : (s.commitDate f).lonRaw = s.lonRaw := rfl
@[simp] theorem State.commitDate_lonFix (f : DateFields) (s : State) : (s.commitDate f).lonFix = s.lonFix := rfl
@[simp] theorem State.commitDate_lonHemi (f : DateFields) (s : State) : (s.commitDate f).lonHemi = s.lonHemi := rfl
@[simp] theorem State.commitDate_rvalid (f : DateFields) (s : State) : (s.commitDate f).rvalid = s.rvalid ||| dateV := rfl
@[simp] theorem State.commitDate_rxbuf (f : DateFields) (s : State) : (s.commitDate f).rxbuf = s.rxbuf := rfl
@[simp] theorem State.commitDate_rxn (f : DateFields) (s : State) : (s.commitDate f).rxn = s.rxn := rfl
@[simp] theorem State.commitDate_rxlen (f : DateFields) (s : State) : (s.commitDate f).rxlen = s.rxlen := rfl
@[simp] theorem State.commitDate_rxck (f : DateFields) (s : State) : (s.commitDate f).rxck = s.rxck := rfl
@[simp] theorem State.commitDate_exp (f : DateFields) (s : State) : (s.commitDate f).exp = s.exp := rfl
@[simp] theorem State.commitDate_explen (f : DateFields) (s : State) : (s.commitDate f).explen = s.explen := rfl
@[simp] theorem State.commitDate_awst (f : DateFields) (s : State) : (s.commitDate f).awst = s.awst := rfl
@[simp] theorem State.commitDate_tmo (f : DateFields) (s : State) : (s.commitDate f).tmo = s.tmo := rfl
@[simp] theorem State.commitDate_seq (f : DateFields) (s : State) : (s.commitDate f).seq = s.seq := rfl
@[simp] theorem State.commitDate_subcnt (f : DateFields) (s : State) : (s.commitDate f).subcnt = s.subcnt := rfl
@[simp] theorem State.commitDate_ubuf (f : DateFields) (s : State) : (s.commitDate f).ubuf = s.ubuf := rfl
@[simp] theorem State.commitDate_uplpend (f : DateFields) (s : State) : (s.commitDate f).uplpend = s.uplpend := rfl
@[simp] theorem State.commitDate_txOut (f : DateFields) (s : State) : (s.commitDate f).txOut = s.txOut := rfl
@[simp] theorem State.commitDate_port (f : DateFields) (s : State) : (s.commitDate f).port = s.port := rfl
@[simp] theorem State.commitDate_responses (f : DateFields) (s : State) : (s.commitDate f).responses = s.responses := rfl

@[simp] theorem State.commitDate_mem (f : DateFields) (s : State) (S : Space) : (s.commitDate f).mem S = s.mem S := by
  rcases S with (_ | _) | _ | _ | _ <;> rfl

@[simp] theorem State.commitDate_byteAt (f : DateFields) (s : State) (S : Space) (a : Nat) :
    (s.commitDate f).byteAt S a = s.byteAt S a := by
  unfold State.byteAt
  rw [State.commitDate_mem]

@[simp] theorem State.commitDate_bytesAt (f : DateFields) (s : State) (S : Space) (a n : Nat) :
    (s.commitDate f).bytesAt S a n = s.bytesAt S a n := by
  unfold State.bytesAt
  rw [State.commitDate_mem]

/-! ### `State.commitCoord` -/

@[simp] theorem State.commitCoord_lat_latRaw (c : CoordFields) (s : State) : (s.commitCoord .lat c).latRaw = BitVec.ofNat 32 c.raw := rfl
@[simp] theorem State.commitCoord_lat_latFix (c : CoordFields) (s : State) : (s.commitCoord .lat c).latFix = signedFix c := rfl
@[simp] theorem State.commitCoord_lat_latHemi (c : CoordFields) (s : State) : (s.commitCoord .lat c).latHemi = c.hemi := rfl
@[simp] theorem State.commitCoord_lat_lonRaw (c : CoordFields) (s : State) : (s.commitCoord .lat c).lonRaw = s.lonRaw := rfl
@[simp] theorem State.commitCoord_lat_lonFix (c : CoordFields) (s : State) : (s.commitCoord .lat c).lonFix = s.lonFix := rfl
@[simp] theorem State.commitCoord_lat_lonHemi (c : CoordFields) (s : State) : (s.commitCoord .lat c).lonHemi = s.lonHemi := rfl
@[simp] theorem State.commitCoord_lat_rvalid (c : CoordFields) (s : State) : (s.commitCoord .lat c).rvalid = s.rvalid ||| latV := rfl

@[simp] theorem State.commitCoord_lon_latRaw (c : CoordFields) (s : State) : (s.commitCoord .lon c).latRaw = s.latRaw := rfl
@[simp] theorem State.commitCoord_lon_latFix (c : CoordFields) (s : State) : (s.commitCoord .lon c).latFix = s.latFix := rfl
@[simp] theorem State.commitCoord_lon_latHemi (c : CoordFields) (s : State) : (s.commitCoord .lon c).latHemi = s.latHemi := rfl
@[simp] theorem State.commitCoord_lon_lonRaw (c : CoordFields) (s : State) : (s.commitCoord .lon c).lonRaw = BitVec.ofNat 32 c.raw := rfl
@[simp] theorem State.commitCoord_lon_lonFix (c : CoordFields) (s : State) : (s.commitCoord .lon c).lonFix = signedFix c := rfl
@[simp] theorem State.commitCoord_lon_lonHemi (c : CoordFields) (s : State) : (s.commitCoord .lon c).lonHemi = c.hemi := rfl
@[simp] theorem State.commitCoord_lon_rvalid (c : CoordFields) (s : State) : (s.commitCoord .lon c).rvalid = s.rvalid ||| lonV := rfl

@[simp] theorem State.commitCoord_params (k : CoordKind) (c : CoordFields) (s : State) : (s.commitCoord k c).params = s.params := by
  cases k <;> rfl
@[simp] theorem State.commitCoord_buf0 (k : CoordKind) (c : CoordFields) (s : State) : (s.commitCoord k c).buf0 = s.buf0 := by
  cases k <;> rfl
@[simp] theorem State.commitCoord_buf1 (k : CoordKind) (c : CoordFields) (s : State) : (s.commitCoord k c).buf1 = s.buf1 := by
  cases k <;> rfl
@[simp] theorem State.commitCoord_act (k : CoordKind) (c : CoordFields) (s : State) : (s.commitCoord k c).act = s.act := by
  cases k <;> rfl
@[simp] theorem State.commitCoord_cur (k : CoordKind) (c : CoordFields) (s : State) : (s.commitCoord k c).cur = s.cur := by
  cases k <;> rfl
@[simp] theorem State.commitCoord_new (k : CoordKind) (c : CoordFields) (s : State) : (s.commitCoord k c).new = s.new := by
  cases k <;> rfl
@[simp] theorem State.commitCoord_fp (k : CoordKind) (c : CoordFields) (s : State) : (s.commitCoord k c).fp = s.fp := by
  cases k <;> rfl
@[simp] theorem State.commitCoord_hour (k : CoordKind) (c : CoordFields) (s : State) : (s.commitCoord k c).hour = s.hour := by
  cases k <;> rfl
@[simp] theorem State.commitCoord_minute (k : CoordKind) (c : CoordFields) (s : State) : (s.commitCoord k c).minute = s.minute := by
  cases k <;> rfl
@[simp] theorem State.commitCoord_second (k : CoordKind) (c : CoordFields) (s : State) : (s.commitCoord k c).second = s.second := by
  cases k <;> rfl
@[simp] theorem State.commitCoord_millis (k : CoordKind) (c : CoordFields) (s : State) : (s.commitCoord k c).millis = s.millis := by
  cases k <;> rfl
@[simp] theorem State.commitCoord_day (k : CoordKind) (c : CoordFields) (s : State) : (s.commitCoord k c).day = s.day := by
  cases k <;> rfl
@[simp] theorem State.commitCoord_month (k : CoordKind) (c : CoordFields) (s : State) : (s.commitCoord k c).month = s.month := by
  cases k <;> rfl
@[simp] theorem State.commitCoord_year (k : CoordKind) (c : CoordFields) (s : State) : (s.commitCoord k c).year = s.year := by
  cases k <;> rfl
@[simp] theorem State.commitCoord_rxbuf (k : CoordKind) (c : CoordFields) (s : State) : (s.commitCoord k c).rxbuf = s.rxbuf := by
  cases k <;> rfl
@[simp] theorem State.commitCoord_rxn (k : CoordKind) (c : CoordFields) (s : State) : (s.commitCoord k c).rxn = s.rxn := by
  cases k <;> rfl
@[simp] theorem State.commitCoord_rxlen (k : CoordKind) (c : CoordFields) (s : State) : (s.commitCoord k c).rxlen = s.rxlen := by
  cases k <;> rfl
@[simp] theorem State.commitCoord_rxck (k : CoordKind) (c : CoordFields) (s : State) : (s.commitCoord k c).rxck = s.rxck := by
  cases k <;> rfl
@[simp] theorem State.commitCoord_exp (k : CoordKind) (c : CoordFields) (s : State) : (s.commitCoord k c).exp = s.exp := by
  cases k <;> rfl
@[simp] theorem State.commitCoord_explen (k : CoordKind) (c : CoordFields) (s : State) : (s.commitCoord k c).explen = s.explen := by
  cases k <;> rfl
@[simp] theorem State.commitCoord_awst (k : CoordKind) (c : CoordFields) (s : State) : (s.commitCoord k c).awst = s.awst := by
  cases k <;> rfl
@[simp] theorem State.commitCoord_tmo (k : CoordKind) (c : CoordFields) (s : State) : (s.commitCoord k c).tmo = s.tmo := by
  cases k <;> rfl
@[simp] theorem State.commitCoord_seq (k : CoordKind) (c : CoordFields) (s : State) : (s.commitCoord k c).seq = s.seq := by
  cases k <;> rfl
@[simp] theorem State.commitCoord_subcnt (k : CoordKind) (c : CoordFields) (s : State) : (s.commitCoord k c).subcnt = s.subcnt := by
  cases k <;> rfl
@[simp] theorem State.commitCoord_ubuf (k : CoordKind) (c : CoordFields) (s : State) : (s.commitCoord k c).ubuf = s.ubuf := by
  cases k <;> rfl
@[simp] theorem State.commitCoord_uplpend (k : CoordKind) (c : CoordFields) (s : State) : (s.commitCoord k c).uplpend = s.uplpend := by
  cases k <;> rfl
@[simp] theorem State.commitCoord_txOut (k : CoordKind) (c : CoordFields) (s : State) : (s.commitCoord k c).txOut = s.txOut := by
  cases k <;> rfl
@[simp] theorem State.commitCoord_port (k : CoordKind) (c : CoordFields) (s : State) : (s.commitCoord k c).port = s.port := by
  cases k <;> rfl
@[simp] theorem State.commitCoord_responses (k : CoordKind) (c : CoordFields) (s : State) : (s.commitCoord k c).responses = s.responses := by
  cases k <;> rfl

@[simp] theorem State.commitCoord_mem (k : CoordKind) (c : CoordFields) (s : State) (S : Space) :
    (s.commitCoord k c).mem S = s.mem S := by
  cases k <;> rcases S with (_ | _) | _ | _ | _ <;> rfl

@[simp] theorem State.commitCoord_byteAt (k : CoordKind) (c : CoordFields) (s : State) (S : Space) (a : Nat) :
    (s.commitCoord k c).byteAt S a = s.byteAt S a := by
  unfold State.byteAt
  rw [State.commitCoord_mem]

/-! ### `State.setMem` and `State.store` -/

@[simp] theorem State.setMem_params (S : Space) (m : Memory) (s : State) : (s.setMem S m).params = s.params := by
  rcases S with (_ | _) | _ | _ | _ <;> rfl
@[simp] theorem State.setMem_act (S : Space) (m : Memory) (s : State) : (s.setMem S m).act = s.act := by
  rcases S with (_ | _) | _ | _ | _ <;> rfl
@[simp] theorem State.setMem_cur (S : Space) (m : Memory) (s : State) : (s.setMem S m).cur = s.cur := by
  rcases S with (_ | _) | _ | _ | _ <;> rfl
@[simp] theorem State.setMem_new (S : Space) (m : Memory) (s : State) : (s.setMem S m).new = s.new := by
  rcases S with (_ | _) | _ | _ | _ <;> rfl
@[simp] theorem State.setMem_fp (S : Space) (m : Memory) (s : State) : (s.setMem S m).fp = s.fp := by
  rcases S with (_ | _) | _ | _ | _ <;> rfl
@[simp] theorem State.setMem_hour (S : Space) (m : Memory) (s : State) : (s.setMem S m).hour = s.hour := by
  rcases S with (_ | _) | _ | _ | _ <;> rfl
@[simp] theorem State.setMem_minute (S : Space) (m : Memory) (s : State) : (s.setMem S m).minute = s.minute := by
  rcases S with (_ | _) | _ | _ | _ <;> rfl
@[simp] theorem State.setMem_second (S : Space) (m : Memory) (s : State) : (s.setMem S m).second = s.second := by
  rcases S with (_ | _) | _ | _ | _ <;> rfl
@[simp] theorem State.setMem_millis (S : Space) (m : Memory) (s : State) : (s.setMem S m).millis = s.millis := by
  rcases S with (_ | _) | _ | _ | _ <;> rfl
@[simp] theorem State.setMem_day (S : Space) (m : Memory) (s : State) : (s.setMem S m).day = s.day := by
  rcases S with (_ | _) | _ | _ | _ <;> rfl
@[simp] theorem State.setMem_month (S : Space) (m : Memory) (s : State) : (s.setMem S m).month = s.month := by
  rcases S with (_ | _) | _ | _ | _ <;> rfl
@[simp] theorem State.setMem_year (S : Space) (m : Memory) (s : State) : (s.setMem S m).year = s.year := by
  rcases S with (_ | _) | _ | _ | _ <;> rfl
@[simp] theorem State.setMem_latRaw (S : Space) (m : Memory) (s : State) : (s.setMem S m).latRaw = s.latRaw := by
  rcases S with (_ | _) | _ | _ | _ <;> rfl
@[simp] theorem State.setMem_latFix (S : Space) (m : Memory) (s : State) : (s.setMem S m).latFix = s.latFix := by
  rcases S with (_ | _) | _ | _ | _ <;> rfl
@[simp] theorem State.setMem_latHemi (S : Space) (m : Memory) (s : State) : (s.setMem S m).latHemi = s.latHemi := by
  rcases S with (_ | _) | _ | _ | _ <;> rfl
@[simp] theorem State.setMem_lonRaw (S : Space) (m : Memory) (s : State) : (s.setMem S m).lonRaw = s.lonRaw := by
  rcases S with (_ | _) | _ | _ | _ <;> rfl
@[simp] theorem State.setMem_lonFix (S : Space) (m : Memory) (s : State) : (s.setMem S m).lonFix = s.lonFix := by
  rcases S with (_ | _) | _ | _ | _ <;> rfl
@[simp] theorem State.setMem_lonHemi (S : Space) (m : Memory) (s : State) : (s.setMem S m).lonHemi = s.lonHemi := by
  rcases S with (_ | _) | _ | _ | _ <;> rfl
@[simp] theorem State.setMem_rvalid (S : Space) (m : Memory) (s : State) : (s.setMem S m).rvalid = s.rvalid := by
  rcases S with (_ | _) | _ | _ | _ <;> rfl
@[simp] theorem State.setMem_rxn (S : Space) (m : Memory) (s : State) : (s.setMem S m).rxn = s.rxn := by
  rcases S with (_ | _) | _ | _ | _ <;> rfl
@[simp] theorem State.setMem_rxlen (S : Space) (m : Memory) (s : State) : (s.setMem S m).rxlen = s.rxlen := by
  rcases S with (_ | _) | _ | _ | _ <;> rfl
@[simp] theorem State.setMem_rxck (S : Space) (m : Memory) (s : State) : (s.setMem S m).rxck = s.rxck := by
  rcases S with (_ | _) | _ | _ | _ <;> rfl
@[simp] theorem State.setMem_explen (S : Space) (m : Memory) (s : State) : (s.setMem S m).explen = s.explen := by
  rcases S with (_ | _) | _ | _ | _ <;> rfl
@[simp] theorem State.setMem_awst (S : Space) (m : Memory) (s : State) : (s.setMem S m).awst = s.awst := by
  rcases S with (_ | _) | _ | _ | _ <;> rfl
@[simp] theorem State.setMem_tmo (S : Space) (m : Memory) (s : State) : (s.setMem S m).tmo = s.tmo := by
  rcases S with (_ | _) | _ | _ | _ <;> rfl
@[simp] theorem State.setMem_seq (S : Space) (m : Memory) (s : State) : (s.setMem S m).seq = s.seq := by
  rcases S with (_ | _) | _ | _ | _ <;> rfl
@[simp] theorem State.setMem_subcnt (S : Space) (m : Memory) (s : State) : (s.setMem S m).subcnt = s.subcnt := by
  rcases S with (_ | _) | _ | _ | _ <;> rfl
@[simp] theorem State.setMem_uplpend (S : Space) (m : Memory) (s : State) : (s.setMem S m).uplpend = s.uplpend := by
  rcases S with (_ | _) | _ | _ | _ <;> rfl
@[simp] theorem State.setMem_txOut (S : Space) (m : Memory) (s : State) : (s.setMem S m).txOut = s.txOut := by
  rcases S with (_ | _) | _ | _ | _ <;> rfl
@[simp] theorem State.setMem_port (S : Space) (m : Memory) (s : State) : (s.setMem S m).port = s.port := by
  rcases S with (_ | _) | _ | _ | _ <;> rfl
@[simp] theorem State.setMem_responses (S : Space) (m : Memory) (s : State) : (s.setMem S m).responses = s.responses := by
  rcases S with (_ | _) | _ | _ | _ <;> rfl

@[simp] theorem State.store_params (S : Space) (i : Nat) (bs : List Byte) (s : State) : (s.store S i bs).params = s.params :=
  State.setMem_params ..
@[simp] theorem State.store_act (S : Space) (i : Nat) (bs : List Byte) (s : State) : (s.store S i bs).act = s.act :=
  State.setMem_act ..
@[simp] theorem State.store_cur (S : Space) (i : Nat) (bs : List Byte) (s : State) : (s.store S i bs).cur = s.cur :=
  State.setMem_cur ..
@[simp] theorem State.store_new (S : Space) (i : Nat) (bs : List Byte) (s : State) : (s.store S i bs).new = s.new :=
  State.setMem_new ..
@[simp] theorem State.store_fp (S : Space) (i : Nat) (bs : List Byte) (s : State) : (s.store S i bs).fp = s.fp :=
  State.setMem_fp ..
@[simp] theorem State.store_hour (S : Space) (i : Nat) (bs : List Byte) (s : State) : (s.store S i bs).hour = s.hour :=
  State.setMem_hour ..
@[simp] theorem State.store_minute (S : Space) (i : Nat) (bs : List Byte) (s : State) : (s.store S i bs).minute = s.minute :=
  State.setMem_minute ..
@[simp] theorem State.store_second (S : Space) (i : Nat) (bs : List Byte) (s : State) : (s.store S i bs).second = s.second :=
  State.setMem_second ..
@[simp] theorem State.store_millis (S : Space) (i : Nat) (bs : List Byte) (s : State) : (s.store S i bs).millis = s.millis :=
  State.setMem_millis ..
@[simp] theorem State.store_day (S : Space) (i : Nat) (bs : List Byte) (s : State) : (s.store S i bs).day = s.day :=
  State.setMem_day ..
@[simp] theorem State.store_month (S : Space) (i : Nat) (bs : List Byte) (s : State) : (s.store S i bs).month = s.month :=
  State.setMem_month ..
@[simp] theorem State.store_year (S : Space) (i : Nat) (bs : List Byte) (s : State) : (s.store S i bs).year = s.year :=
  State.setMem_year ..
@[simp] theorem State.store_latRaw (S : Space) (i : Nat) (bs : List Byte) (s : State) : (s.store S i bs).latRaw = s.latRaw :=
  State.setMem_latRaw ..
@[simp] theorem State.store_latFix (S : Space) (i : Nat) (bs : List Byte) (s : State) : (s.store S i bs).latFix = s.latFix :=
  State.setMem_latFix ..
@[simp] theorem State.store_latHemi (S : Space) (i : Nat) (bs : List Byte) (s : State) : (s.store S i bs).latHemi = s.latHemi :=
  State.setMem_latHemi ..
@[simp] theorem State.store_lonRaw (S : Space) (i : Nat) (bs : List Byte) (s : State) : (s.store S i bs).lonRaw = s.lonRaw :=
  State.setMem_lonRaw ..
@[simp] theorem State.store_lonFix (S : Space) (i : Nat) (bs : List Byte) (s : State) : (s.store S i bs).lonFix = s.lonFix :=
  State.setMem_lonFix ..
@[simp] theorem State.store_lonHemi (S : Space) (i : Nat) (bs : List Byte) (s : State) : (s.store S i bs).lonHemi = s.lonHemi :=
  State.setMem_lonHemi ..
@[simp] theorem State.store_rvalid (S : Space) (i : Nat) (bs : List Byte) (s : State) : (s.store S i bs).rvalid = s.rvalid :=
  State.setMem_rvalid ..
@[simp] theorem State.store_rxn (S : Space) (i : Nat) (bs : List Byte) (s : State) : (s.store S i bs).rxn = s.rxn :=
  State.setMem_rxn ..
@[simp] theorem State.store_rxlen (S : Space) (i : Nat) (bs : List Byte) (s : State) : (s.store S i bs).rxlen = s.rxlen :=
  State.setMem_rxlen ..
@[simp] theorem State.store_rxck (S : Space) (i : Nat) (bs : List Byte) (s : State) : (s.store S i bs).rxck = s.rxck :=
  State.setMem_rxck ..
@[simp] theorem State.store_explen (S : Space) (i : Nat) (bs : List Byte) (s : State) : (s.store S i bs).explen = s.explen :=
  State.setMem_explen ..
@[simp] theorem State.store_awst (S : Space) (i : Nat) (bs : List Byte) (s : State) : (s.store S i bs).awst = s.awst :=
  State.setMem_awst ..
@[simp] theorem State.store_tmo (S : Space) (i : Nat) (bs : List Byte) (s : State) : (s.store S i bs).tmo = s.tmo :=
  State.setMem_tmo ..
@[simp] theorem State.store_seq (S : Space) (i : Nat) (bs : List Byte) (s : State) : (s.store S i bs).seq = s.seq :=
  State.setMem_seq ..
@[simp] theorem State.store_subcnt (S : Space) (i : Nat) (bs : List Byte) (s : State) : (s.store S i bs).subcnt = s.subcnt :=
  State.setMem_subcnt ..
@[simp] theorem State.store_uplpend (S : Space) (i : Nat) (bs : List Byte) (s : State) : (s.store S i bs).uplpend = s.uplpend :=
  State.setMem_uplpend ..
@[simp] theorem State.store_txOut (S : Space) (i : Nat) (bs : List Byte) (s : State) : (s.store S i bs).txOut = s.txOut :=
  State.setMem_txOut ..
@[simp] theorem State.store_port (S : Space) (i : Nat) (bs : List Byte) (s : State) : (s.store S i bs).port = s.port :=
  State.setMem_port ..
@[simp] theorem State.store_responses (S : Space) (i : Nat) (bs : List Byte) (s : State) : (s.store S i bs).responses = s.responses :=
  State.setMem_responses ..

@[simp] theorem State.store_buf0_buf0 (i : Nat) (bs : List Byte) (s : State) : (s.store (.line false) i bs).buf0 = s.buf0.writeBytes i bs := rfl
@[simp] theorem State.store_buf0_buf1 (i : Nat) (bs : List Byte) (s : State) : (s.store (.line false) i bs).buf1 = s.buf1 := rfl
@[simp] theorem State.store_buf0_rxbuf (i : Nat) (bs : List Byte) (s : State) : (s.store (.line false) i bs).rxbuf = s.rxbuf := rfl
@[simp] theorem State.store_buf0_exp (i : Nat) (bs : List Byte) (s : State) : (s.store (.line false) i bs).exp = s.exp := rfl
@[simp] theorem State.store_buf0_ubuf (i : Nat) (bs : List Byte) (s : State) : (s.store (.line false) i bs).ubuf = s.ubuf := rfl
@[simp] theorem State.store_buf1_buf0 (i : Nat) (bs : List Byte) (s : State) : (s.store (.line true) i bs).buf0 = s.buf0 := rfl
@[simp] theorem State.store_buf1_buf1 (i : Nat) (bs : List Byte) (s : State) : (s.store (.line true) i bs).buf1 = s.buf1.writeBytes i bs := rfl
@[simp] theorem State.store_buf1_rxbuf (i : Nat) (bs : List Byte) (s : State) : (s.store (.line true) i bs).rxbuf = s.rxbuf := rfl
@[simp] theorem State.store_buf1_exp (i : Nat) (bs : List Byte) (s : State) : (s.store (.line true) i bs).exp = s.exp := rfl
@[simp] theorem State.store_buf1_ubuf (i : Nat) (bs : List Byte) (s : State) : (s.store (.line true) i bs).ubuf = s.ubuf := rfl
@[simp] theorem State.store_rxbuf_buf0 (i : Nat) (bs : List Byte) (s : State) : (s.store .rxbuf i bs).buf0 = s.buf0 := rfl
@[simp] theorem State.store_rxbuf_buf1 (i : Nat) (bs : List Byte) (s : State) : (s.store .rxbuf i bs).buf1 = s.buf1 := rfl
@[simp] theorem State.store_rxbuf_rxbuf (i : Nat) (bs : List Byte) (s : State) : (s.store .rxbuf i bs).rxbuf = s.rxbuf.writeBytes i bs := rfl
@[simp] theorem State.store_rxbuf_exp (i : Nat) (bs : List Byte) (s : State) : (s.store .rxbuf i bs).exp = s.exp := rfl
@[simp] theorem State.store_rxbuf_ubuf (i : Nat) (bs : List Byte) (s : State) : (s.store .rxbuf i bs).ubuf = s.ubuf := rfl
@[simp] theorem State.store_exp_buf0 (i : Nat) (bs : List Byte) (s : State) : (s.store .exp i bs).buf0 = s.buf0 := rfl
@[simp] theorem State.store_exp_buf1 (i : Nat) (bs : List Byte) (s : State) : (s.store .exp i bs).buf1 = s.buf1 := rfl
@[simp] theorem State.store_exp_rxbuf (i : Nat) (bs : List Byte) (s : State) : (s.store .exp i bs).rxbuf = s.rxbuf := rfl
@[simp] theorem State.store_exp_exp (i : Nat) (bs : List Byte) (s : State) : (s.store .exp i bs).exp = s.exp.writeBytes i bs := rfl
@[simp] theorem State.store_exp_ubuf (i : Nat) (bs : List Byte) (s : State) : (s.store .exp i bs).ubuf = s.ubuf := rfl
@[simp] theorem State.store_ubuf_buf0 (i : Nat) (bs : List Byte) (s : State) : (s.store .ubuf i bs).buf0 = s.buf0 := rfl
@[simp] theorem State.store_ubuf_buf1 (i : Nat) (bs : List Byte) (s : State) : (s.store .ubuf i bs).buf1 = s.buf1 := rfl
@[simp] theorem State.store_ubuf_rxbuf (i : Nat) (bs : List Byte) (s : State) : (s.store .ubuf i bs).rxbuf = s.rxbuf := rfl
@[simp] theorem State.store_ubuf_exp (i : Nat) (bs : List Byte) (s : State) : (s.store .ubuf i bs).exp = s.exp := rfl
@[simp] theorem State.store_ubuf_ubuf (i : Nat) (bs : List Byte) (s : State) : (s.store .ubuf i bs).ubuf = s.ubuf.writeBytes i bs := rfl
@[simp] theorem State.store_line_rxbuf (k : Bool) (i : Nat) (bs : List Byte) (s : State) : (s.store (.line k) i bs).rxbuf = s.rxbuf := by
  cases k <;> rfl
@[simp] theorem State.store_line_exp (k : Bool) (i : Nat) (bs : List Byte) (s : State) : (s.store (.line k) i bs).exp = s.exp := by
  cases k <;> rfl
@[simp] theorem State.store_line_ubuf (k : Bool) (i : Nat) (bs : List Byte) (s : State) : (s.store (.line k) i bs).ubuf = s.ubuf := by
  cases k <;> rfl

/-- One array is replaced, the others stay. -/
theorem State.setMem_mem (S T : Space) (m : Memory) (s : State) : (s.setMem S m).mem T = if T = S then m else s.mem T := by
  rcases S with (_ | _) | _ | _ | _ <;> rcases T with (_ | _) | _ | _ | _ <;> rfl

/-- A store changes one array only. -/
theorem State.store_mem (S T : Space) (i : Nat) (bs : List Byte) (s : State) :
    (s.store S i bs).mem T = if T = S then (s.mem S).writeBytes i bs else s.mem T :=
  State.setMem_mem ..

@[simp] theorem State.store_mem_same (S : Space) (i : Nat) (bs : List Byte) (s : State) :
    (s.store S i bs).mem S = (s.mem S).writeBytes i bs := by
  rw [State.store_mem, if_pos rfl]

theorem State.store_mem_other (S T : Space) (i : Nat) (bs : List Byte) (s : State) (h : T ≠ S) :
    (s.store S i bs).mem T = s.mem T := by
  rw [State.store_mem, if_neg h]

/-- The sizes of the arrays are the parameters' (20_memory.md R60). -/
theorem State.size_congr (s t : State) (S : Space) (h : t.params = s.params) : t.size S = s.size S := by
  rcases S with k | _ | _ | _ <;> simp [State.size, h]

@[simp] theorem State.store_size (S T : Space) (i : Nat) (bs : List Byte) (s : State) : (s.store S i bs).size T = s.size T :=
  State.size_congr _ _ _ (by simp)

/-- One byte after a store. -/
theorem State.store_byteAt (S T : Space) (i a : Nat) (bs : List Byte) (s : State) (h : (s.mem S).wf = true) :
    (s.store S i bs).byteAt T a =
      if T = S ∧ i ≤ a ∧ a < i + bs.length then bs.getD (a - i) 0#8 else s.byteAt T a := by
  unfold State.byteAt
  rw [State.store_mem]
  by_cases hT : T = S
  · subst hT
    rw [if_pos rfl, Memory.read_writeBytes _ _ _ _ h]
    simp
  · rw [if_neg hT, if_neg (fun hc => hT hc.1)]

/-! ### `State.sealUpload` and `State.sendUpload` -/

@[simp] theorem State.sealUpload_params (q : Half) (s : State) : (s.sealUpload q).params = s.params := by
  simp only [State.sealUpload, State.sumUpload, State.store_params]
@[simp] theorem State.sealUpload_buf0 (q : Half) (s : State) : (s.sealUpload q).buf0 = s.buf0 := by
  simp only [State.sealUpload, State.sumUpload, State.store_ubuf_buf0]
@[simp] theorem State.sealUpload_buf1 (q : Half) (s : State) : (s.sealUpload q).buf1 = s.buf1 := by
  simp only [State.sealUpload, State.sumUpload, State.store_ubuf_buf1]
@[simp] theorem State.sealUpload_act (q : Half) (s : State) : (s.sealUpload q).act = s.act := by
  simp only [State.sealUpload, State.sumUpload, State.store_act]
@[simp] theorem State.sealUpload_cur (q : Half) (s : State) : (s.sealUpload q).cur = s.cur := by
  simp only [State.sealUpload, State.sumUpload, State.store_cur]
@[simp] theorem State.sealUpload_new (q : Half) (s : State) : (s.sealUpload q).new = s.new := by
  simp only [State.sealUpload, State.sumUpload, State.store_new]
@[simp] theorem State.sealUpload_fp (q : Half) (s : State) : (s.sealUpload q).fp = s.fp := by
  simp only [State.sealUpload, State.sumUpload, State.store_fp]
@[simp] theorem State.sealUpload_hour (q : Half) (s : State) : (s.sealUpload q).hour = s.hour := by
  simp only [State.sealUpload, State.sumUpload, State.store_hour]
@[simp] theorem State.sealUpload_minute (q : Half) (s : State) : (s.sealUpload q).minute = s.minute := by
  simp only [State.sealUpload, State.sumUpload, State.store_minute]
@[simp] theorem State.sealUpload_second (q : Half) (s : State) : (s.sealUpload q).second = s.second := by
  simp only [State.sealUpload, State.sumUpload, State.store_second]
@[simp] theorem State.sealUpload_millis (q : Half) (s : State) : (s.sealUpload q).millis = s.millis := by
  simp only [State.sealUpload, State.sumUpload, State.store_millis]
@[simp] theorem State.sealUpload_day (q : Half) (s : State) : (s.sealUpload q).day = s.day := by
  simp only [State.sealUpload, State.sumUpload, State.store_day]
@[simp] theorem State.sealUpload_month (q : Half) (s : State) : (s.sealUpload q).month = s.month := by
  simp only [State.sealUpload, State.sumUpload, State.store_month]
@[simp] theorem State.sealUpload_year (q : Half) (s : State) : (s.sealUpload q).year = s.year := by
  simp only [State.sealUpload, State.sumUpload, State.store_year]
@[simp] theorem State.sealUpload_latRaw (q : Half) (s : State) : (s.sealUpload q).latRaw = s.latRaw := by
  simp only [State.sealUpload, State.sumUpload, State.store_latRaw]
@[simp] theorem State.sealUpload_latFix (q : Half) (s : State) : (s.sealUpload q).latFix = s.latFix := by
  simp only [State.sealUpload, State.sumUpload, State.store_latFix]
@[simp] theorem State.sealUpload_latHemi (q : Half) (s : State) : (s.sealUpload q).latHemi = s.latHemi := by
  simp only [State.sealUpload, State.sumUpload, State.store_latHemi]
@[simp] theorem State.sealUpload_lonRaw (q : Half) (s : State) : (s.sealUpload q).lonRaw = s.lonRaw := by
  simp only [State.sealUpload, State.sumUpload, State.store_lonRaw]
@[simp] theorem State.sealUpload_lonFix (q : Half) (s : State) : (s.sealUpload q).lonFix = s.lonFix := by
  simp only [State.sealUpload, State.sumUpload, State.store_lonFix]
@[simp] theorem State.sealUpload_lonHemi (q : Half) (s : State) : (s.sealUpload q).lonHemi = s.lonHemi := by
  simp only [State.sealUpload, State.sumUpload, State.store_lonHemi]
@[simp] theorem State.sealUpload_rvalid (q : Half) (s : State) : (s.sealUpload q).rvalid = s.rvalid := by
  simp only [State.sealUpload, State.sumUpload, State.store_rvalid]
@[simp] theorem State.sealUpload_rxbuf (q : Half) (s : State) : (s.sealUpload q).rxbuf = s.rxbuf := by
  simp only [State.sealUpload, State.sumUpload, State.store_ubuf_rxbuf]
@[simp] theorem State.sealUpload_rxn (q : Half) (s : State) : (s.sealUpload q).rxn = s.rxn := by
  simp only [State.sealUpload, State.sumUpload, State.store_rxn]
@[simp] theorem State.sealUpload_rxlen (q : Half) (s : State) : (s.sealUpload q).rxlen = s.rxlen := by
  simp only [State.sealUpload, State.sumUpload, State.store_rxlen]
@[simp] theorem State.sealUpload_rxck (q : Half) (s : State) : (s.sealUpload q).rxck = s.rxck := by
  simp only [State.sealUpload, State.sumUpload, State.store_rxck]
@[simp] theorem State.sealUpload_exp (q : Half) (s : State) : (s.sealUpload q).exp = s.exp := by
  simp only [State.sealUpload, State.sumUpload, State.store_ubuf_exp]
@[simp] theorem State.sealUpload_explen (q : Half) (s : State) : (s.sealUpload q).explen = s.explen := by
  simp only [State.sealUpload, State.sumUpload, State.store_explen]
@[simp] theorem State.sealUpload_awst (q : Half) (s : State) : (s.sealUpload q).awst = s.awst := by
  simp only [State.sealUpload, State.sumUpload, State.store_awst]
@[simp] theorem State.sealUpload_tmo (q : Half) (s : State) : (s.sealUpload q).tmo = s.tmo := by
  simp only [State.sealUpload, State.sumUpload, State.store_tmo]
@[simp] theorem State.sealUpload_seq (q : Half) (s : State) : (s.sealUpload q).seq = s.seq := by
  simp only [State.sealUpload, State.sumUpload, State.store_seq]
@[simp] theorem State.sealUpload_subcnt (q : Half) (s : State) : (s.sealUpload q).subcnt = s.subcnt := by
  simp only [State.sealUpload, State.sumUpload, State.store_subcnt]
@[simp] theorem State.sealUpload_uplpend (q : Half) (s : State) : (s.sealUpload q).uplpend = s.uplpend := by
  simp only [State.sealUpload, State.sumUpload, State.store_uplpend]
@[simp] theorem State.sealUpload_txOut (q : Half) (s : State) : (s.sealUpload q).txOut = s.txOut := by
  simp only [State.sealUpload, State.sumUpload, State.store_txOut]
@[simp] theorem State.sealUpload_port (q : Half) (s : State) : (s.sealUpload q).port = s.port := by
  simp only [State.sealUpload, State.sumUpload, State.store_port]
@[simp] theorem State.sealUpload_responses (q : Half) (s : State) : (s.sealUpload q).responses = s.responses := by
  simp only [State.sealUpload, State.sumUpload, State.store_responses]

@[simp] theorem State.sendUpload_params (s : State) : (s.sendUpload).params = s.params := rfl
@[simp] theorem State.sendUpload_buf0 (s : State) : (s.sendUpload).buf0 = s.buf0 := rfl
@[simp] theorem State.sendUpload_buf1 (s : State) : (s.sendUpload).buf1 = s.buf1 := rfl
@[simp] theorem State.sendUpload_act (s : State) : (s.sendUpload).act = s.act := rfl
@[simp] theorem State.sendUpload_cur (s : State) : (s.sendUpload).cur = s.cur := rfl
@[simp] theorem State.sendUpload_new (s : State) : (s.sendUpload).new = s.new := rfl
@[simp] theorem State.sendUpload_fp (s : State) : (s.sendUpload).fp = s.fp := rfl
@[simp] theorem State.sendUpload_hour (s : State) : (s.sendUpload).hour = s.hour := rfl
@[simp] theorem State.sendUpload_minute (s : State) : (s.sendUpload).minute = s.minute := rfl
@[simp] theorem State.sendUpload_second (s : State) : (s.sendUpload).second = s.second := rfl
@[simp] theorem State.sendUpload_millis (s : State) : (s.sendUpload).millis = s.millis := rfl
@[simp] theorem State.sendUpload_day (s : State) : (s.sendUpload).day = s.day := rfl
@[simp] theorem State.sendUpload_month (s : State) : (s.sendUpload).month = s.month := rfl
@[simp] theorem State.sendUpload_year (s : State) : (s.sendUpload).year = s.year := rfl
@[simp] theorem State.sendUpload_latRaw (s : State) : (s.sendUpload).latRaw = s.latRaw := rfl
@[simp] theorem State.sendUpload_latFix (s : State) : (s.sendUpload).latFix = s.latFix := rfl
@[simp] theorem State.sendUpload_latHemi (s : State) : (s.sendUpload).latHemi = s.latHemi := rfl
@[simp] theorem State.sendUpload_lonRaw (s : State) : (s.sendUpload).lonRaw = s.lonRaw := rfl
@[simp] theorem State.sendUpload_lonFix (s : State) : (s.sendUpload).lonFix = s.lonFix := rfl
@[simp] theorem State.sendUpload_lonHemi (s : State) : (s.sendUpload).lonHemi = s.lonHemi := rfl
@[simp] theorem State.sendUpload_rvalid (s : State) : (s.sendUpload).rvalid = s.rvalid := rfl
@[simp] theorem State.sendUpload_rxbuf (s : State) : (s.sendUpload).rxbuf = s.rxbuf := rfl
@[simp] theorem State.sendUpload_rxn (s : State) : (s.sendUpload).rxn = s.rxn := rfl
@[simp] theorem State.sendUpload_rxlen (s : State) : (s.sendUpload).rxlen = s.rxlen := rfl
@[simp] theorem State.sendUpload_rxck (s : State) : (s.sendUpload).rxck = s.rxck := rfl
@[simp] theorem State.sendUpload_exp (s : State) : (s.sendUpload).exp = s.exp := rfl
@[simp] theorem State.sendUpload_explen (s : State) : (s.sendUpload).explen = s.explen := rfl
@[simp] theorem State.sendUpload_awst (s : State) : (s.sendUpload).awst = s.awst := rfl
@[simp] theorem State.sendUpload_tmo (s : State) : (s.sendUpload).tmo = s.tmo := rfl
@[simp] theorem State.sendUpload_seq (s : State) : (s.sendUpload).seq = s.seq := rfl
@[simp] theorem State.sendUpload_subcnt (s : State) : (s.sendUpload).subcnt = s.subcnt := rfl
@[simp] theorem State.sendUpload_ubuf (s : State) : (s.sendUpload).ubuf = s.ubuf := rfl
@[simp] theorem State.sendUpload_uplpend (s : State) : (s.sendUpload).uplpend = s.uplpend := rfl
@[simp] theorem State.sendUpload_txOut (s : State) : (s.sendUpload).txOut = s.txOut ++ s.bytesAt .ubuf 0 191 := rfl
@[simp] theorem State.sendUpload_port (s : State) : (s.sendUpload).port = s.port := rfl
@[simp] theorem State.sendUpload_responses (s : State) : (s.sendUpload).responses = s.responses := rfl

@[simp] theorem State.sendUpload_mem (s : State) (S : Space) : (s.sendUpload).mem S = s.mem S := by
  rcases S with (_ | _) | _ | _ | _ <;> rfl

/-- A range of bytes after a store into another array, or outside the stored range. -/
theorem State.store_bytesAt_other (S T : Space) (i a n : Nat) (bs : List Byte) (s : State) (h : (s.mem S).wf = true)
    (ho : T ≠ S ∨ a + n ≤ i ∨ i + bs.length ≤ a) : (s.store S i bs).bytesAt T a n = s.bytesAt T a n := by
  refine Memory.readBytes_congr _ _ _ _ fun j hj1 hj2 => ?_
  show (s.store S i bs).byteAt T j = s.byteAt T j
  rw [State.store_byteAt _ _ _ _ _ _ h, if_neg]
  rintro ⟨rfl, h1, h2⟩
  rcases ho with ho | ho | ho
  · exact ho rfl
  · omega
  · omega

/-- The stored bytes are read back. -/
theorem State.store_bytesAt_same (S : Space) (i : Nat) (bs : List Byte) (s : State) (h : (s.mem S).wf = true) :
    (s.store S i bs).bytesAt S i bs.length = bs := by
  unfold State.bytesAt
  rw [State.store_mem_same]
  exact Memory.readBytes_writeBytes _ _ _ h

theorem State.bytesAt_append (s : State) (S : Space) (a n k : Nat) :
    s.bytesAt S a (n + k) = s.bytesAt S a n ++ s.bytesAt S (a + n) k := Memory.readBytes_append ..

theorem State.bytesAt_succ (s : State) (S : Space) (a n : Nat) :
    s.bytesAt S a (n + 1) = s.bytesAt S a n ++ [s.byteAt S (a + n)] := Memory.readBytes_succ ..

@[simp] theorem State.length_bytesAt (s : State) (S : Space) (a n : Nat) : (s.bytesAt S a n).length = n := Memory.length_readBytes ..

/-- The stable line depends on the parameters, the roles and the stable array only. -/
theorem State.stableLine_congr (s t : State) (hp : t.params = s.params) (ha : t.act = s.act)
    (hm : t.mem (.line (!s.act)) = s.mem (.line (!s.act))) : t.stableLine = s.stableLine := by
  unfold State.stableLine State.line State.bytesAt
  rw [hp, ha, hm]

end Sys2Proof.Machine
end

