-- ==== Sys2Proof/Laws/Ops.lean ====
section
/-!
SUPPORT. What each shared operation can do, once: the responses, the guarded accesses, the wait, the receive step, the port.
-/
namespace Sys2Proof.Machine

/-! ### Responses -/

theorem respond_eq (st : Status) (data : List Byte) (s : State) : respond st data s = .next (s.answer st data) := rfl

theorem fail_eq (st : Status) (s : State) : fail st s = .next (s.answer st []) := rfl

@[simp] theorem respond_next (st : Status) (data : List Byte) (s t : State) :
    respond st data s = .next t ↔ t = s.answer st data := by
  simp [respond, eq_comm]

@[simp] theorem fail_next (st : Status) (s t : State) : fail st s = .next t ↔ t = s.answer st [] :=
  respond_next ..

/-- Two statuses have different codes (30_encoding.md R83). -/
theorem Status.code_injective (a b : Status) (h : a.code = b.code) : a = b := by
  revert h
  cases a <;> cases b <;> decide

/-! ### Guarded accesses -/

@[simp] theorem State.size_line (s : State) (k : Bool) : s.size (.line k) = s.params.maxLine.val := rfl
@[simp] theorem State.size_rxbuf (s : State) : s.size .rxbuf = 191 := rfl
@[simp] theorem State.size_exp (s : State) : s.size .exp = 191 := rfl
@[simp] theorem State.size_ubuf (s : State) : s.size .ubuf = 191 := rfl

theorem withinSpace_next (s t : State) (S : Space) (i n : Nat) (go : Result) :
    withinSpace s S i n go = .next t ↔ i + n ≤ s.size S ∧ go = .next t := by
  unfold withinSpace
  split <;> simp_all

theorem withinSpace_of_le (s : State) (S : Space) (i n : Nat) (go : Result) (h : i + n ≤ s.size S) :
    withinSpace s S i n go = go := if_pos h

theorem storeThen_next (S : Space) (i : Nat) (bs : List Byte) (s t : State) (go : State → Result) :
    storeThen S i bs s go = .next t ↔ i + bs.length ≤ s.size S ∧ go (s.store S i bs) = .next t :=
  withinSpace_next ..

theorem storeThen_of_le (S : Space) (i : Nat) (bs : List Byte) (s : State) (go : State → Result)
    (h : i + bs.length ≤ s.size S) : storeThen S i bs s go = go (s.store S i bs) := if_pos h

/-- A store keeps the canonical form of every array and their bounds. -/
theorem State.store_arrayWf (S T : Space) (i : Nat) (bs : List Byte) (s : State) (hi : i + bs.length ≤ s.size S)
    (hS : s.arrayWf S) (hT : s.arrayWf T) : (s.store S i bs).arrayWf T := by
  unfold State.arrayWf
  rw [State.store_size, State.store_mem]
  split
  · next h =>
    subst h
    exact ⟨Memory.wf_writeBytes _ _ _ hS.1, Memory.within_writeBytes _ _ _ _ hS.2 hi⟩
  · exact hT

/-! ### The wait -/

theorem startWait_next (E : List Byte) (b : Half) (u : Pending) (s t : State) (go : State → Result) :
    startWait E b u s go = .next t ↔
      E.length ≤ 191 ∧ go ((s.store .exp 0 E).waitingFor E.length b u) = .next t := by
  simp [startWait, storeThen_next]

theorem startWait_of_le (E : List Byte) (b : Half) (u : Pending) (s : State) (go : State → Result) (h : E.length ≤ 191) :
    startWait E b u s go = go ((s.store .exp 0 E).waitingFor E.length b u) :=
  storeThen_of_le _ _ _ _ _ (by simpa using h)

/-! ### The receive step -/

/-- The state after `rxStore` stored its byte. -/
def State.rxStored (b : Byte) (s : State) : State := (s.store .rxbuf s.rxn.toNat [b]).rxAdvance

theorem rxStore_next (b : Byte) (s t : State) (go : State → Result) :
    rxStore b s go = .next t ↔ s.rxn.toNat < 191 ∧ go (s.rxStored b) = .next t := by
  unfold rxStore
  rw [storeThen_next]
  exact Iff.rfl

theorem rxStore_of_lt (b : Byte) (s : State) (go : State → Result) (h : s.rxn.toNat < 191) :
    rxStore b s go = go (s.rxStored b) := by
  rw [rxStore, storeThen_of_le _ _ _ _ _ (by simpa using h)]
  simp [State.rxStored]

/-- What the candidate buffer holds after `rxStore` stored its byte. -/
theorem State.rxStored_byteAt (s : State) (b : Byte) (h : s.rxbuf.wf = true) (a : Nat) :
    (s.rxStored b).byteAt .rxbuf a = if a = s.rxn.toNat then b else s.byteAt .rxbuf a := by
  unfold State.rxStored
  rw [State.rxAdvance_byteAt, State.store_byteAt .rxbuf .rxbuf _ _ _ _ h]
  by_cases ha : a = s.rxn.toNat
  · simp [ha]
  · rw [if_neg ha, if_neg]
    simp
    omega

/-- A candidate matches when its length and every byte are the expected ones (44_packet.md R207). -/
theorem candidateMatches_eq (s : State) :
    candidateMatches s = true ↔ s.rxlen = s.explen ∧ ∀ a < s.rxlen.toNat, s.byteAt .rxbuf a = s.byteAt .exp a := by
  unfold candidateMatches
  simp only [Bool.and_eq_true, beq_iff_eq]
  constructor
  · rintro ⟨h1, h2⟩
    refine ⟨h1, fun a ha => ?_⟩
    rw [← h1] at h2
    have := congrArg (fun l => l.getD a 0#8) h2
    simp only [State.bytesAt] at this
    rw [Memory.getD_readBytes _ _ _ _ ha, Memory.getD_readBytes _ _ _ _ ha, Nat.zero_add] at this
    exact this
  · rintro ⟨h1, h2⟩
    refine ⟨h1, ?_⟩
    rw [← h1]
    exact Memory.readBytes_congr _ _ _ _ fun i _ hi => h2 i (by omega)

theorem rxExpect_next (want b : Byte) (s t : State) (go : State → Result) :
    rxExpect want b s go = .next t ↔
      (b = want ∧ s.rxn.toNat < 191 ∧ go (s.rxStored b) = .next t) ∨ (b ≠ want ∧ t = s.rxIdle.answer .pending []) := by
  unfold rxExpect
  split <;> simp_all [rxStore_next]

theorem rxLength_next (b : Byte) (s t : State) :
    rxLength b s = .next t ↔
      (((s.byteAt .rxbuf 2).toNat + 256 * b.toNat < 9 ∨ 191 < (s.byteAt .rxbuf 2).toNat + 256 * b.toNat) ∧
        t = s.rxIdle.answer .pending []) ∨
      (9 ≤ (s.byteAt .rxbuf 2).toNat + 256 * b.toNat ∧ (s.byteAt .rxbuf 2).toNat + 256 * b.toNat ≤ 191 ∧
        s.rxn.toNat < 191 ∧
        t = (((s.rxStored b).rxSum b).rxAnnounce ((s.byteAt .rxbuf 2).toNat + 256 * b.toNat)).answer .pending []) := by
  unfold rxLength
  dsimp only [Config.pktMax]
  by_cases h : (s.byteAt .rxbuf 2).toNat + 256 * b.toNat < 9 ∨ 191 < (s.byteAt .rxbuf 2).toNat + 256 * b.toNat
  · rw [if_pos h, respond_next]
    constructor
    · exact fun ht => .inl ⟨h, ht⟩
    · rintro (⟨_, ht⟩ | ⟨_, _, _, _⟩)
      · exact ht
      · omega
  · rw [if_neg h, rxStore_next, respond_next]
    constructor
    · exact fun ⟨h1, h2⟩ => .inr ⟨by omega, by omega, h1, h2⟩
    · rintro (⟨h1, _⟩ | ⟨_, _, h3, h4⟩)
      · exact absurd h1 h
      · exact ⟨h3, h4⟩

theorem matchWait_next (s t : State) :
    matchWait s = .next t ↔
      (s.uplpend = .unit ∧ s.seq ≠ 0xFFFF#16 ∧
        t = s.advanceSeq.endMatched.answer .matched []) ∨
      (s.uplpend ≠ .unit ∧ t = s.endMatched.answer .matched []) := by
  unfold matchWait
  split
  · split <;> simp_all
  · simp_all

theorem completeCandidate_next (s t : State) :
    completeCandidate s = .next t ↔
      s.rxlen.toNat ≤ 191 ∧
        ((candidateMatches s = true ∧ matchWait s.rxIdle = .next t) ∨
          (candidateMatches s = false ∧ t = s.rxIdle.answer .pending [])) := by
  unfold completeCandidate
  rw [withinSpace_next]
  simp only [State.size_rxbuf, Nat.zero_add]
  cases candidateMatches s <;> simp

/-! ### The port -/

theorem fetch_eq_none (s : State) : fetch s = none ↔ s.port = [] := by
  unfold fetch
  split <;> simp_all

theorem fetch_eq_some (s t : State) (e : PortEvent) :
    fetch s = some (e, t) ↔ ∃ rest, s.port = e :: rest ∧ t = { s with port := rest } := by
  unfold fetch
  split
  · simp_all
  · next d rest h =>
    rw [h]
    simp only [Option.some.injEq, Prod.mk.injEq, List.cons.injEq]
    constructor
    · rintro ⟨rfl, rfl⟩
      exact ⟨rest, ⟨rfl, rfl⟩, rfl⟩
    · rintro ⟨_, ⟨rfl, rfl⟩, rfl⟩
      exact ⟨rfl, rfl⟩

/-- Everything one step can do. -/
theorem step_cases (s t : State) (h : step s = .next t) :
    (s.port = [] ∧ t = s) ∨
    (∃ rest, s.port = .reset :: rest ∧ t = { State.resetWith s.params with port := rest }) ∨
    (∃ w rest i, s.port = .command w :: rest ∧ decode w = .ok i ∧ exec i { s with port := rest } = .next t) ∨
    (∃ w rest e, s.port = .command w :: rest ∧ decode w = .error e ∧
      t = ({ s with port := rest } : State).answer .illegalOp []) := by
  unfold step fetch at h
  rcases hp : s.port with _ | ⟨_ | _, rest⟩
  · simp_all
  · next w =>
    simp only [hp] at h
    cases hd : decode w with
    | ok i =>
      simp only [hd] at h
      exact .inr (.inr (.inl ⟨w, rest, i, rfl, hd, h⟩))
    | error e =>
      simp only [hd, illegalWord, fail_next] at h
      exact .inr (.inr (.inr ⟨w, rest, e, rfl, hd, h⟩))
  · simp only [hp] at h
    refine .inr (.inl ⟨rest, rfl, ?_⟩)
    simpa [assertReset, eq_comm] using h

end Sys2Proof.Machine
end

