-- ==== Sys2Proof/Laws/Meanings.lean ====
section
/-!
SUPPORT. What each meaning can do, once: if it answers a next state, that state is one of those listed.  The conditions are stated on the
state and the operands alone, so that each lemma also says where the operation completes.
-/
namespace Sys2Proof.Machine

/-! ### Line assembler -/

theorem execFeed_next (b : Byte) (s t : State) :
    execFeed b s = .next t ↔
      feedCursor s b + 1 ≤ s.params.maxLine.val ∧
        ((b ≠ Config.term ∧
            t = ((s.store (.line s.act) (feedCursor s b) [b]).setCur (grownCursor s (feedCursor s b))).answer .ok []) ∨
          (b = Config.term ∧ grownCursor s (feedCursor s b) + 1 ≤ s.params.maxLine.val ∧
            t = (((s.store (.line s.act) (feedCursor s b) [b]).store (.line s.act) (grownCursor s (feedCursor s b))
              [0x00#8]).completeLine).answer .ok [])) := by
  have hg (r : State) (c : Nat) (h : r.params = s.params) : grownCursor r c = grownCursor s c := by
    simp [grownCursor, h]
  unfold execFeed
  simp only [storeThen_next, State.size_line, List.length_singleton, hg, State.store_params, State.store_act]
  by_cases hb : b = Config.term
  · simp [hb, storeThen_next]
  · simp [hb]

theorem execHas_eq (s : State) : execHas s = .next (s.answer .ok [bitByte s.new]) := rfl

theorem execTake_eq (s : State) : execTake s = .next (s.claimLine.answer .ok [bitByte (!s.act)]) := rfl

theorem execLread_next (i : Byte) (s t : State) :
    execLread i s = .next t ↔
      (s.params.maxLine.val ≤ i.toNat ∧ t = s.answer .badOperand []) ∨
      (i.toNat < s.params.maxLine.val ∧ t = s.answer .ok [s.byteAt s.stable i.toNat]) := by
  unfold execLread
  split
  · next h => simp [h, Nat.not_lt.2 h]
  · next h => simp [h, Nat.lt_of_not_le h]

/-! ### Checksum engine -/

theorem execXorrng_next (lo hi : Byte) (s t : State) :
    execXorrng lo hi s = .next t ↔
      ((lo.toNat ≤ hi.toNat ∧ hi.toNat ≤ s.params.maxLine.val) ∧
        t = s.answer .ok [xorBytes (s.bytesAt s.stable lo.toNat (hi.toNat - lo.toNat))]) ∨
      (¬(lo.toNat ≤ hi.toNat ∧ hi.toNat ≤ s.params.maxLine.val) ∧ t = s.answer .badOperand []) := by
  unfold execXorrng
  by_cases h : lo.toNat ≤ hi.toNat ∧ hi.toNat ≤ s.params.maxLine.val
  · simp [h]
  · rw [if_neg h]
    simp [h]

theorem execHexr_eq (v : Byte) (s : State) : execHexr v s = .next (s.answer .ok (hexDigits v)) := rfl

theorem execHexp_next (c1 c2 : Byte) (s t : State) :
    execHexp c1 c2 s = .next t ↔
      (hexPair c1 c2 = none ∧ t = s.answer .badHex []) ∨ (∃ v, hexPair c1 c2 = some v ∧ t = s.answer .ok [v]) := by
  unfold execHexp
  split <;> simp_all

theorem execTxframe_next (text : List Byte) (s t : State) :
    execTxframe text s = .next t ↔
      (text = [] ∧ t = s.answer .badOperand []) ∨ (text ≠ [] ∧ t = (s.emit (framedText text)).answer .ok []) := by
  unfold execTxframe
  split <;> simp_all

/-! ### Validator -/

theorem execValid_eq (s : State) :
    execValid s = .next (s.answer (validate s.params s.stableLine).1 (validate s.params s.stableLine).2) := rfl

/-! ### Field decoder -/

theorem execFrst_eq (s : State) : execFrst s = .next ((s.setFp 0).answer .ok []) := rfl

theorem execFnext_next (s t : State) :
    execFnext s = .next t ↔
      ((s.stableLine.length ≤ fieldEnd s.stableLine s.fp.toNat ∨
          s.stableLine.getD (fieldEnd s.stableLine s.fp.toNat) 0#8 = Config.marker) ∧ t = s.answer .noField []) ∨
      ((fieldEnd s.stableLine s.fp.toNat < s.stableLine.length ∧
          s.stableLine.getD (fieldEnd s.stableLine s.fp.toNat) 0#8 ≠ Config.marker) ∧
        t = (s.setFp (fieldEnd s.stableLine s.fp.toNat + 1)).answer .ok
          [BitVec.ofNat 8 (fieldEnd s.stableLine s.fp.toNat + 1)]) := by
  unfold execFnext
  by_cases h : s.stableLine.length ≤ fieldEnd s.stableLine s.fp.toNat ∨
      s.stableLine.getD (fieldEnd s.stableLine s.fp.toNat) 0#8 = Config.marker
  · rw [if_pos h, respond_next]
    have : ¬(fieldEnd s.stableLine s.fp.toNat < s.stableLine.length ∧
        s.stableLine.getD (fieldEnd s.stableLine s.fp.toNat) 0#8 ≠ Config.marker) := by
      rintro ⟨h1, h2⟩
      rcases h with h | h
      · omega
      · exact h2 h
    simp only [h, this, true_and, false_and, or_false]
  · rw [if_neg h, respond_next]
    rw [not_or, Nat.not_le] at h
    simp only [h, true_and, Nat.not_le.2 h.1, false_or, false_and, not_false_eq_true, ne_eq, and_self]

theorem execFempty_eq (s : State) :
    execFempty s = .next (s.answer .ok [bitByte (fieldEmpty s.stableLine s.fp.toNat)]) := rfl

theorem execTimed_next (s t : State) :
    execTimed s = .next t ↔
      (token s.stableLine s.fp.toNat = [] ∧ t = s.answer .empty []) ∨
      (token s.stableLine s.fp.toNat ≠ [] ∧ decodeTime (token s.stableLine s.fp.toNat) = none ∧
        t = s.answer .badField []) ∨
      (token s.stableLine s.fp.toNat ≠ [] ∧
        ∃ f, decodeTime (token s.stableLine s.fp.toNat) = some f ∧ t = (s.commitTime f).answer .ok []) := by
  unfold execTimed
  dsimp only
  split
  · simp_all
  · split <;> simp_all

theorem execDated_next (s t : State) :
    execDated s = .next t ↔
      (token s.stableLine s.fp.toNat = [] ∧ t = s.answer .empty []) ∨
      (token s.stableLine s.fp.toNat ≠ [] ∧ decodeDate (token s.stableLine s.fp.toNat) = none ∧
        t = s.answer .badField []) ∨
      (token s.stableLine s.fp.toNat ≠ [] ∧
        ∃ f, decodeDate (token s.stableLine s.fp.toNat) = some f ∧ t = (s.commitDate f).answer .ok []) := by
  unfold execDated
  dsimp only
  split
  · simp_all
  · split <;> simp_all

theorem execCoord_next (kind : Byte) (s t : State) :
    execCoord kind s = .next t ↔
      (coordKindOf kind = none ∧ t = s.answer .badOperand []) ∨
      ∃ k, coordKindOf kind = some k ∧
        ((token s.stableLine s.fp.toNat = [] ∧ t = s.answer .empty []) ∨
          (token s.stableLine s.fp.toNat ≠ [] ∧
            ((∃ st, decodeCoord k s.stableLine s.fp.toNat = .error st ∧ t = s.answer st []) ∨
              ∃ c, decodeCoord k s.stableLine s.fp.toNat = .ok c ∧ t = (s.commitCoord k c).answer .ok []))) := by
  unfold execCoord
  split
  · simp_all
  · split
    · simp_all
    · split <;> simp_all

/-- The statuses a coordinate decode rejects with. -/
theorem decodeCoord_error (k : CoordKind) (L : List Byte) (p : Nat) (st : Status) (h : decodeCoord k L p = .error st) :
    st = .badField ∨ st = .badHemi ∨ st = .outOfRange := by
  unfold decodeCoord at h
  dsimp only at h
  split at h
  · simp_all
  · split at h
    · simp_all
    · split at h <;> simp_all

theorem execRdreg_next (r : Byte) (s t : State) :
    execRdreg r s = .next t ↔
      (registerOf r = none ∧ t = s.answer .badOperand []) ∨
      (∃ g, registerOf r = some g ∧ t = s.answer .ok (wordBytes (s.readReg g))) := by
  unfold execRdreg
  split <;> simp_all

/-! ### Packets -/

theorem execPsend_next (cmd : Half) (payload : List Byte) (s t : State) :
    execPsend cmd payload s = .next t ↔
      (65526 < payload.length ∧ t = s.answer .tooLong []) ∨
      (payload.length ≤ 65526 ∧ t = (s.emit (packet cmd payload)).answer .ok []) := by
  unfold execPsend
  split
  · next h => simp [h, Nat.not_le.2 h]
  · next h => simp [h, Nat.le_of_not_lt h]

theorem execAwait_next (budget : Half) (expected : List Byte) (s t : State) :
    execAwait budget expected s = .next t ↔
      (s.awst = .waiting ∧ t = s.answer .busy []) ∨
      (s.awst ≠ .waiting ∧ (budget = 0#16 ∨ expected.length = 0 ∨ 191 < expected.length) ∧ t = s.answer .badOperand []) ∨
      (s.awst ≠ .waiting ∧ budget ≠ 0#16 ∧ expected.length ≠ 0 ∧ expected.length ≤ 191 ∧
        t = (((s.store .exp 0 expected).waitingFor expected.length budget .none)).answer .pending []) := by
  unfold execAwait
  by_cases hw : s.awst = .waiting
  · simp [hw]
  · rw [if_neg hw]
    by_cases hb : budget = 0#16 ∨ expected.length = 0 ∨ Config.pktMax < expected.length
    · rw [if_pos hb, fail_next]
      simp only [hw, false_and, false_or, ne_eq, not_false_eq_true, true_and]
      constructor
      · exact fun h => .inl ⟨hb, h⟩
      · rintro (⟨_, h⟩ | ⟨h1, h2, h3, _⟩)
        · exact h
        · rcases hb with hb | hb | hb
          · exact absurd hb h1
          · exact absurd hb h2
          · exact absurd h3 (Nat.not_le.2 hb)
    · rw [if_neg hb, startWait_next, respond_next]
      simp only [not_or, Nat.not_lt] at hb
      simp only [hw, false_and, false_or, ne_eq, not_false_eq_true, true_and]
      constructor
      · exact fun ⟨h1, h2⟩ => .inr ⟨hb.1, hb.2.1, h1, h2⟩
      · rintro (⟨h, _⟩ | ⟨_, _, h3, h4⟩)
        · rcases h with h | h | h
          · exact absurd h hb.1
          · exact absurd h hb.2.1
          · exact absurd hb.2.2 (Nat.not_le.2 h)
        · exact ⟨h3, h4⟩

theorem execPrx_of_waiting (b : Byte) (s : State) (h : s.awst = .waiting) : execPrx b s = rxStep b s := by
  unfold execPrx
  rw [if_neg (not_not.2 h)]

/-- What a received byte can do in a wait, by the named state of the receive machine (44_packet.md R204, R205). -/
theorem execPrx_next (b : Byte) (s t : State) (h : execPrx b s = .next t) :
    (s.awst ≠ .waiting ∧ t = s.answer .notWaiting []) ∨
    (s.awst = .waiting ∧
      ((s.rxState = .idle ∧ b ≠ Config.pre0 ∧ t = s.answer .pending []) ∨
       (s.rxState = .idle ∧ b = Config.pre0 ∧ s.rxn.toNat < 191 ∧ t = (s.rxStored b).answer .pending []) ∨
       (s.rxState = .sawPreamble1 ∧ b = Config.pre1 ∧ s.rxn.toNat < 191 ∧
         t = (s.rxStored b).rxClearSum.answer .pending []) ∨
       (s.rxState = .sawPreamble1 ∧ b = Config.pre0 ∧ t = s.answer .pending []) ∨
       (s.rxState = .sawPreamble1 ∧ b ≠ Config.pre1 ∧ b ≠ Config.pre0 ∧ t = s.rxIdle.answer .pending []) ∨
       ((s.rxState = .sawPreamble2 ∨ s.rxState = .readingCommand ∨ s.rxState = .readingPayload) ∧ s.rxn.toNat < 191 ∧
         t = ((s.rxStored b).rxSum b).answer .pending []) ∨
       (s.rxState = .readingLength ∧ rxLength b s = .next t) ∨
       (s.rxState = .readingChecksum ∧ b = s.rxck ∧ s.rxn.toNat < 191 ∧ t = (s.rxStored b).answer .pending []) ∨
       (s.rxState = .readingChecksum ∧ b ≠ s.rxck ∧ t = s.rxIdle.answer .pending []) ∨
       (s.rxState = .readingEnd1 ∧ b = Config.end0 ∧ s.rxn.toNat < 191 ∧ t = (s.rxStored b).answer .pending []) ∨
       (s.rxState = .readingEnd1 ∧ b ≠ Config.end0 ∧ t = s.rxIdle.answer .pending []) ∨
       (s.rxState = .readingEnd2 ∧ b = Config.end1 ∧ s.rxn.toNat < 191 ∧ completeCandidate (s.rxStored b) = .next t) ∨
       (s.rxState = .readingEnd2 ∧ b ≠ Config.end1 ∧ t = s.rxIdle.answer .pending []))) := by
  by_cases hw : s.awst = .waiting
  · rw [execPrx_of_waiting b s hw, rxStep] at h
    simp only [hw, ne_eq, not_true_eq_false, false_and, false_or, true_and]
    cases hr : s.rxState <;> simp only [hr] at h <;> simp only [reduceCtorEq, false_and, true_and, false_or, or_false]
    · by_cases hb : b = Config.pre0
      · rw [if_pos hb, rxStore_next, respond_next] at h
        exact .inr ⟨hb, h⟩
      · rw [if_neg hb, respond_next] at h
        exact .inl ⟨hb, h⟩
    · by_cases hb : b = Config.pre1
      · rw [if_pos hb, rxStore_next, respond_next] at h
        exact .inl ⟨hb, h⟩
      · rw [if_neg hb] at h
        by_cases hb' : b = Config.pre0
        · rw [if_pos hb', respond_next] at h
          exact .inr (.inl ⟨hb', h⟩)
        · rw [if_neg hb', respond_next] at h
          exact .inr (.inr ⟨hb, hb', h⟩)
    · rw [rxStore_next, respond_next] at h
      simpa using h
    · exact h
    · rw [rxStore_next, respond_next] at h
      simpa using h
    · rw [rxStore_next, respond_next] at h
      simpa using h
    · rw [rxExpect_next, respond_next] at h
      exact h
    · rw [rxExpect_next, respond_next] at h
      exact h
    · rw [rxExpect_next] at h
      exact h
  · unfold execPrx at h
    rw [if_pos hw, fail_next] at h
    exact .inl ⟨hw, h⟩

/-- The states a received byte can lead to, without their conditions: enough for the fields `PRX` never writes. -/
theorem execPrx_updates (b : Byte) (s t : State) (h : execPrx b s = .next t) :
    (s.awst ≠ .waiting ∧ t = s.answer .notWaiting []) ∨
    (s.awst = .waiting ∧
      (t = s.answer .pending [] ∨ t = s.rxIdle.answer .pending [] ∨
       t = (s.rxStored b).answer .pending [] ∨ t = (s.rxStored b).rxClearSum.answer .pending [] ∨
       t = ((s.rxStored b).rxSum b).answer .pending [] ∨
       (∃ n, t = (((s.rxStored b).rxSum b).rxAnnounce n).answer .pending []) ∨
       t = (s.rxStored b).rxIdle.answer .pending [] ∨
       (s.uplpend = .unit ∧ s.seq ≠ 0xFFFF#16 ∧
         t = (s.rxStored b).rxIdle.advanceSeq.endMatched.answer .matched []) ∨
       (s.uplpend ≠ .unit ∧ t = (s.rxStored b).rxIdle.endMatched.answer .matched []))) := by
  have hu : (s.rxStored b).rxIdle.uplpend = s.uplpend := by simp [State.rxStored]
  have hq : (s.rxStored b).rxIdle.seq = s.seq := by simp [State.rxStored]
  rcases execPrx_next b s t h with ⟨hw, ht⟩ | ⟨hw, h⟩
  · exact .inl ⟨hw, ht⟩
  · refine .inr ⟨hw, ?_⟩
    rcases h with ⟨_, _, ht⟩ | ⟨_, _, _, ht⟩ | ⟨_, _, _, ht⟩ | ⟨_, _, ht⟩ | ⟨_, _, _, ht⟩ | ⟨_, _, ht⟩ | ⟨_, hl⟩ | ⟨_, _, _, ht⟩ |
      ⟨_, _, ht⟩ | ⟨_, _, _, ht⟩ | ⟨_, _, ht⟩ | ⟨_, _, _, hc⟩ | ⟨_, _, ht⟩
    · exact .inl ht
    · exact .inr (.inr (.inl ht))
    · exact .inr (.inr (.inr (.inl ht)))
    · exact .inl ht
    · exact .inr (.inl ht)
    · exact .inr (.inr (.inr (.inr (.inl ht))))
    · rcases (rxLength_next _ _ _).1 hl with ⟨_, ht⟩ | ⟨_, _, _, ht⟩
      · exact .inr (.inl ht)
      · exact .inr (.inr (.inr (.inr (.inr (.inl ⟨_, ht⟩)))))
    · exact .inr (.inr (.inl ht))
    · exact .inr (.inl ht)
    · exact .inr (.inr (.inl ht))
    · exact .inr (.inl ht)
    · rcases (completeCandidate_next _ _).1 hc with ⟨_, ⟨_, hm⟩ | ⟨_, ht⟩⟩
      · have hm := (matchWait_next _ _).1 hm
        rw [hu, hq] at hm
        rcases hm with ⟨h1, h2, ht⟩ | ⟨h1, ht⟩
        · exact .inr (.inr (.inr (.inr (.inr (.inr (.inr (.inl ⟨h1, h2, ht⟩)))))))
        · exact .inr (.inr (.inr (.inr (.inr (.inr (.inr (.inr ⟨h1, ht⟩)))))))
      · exact .inr (.inr (.inr (.inr (.inr (.inr (.inl ht))))))
    · exact .inr (.inl ht)

theorem execTick_next (s t : State) :
    execTick s = .next t ↔
      (s.awst ≠ .waiting ∧ t = s.answer .notWaiting []) ∨
      (s.awst = .waiting ∧ s.tmo = 1#16 ∧ t = s.endTimedOut.answer .timedOut []) ∨
      (s.awst = .waiting ∧ s.tmo ≠ 0#16 ∧ s.tmo ≠ 1#16 ∧ t = s.tickDown.answer .pending []) := by
  unfold execTick
  by_cases hw : s.awst = .waiting
  · simp only [hw, ne_eq, not_true_eq_false, if_false, false_and, false_or, true_and]
    by_cases h0 : s.tmo = 0#16
    · simp [h0]
    · by_cases h1 : s.tmo = 1#16
      · simp [h1]
      · simp [h0, h1]
  · simp [hw]

/-! ### Upload -/

theorem execUbegin_next (s t : State) :
    execUbegin s = .next t ↔
      (s.awst = .waiting ∧ t = s.answer .busy []) ∨ (s.awst ≠ .waiting ∧ t = s.restartUpload.answer .ok []) := by
  unfold execUbegin
  by_cases hw : s.awst = .waiting <;> simp [hw]

/-- The state after the sealed packet was sent and the wait for `ACK_OF(q)` started. -/
def State.uploadSent (q : Half) (u : Pending) (s : State) : State :=
  ((((s.sealUpload q).sendUpload).setSubcnt 0).store .exp 0 (ackOf s.params q)).waitingFor
    (ackOf s.params q).length s.params.uplTmo u

theorem execUsub_next (d : List Byte) (s t : State) :
    execUsub d s = .next t ↔
      (s.awst = .waiting ∧ t = s.answer .busy []) ∨
      (s.awst ≠ .waiting ∧ s.seq = 0xFFFF#16 ∧ t = s.answer .seqExhausted []) ∨
      (s.awst ≠ .waiting ∧ s.seq ≠ 0xFFFF#16 ∧ subOffset s.subcnt.val + d.length ≤ 191 ∧
        ((s.subcnt.val < 2 ∧
            t = ((s.store .ubuf (subOffset s.subcnt.val) d).setSubcnt (s.subcnt + 1)).answer .ok []) ∨
          (¬s.subcnt.val < 2 ∧ (ackOf s.params s.seq).length ≤ 191 ∧
            t = ((s.store .ubuf (subOffset s.subcnt.val) d).uploadSent s.seq .unit).answer .pending []))) := by
  unfold execUsub
  by_cases hw : s.awst = .waiting
  · rw [if_pos hw, fail_next]
    simp only [hw, ne_eq, not_true_eq_false, false_and, or_false, true_and]
  · by_cases hs : s.seq = 0xFFFF#16
    · rw [if_neg hw, if_pos hs, fail_next]
      simp only [hw, hs, ne_eq, not_true_eq_false, false_and, or_false, true_and, false_or, not_false_eq_true]
    · rw [if_neg hw, if_neg hs, storeThen_next]
      simp only [hw, hs, false_and, false_or, ne_eq, not_false_eq_true, true_and, State.size_ubuf, State.store_subcnt]
      by_cases hk : s.subcnt.val < 2
      · simp only [hk, if_true, respond_next, true_and, not_true_eq_false, false_and, or_false]
      · simp only [hk, if_false, false_and, false_or, not_false_eq_true, true_and, startWait_next, respond_next,
          State.uploadSent, State.store_params, State.store_seq, State.sendUpload_params, State.sealUpload_params,
          State.sendUpload_seq, State.sealUpload_seq]

theorem execUfin_next (s t : State) :
    execUfin s = .next t ↔
      (s.awst = .waiting ∧ t = s.answer .busy []) ∨
      (s.awst ≠ .waiting ∧ s.subcnt ≠ 0 ∧ t = s.answer .badState []) ∨
      (s.awst ≠ .waiting ∧ s.subcnt = 0 ∧ (ackOf s.params 0xFFFF#16).length ≤ 191 ∧
        t = ((s.store .ubuf 8 (List.replicate 180 0x00#8)).uploadSent 0xFFFF#16 .final).answer .pending []) := by
  have h0 : ∀ r : State, r.subcnt = 0 → r.setSubcnt 0 = r := by
    intro r hr
    rw [State.setSubcnt, ← hr]
  unfold execUfin
  by_cases hw : s.awst = .waiting
  · rw [if_pos hw, fail_next]
    simp only [hw, ne_eq, not_true_eq_false, false_and, or_false, true_and]
  · by_cases hk : s.subcnt = 0
    · have h1 := h0 ((s.store .ubuf 8 (List.replicate 180 0x00#8)).sealUpload 0xFFFF#16).sendUpload
        (by simp only [State.sendUpload_subcnt, State.sealUpload_subcnt, State.store_subcnt, hk])
      rw [if_neg hw, if_neg (not_not.2 hk)]
      simp only [startWait_next, respond_next, hw, hk, false_and, false_or, ne_eq, not_false_eq_true, not_true_eq_false,
        true_and, State.uploadSent, State.store_params, State.sendUpload_params, State.sealUpload_params, h1]
    · rw [if_neg hw, if_pos hk, fail_next]
      simp only [hw, hk, ne_eq, not_false_eq_true, false_and, or_false, true_and, false_or]

end Sys2Proof.Machine
end

