-- ==== Sys2Proof/Laws/Operands.lean ====
section
/-!
SUPPORT. What the operand forms are, once: the stable line, tokens and field ends, decimal numerals, hexadecimal digits and the XOR, each
against the notion of `Safety.lean` that the statements use.
-/
namespace Sys2Proof.Machine

/-! ### The stable line (00_scope.md R12) -/

theorem State.stableLine_length (s : State) : s.stableLine.length ≤ s.params.maxLine.val := by
  unfold State.stableLine State.line State.bytesAt
  exact (List.takeWhile_sublist _).length_le.trans (by simp)

theorem State.stableLine_ne_zero (s : State) (b : Byte) (h : b ∈ s.stableLine) : b ≠ 0#8 := by
  have := List.mem_takeWhile_imp h
  simpa using this

/-! ### Tokens (43_field_decoder.md R173) -/

theorem isDelimiter_eq (b : Byte) : isDelimiter b = true ↔ b = 0x2C#8 ∨ b = 0x2A#8 := by
  simp [isDelimiter]

theorem not_isDelimiter_eq (b : Byte) : (!isDelimiter b) = true ↔ b ≠ 0x2C#8 ∧ b ≠ 0x2A#8 := by
  simp [isDelimiter]

theorem takeWhile_append_stop {α : Type} (q : α → Bool) (xs ys : List α) (hx : ∀ x ∈ xs, q x = true)
    (hy : ∀ y ∈ ys.head?, q y = false) : (xs ++ ys).takeWhile q = xs := by
  induction xs with
  | nil => cases ys <;> simp_all
  | cons x xs ih => simp_all

theorem token_of_isTokenAt (L : List Byte) (p : Nat) (T : List Byte) (h : IsTokenAt L p T) : token L p = T := by
  obtain ⟨tail, hL, hT, htail⟩ := h
  rw [token, hL]
  refine takeWhile_append_stop _ _ _ ?_ ?_
  · intro b hb
    exact (not_isDelimiter_eq b).2 (hT b hb)
  · intro b hb
    rw [(isDelimiter_eq b).2 (htail b hb)]
    rfl

theorem isTokenAt_token (L : List Byte) (p : Nat) : IsTokenAt L p (token L p) := by
  refine ⟨(L.drop p).dropWhile fun b => !isDelimiter b, (List.takeWhile_append_dropWhile ..).symm, ?_, ?_⟩
  · intro b hb
    exact (not_isDelimiter_eq b).1 (List.mem_takeWhile_imp (p := fun c => !isDelimiter c) hb)
  · intro b hb
    have := List.head?_dropWhile_not (fun b => !isDelimiter b) (L.drop p)
    rw [hb] at this
    exact (isDelimiter_eq b).1 (by simpa using this)

theorem getElem?_after_token (L : List Byte) (p : Nat) (T tail : List Byte) (h : L.drop p = T ++ tail) :
    L[p + T.length]? = tail.head? := by
  have := congrArg (fun l => l[T.length]?) h
  simpa [List.getElem?_append_right, List.head?_eq_getElem?] using this

/-- The byte after a token is a comma, a marker, or not there. -/
theorem getElem?_after_isTokenAt (L : List Byte) (p : Nat) (T : List Byte) (h : IsTokenAt L p T) :
    L[p + T.length]? = none ∨ L[p + T.length]? = some 0x2C#8 ∨ L[p + T.length]? = some 0x2A#8 := by
  obtain ⟨tail, hL, -, htail⟩ := h
  rw [getElem?_after_token L p T tail hL]
  cases tail with
  | nil => exact .inl rfl
  | cons b l => exact .inr (by simpa using htail b rfl)

theorem fieldEnd_of_isTokenAt (L : List Byte) (p : Nat) (T : List Byte) (h : IsTokenAt L p T) :
    (L.length ≤ fieldEnd L p ↔ L[p + T.length]? = none) ∧
      (fieldEnd L p < L.length → fieldEnd L p = p + T.length) := by
  have ht := token_of_isTokenAt L p T h
  unfold fieldEnd
  rw [ht]
  split
  · simp
  · rw [List.getElem?_eq_none_iff]
    omega

theorem fieldEmpty_of_isTokenAt (L : List Byte) (p : Nat) (T : List Byte) (h : IsTokenAt L p T) :
    fieldEmpty L p = decide (T = []) := by
  obtain ⟨tail, hL, hT, htail⟩ := h
  unfold fieldEmpty
  cases T with
  | nil =>
    cases tail with
    | nil => simp_all
    | cons b l =>
      have hb := htail b rfl
      have : L[p + 0]? = some b := by
        rw [← List.getElem?_drop, hL]
        rfl
      rw [Nat.add_zero] at this
      simp [List.getD_eq_getElem?_getD, this, isDelimiter, hb]
  | cons c T =>
    have hc := hT c (by simp)
    have : L[p + 0]? = some c := by
      rw [← List.getElem?_drop, hL]
      rfl
    rw [Nat.add_zero] at this
    have hlt : p < L.length := (List.getElem?_eq_some_iff.1 this).1
    simp [List.getD_eq_getElem?_getD, this, isDelimiter, hc]
    omega

/-! ### Decimal numerals (R174) -/

theorem isDigit_eq (c : Byte) : isDigit c = true ↔ 0x30 ≤ c.toNat ∧ c.toNat ≤ 0x39 := by
  simp [isDigit]

theorem digits_of_allDigits (I rest : List Byte) (h : allDigits I) (hr : ∀ c ∈ rest.head?, isDigit c = false) :
    digits (I ++ rest) = I :=
  takeWhile_append_stop _ _ _ (fun c hc => (isDigit_eq c).2 (h c hc)) hr

theorem allDigits_digits (T : List Byte) : allDigits (digits T) := fun c hc =>
  (isDigit_eq c).1 (List.mem_takeWhile_imp hc)

theorem digits_eq_self (T : List Byte) : digits T = T ↔ allDigits T := by
  constructor
  · intro h
    rw [← h]
    exact allDigits_digits T
  · intro h
    simpa using digits_of_allDigits T [] h (by simp)

theorem value_append (a b : List Byte) : value (a ++ b) = value a * 10 ^ b.length + value b := by
  have h (b : List Byte) : ∀ v, b.foldl (fun v c => 10 * v + (c.toNat - 0x30)) v = v * 10 ^ b.length + value b := by
    induction b with
    | nil => simp [value]
    | cons c b ih =>
      intro v
      have h0 : value (c :: b) = (c.toNat - 0x30) * 10 ^ b.length + value b := by
        rw [← ih, value, List.foldl_cons]
        simp
      rw [List.foldl_cons, ih, h0, List.length_cons, pow_succ]
      ring
  rw [value, List.foldl_append, h]
  rfl

theorem value_eq_decimal (ds : List Byte) : value ds = decimal ds := by
  induction ds using List.reverseRecOn with
  | nil => rfl
  | append_singleton ds c ih =>
    rw [value_append, ih, decimal, decimal, List.map_append, List.reverse_append]
    simp [Nat.ofDigits_cons, value]
    ring

theorem decimal_append (a b : List Byte) : decimal (a ++ b) = decimal a * 10 ^ b.length + decimal b := by
  rw [← value_eq_decimal, value_append, value_eq_decimal, value_eq_decimal]

theorem decimal_lt (ds : List Byte) (h : allDigits ds) : decimal ds < 10 ^ ds.length := by
  induction ds using List.reverseRecOn with
  | nil => simp [decimal]
  | append_singleton ds c ih =>
    have h1 := ih fun c hc => h c (by simp [hc])
    have h2 := h c (by simp)
    rw [decimal_append, List.length_append]
    simp only [List.length_singleton, pow_succ, pow_zero, one_mul]
    have h3 : decimal [c] = c.toNat - 0x30 := by simp [decimal]
    omega

theorem padDigits_eq (k : Nat) (F : List Byte) : padDigits k F = (F ++ List.replicate k 0x30#8).take k := rfl

theorem length_padDigits (k : Nat) (F : List Byte) : (padDigits k F).length = k := by
  simp [padDigits]

theorem allDigits_padDigits (k : Nat) (F : List Byte) (h : allDigits F) : allDigits (padDigits k F) := by
  intro c hc
  have := List.mem_of_mem_take hc
  rw [List.mem_append] at this
  rcases this with h' | h'
  · exact h c h'
  · rw [List.eq_of_mem_replicate h']
    decide

theorem digits_append_drop (T : List Byte) : digits T ++ T.drop (digits T).length = T := by
  obtain ⟨r, hr⟩ : digits T <+: T := List.takeWhile_prefix _
  have : (digits T ++ r).drop (digits T).length = r := by simp
  rw [hr] at this
  rw [this, hr]

/-- The fraction of a time token (R175). -/
theorem fractionOf_eq (R F : List Byte) :
    fractionOf R = some F ↔ allDigits F ∧ (R = [] ∧ F = [] ∨ R = 0x2E#8 :: F) := by
  unfold fractionOf
  cases R with
  | nil =>
    constructor
    · intro h
      obtain rfl : [] = F := by simpa using h
      exact ⟨(by intro c hc; cases hc), .inl ⟨rfl, rfl⟩⟩
    · rintro ⟨_, ⟨_, rfl⟩ | h⟩
      · rfl
      · simp at h
  | cons b R =>
    simp only [digits_eq_self, Option.ite_none_right_eq_some, Option.some.injEq, reduceCtorEq, false_and, List.cons.injEq,
      false_or]
    constructor
    · rintro ⟨⟨rfl, h⟩, rfl⟩
      exact ⟨h, rfl, rfl⟩
    · rintro ⟨h, rfl, rfl⟩
      exact ⟨⟨rfl, h⟩, rfl⟩

/-- The grammar of a coordinate token, `digit{1,5} '.' digit*` (R180). -/
theorem coordDigits_eq (T I F : List Byte) :
    coordDigits T = some (I, F) ↔ T = I ++ [0x2E#8] ++ F ∧ allDigits I ∧ allDigits F ∧ 1 ≤ I.length ∧ I.length ≤ 5 := by
  constructor
  · intro h
    unfold coordDigits at h
    dsimp only at h
    split at h
    · simp at h
    · next hl =>
      split at h
      · simp at h
      · next b R hR =>
        simp only [Option.ite_none_right_eq_some, Option.some.injEq, Prod.mk.injEq] at h
        obtain ⟨⟨hb, hF⟩, rfl, rfl⟩ := h
        refine ⟨?_, allDigits_digits T, (digits_eq_self _).1 hF, by omega, by omega⟩
        have := digits_append_drop T
        rw [hR, hb] at this
        rw [← this]
        simp [this]
  · rintro ⟨rfl, hI, hF, h1, h5⟩
    have hd : digits (I ++ [0x2E#8] ++ F) = I := by
      rw [List.append_assoc]
      exact digits_of_allDigits _ _ hI (by simp; decide)
    unfold coordDigits
    rw [hd]
    dsimp only
    rw [if_neg (by omega)]
    simp [(digits_eq_self F).2 hF]

/-- The hemisphere letter (R182): the first byte of the field after a comma, one of the four letters. -/
theorem hemisphereAfter_eq (L : List Byte) (e : Nat) (h : Byte) :
    hemisphereAfter L e = some h ↔ h ∈ [0x4E#8, 0x53#8, 0x45#8, 0x57#8] ∧ ∃ rest, L.drop e = 0x2C#8 :: h :: rest := by
  have key : ∀ h : Byte, isHemisphere h = true ↔ h ∈ [0x4E#8, 0x53#8, 0x45#8, 0x57#8] := by
    intro h
    simp [isHemisphere, or_assoc]
  have hd : ∀ h : Byte, isHemisphere h = true → isDelimiter h = false := by decide
  have hget (a : Nat) (b : Option Byte) (hb : (L.drop e)[a]? = b) : L[e + a]? = b := by
    rw [← List.getElem?_drop, hb]
  unfold hemisphereAfter fieldEmpty
  rcases hL : L.drop e with _ | ⟨a, _ | ⟨b, rest⟩⟩
  · have : L.length ≤ e := by simpa using hL
    simp [this]
  · have h1 := hget 1 none (by rw [hL]; rfl)
    rw [List.getElem?_eq_none_iff] at h1
    simp [h1]
  · have h0 := hget 0 (some a) (by rw [hL]; rfl)
    have h1 := hget 1 (some b) (by rw [hL]; rfl)
    rw [Nat.add_zero] at h0
    have hl := (List.getElem?_eq_some_iff.1 h1).1
    have hx : ¬L.length ≤ e := by omega
    have hy : ¬L.length ≤ e + 1 := by omega
    rw [List.getD_eq_getElem?_getD, h0, List.getD_eq_getElem?_getD, h1]
    simp only [hx, hy, false_or, Option.getD_some, decide_false, Bool.false_or, List.cons.injEq]
    rw [← key]
    by_cases ha : a = Config.comma
    · subst ha
      simp only [ne_eq, not_true_eq_false, if_false, Option.ite_none_left_eq_some, Bool.not_eq_true,
        Option.ite_none_right_eq_some, Option.some.injEq, true_and, exists_and_left, exists_eq', and_true]
      constructor
      · rintro ⟨_, h2, rfl⟩
        exact ⟨h2, rfl⟩
      · rintro ⟨h2, rfl⟩
        exact ⟨hd _ h2, h2, rfl⟩
    · simp [ha]

/-- The rounding of R181 is the rounded quotient. -/
theorem rounded_eq (N D q : Nat) (h : IsRounded N D q) : (2 * N * 10 ^ 7 + D) / (2 * D) = q := by
  obtain ⟨h1, h2⟩ := h
  apply Nat.div_eq_of_lt_le
  · calc q * (2 * D) = 2 * q * D := by ring
      _ ≤ _ := h1
  · calc _ < _ := h2
      _ = (q + 1) * (2 * D) := by ring

/-! ### Hexadecimal digits (40_checksum.md R115) -/

theorem hexval_hexdigit : ∀ d < 16, hexval (hexdigit d) = some d := by decide

theorem hexval_lt (c : Byte) (d : Nat) (h : hexval c = some d) : d < 16 := by
  unfold hexval at h
  split at h
  · simp at h; omega
  · split at h
    · simp at h; omega
    · simp at h

theorem hexPair_eq_some (c1 c2 e : Byte) :
    hexPair c1 c2 = some e ↔ ∃ h l, hexval c1 = some h ∧ hexval c2 = some l ∧ e.toNat = 16 * h + l := by
  unfold hexPair
  cases h1 : hexval c1 <;> cases h2 : hexval c2 <;> simp
  next h l =>
  have := hexval_lt _ _ h1
  have := hexval_lt _ _ h2
  rw [← BitVec.toNat_inj, BitVec.toNat_ofNat, Nat.mod_eq_of_lt (by omega)]
  exact eq_comm

theorem hexPair_hexDigits (v : Byte) : hexPair (hexdigit (v.toNat / 16)) (hexdigit (v.toNat % 16)) = some v := by
  rw [hexPair_eq_some]
  refine ⟨_, _, hexval_hexdigit _ (by omega), hexval_hexdigit _ (by omega), by omega⟩

/-! ### The XOR (40_checksum.md R110) -/

@[simp] theorem xorBytes_nil : xorBytes [] = 0#8 := rfl

theorem foldl_xor (bs : List Byte) : ∀ v : Byte, bs.foldl (fun v b => v ^^^ b) v = v ^^^ xorBytes bs := by
  induction bs with
  | nil => simp [xorBytes]
  | cons b bs ih =>
    intro v
    have h0 : xorBytes (b :: bs) = b ^^^ xorBytes bs := by
      rw [← ih, xorBytes, List.foldl_cons]
      simp
    rw [List.foldl_cons, ih, h0, BitVec.xor_assoc]

theorem xorBytes_cons (b : Byte) (bs : List Byte) : xorBytes (b :: bs) = b ^^^ xorBytes bs := by
  rw [← foldl_xor, xorBytes, List.foldl_cons]
  simp

theorem xorBytes_append (a b : List Byte) : xorBytes (a ++ b) = xorBytes a ^^^ xorBytes b := by
  rw [xorBytes, List.foldl_append, foldl_xor]
  rfl

/-- Replacing exactly one byte by a different byte changes the XOR (R110). -/
theorem xorBytes_set_ne (bs : List Byte) (i : Nat) (b : Byte) (hi : i < bs.length) (hb : bs[i] ≠ b) :
    xorBytes (bs.set i b) ≠ xorBytes bs := by
  induction bs generalizing i with
  | nil => simp at hi
  | cons c bs ih =>
    cases i with
    | zero =>
      simp only [List.set_cons_zero, xorBytes_cons]
      intro h
      exact hb ((BitVec.xor_left_inj (xorBytes bs)).1 h).symm
    | succ i =>
      simp only [List.set_cons_succ, xorBytes_cons]
      intro h
      exact ih i (by simpa using hi) (by simpa using hb) ((BitVec.xor_right_inj c).1 h)

end Sys2Proof.Machine
end

