-- ==== Sys2Proof/Laws/PerInstr.lean ====
section
/-!
SUPPORT. One statement about every instruction: the word the encoder writes has the length that 30_encoding.md R81 gives for its first byte.
-/
namespace Sys2Proof.Laws.EncodedLength

/-- The command word of a well-formed operation has the length R81 tells from the word (R80, R81, R84). -/
def Statement (i : Instr) : Prop := i.wf = true → wordLength (encode i) = some (encode i).length

/-- What is left of the statement once the row of the opcode is found. -/
theorem statement_of (i : Instr)
    (h : i.wf = true → i.opcode.format.totalLength i.operandBytes = i.operandBytes.length + 1) : Statement i := by
  intro hw
  simp [encode, wordLength, opcodeOf_byte, h hw]

theorem feed (b : Byte) : Statement (.feed b) := statement_of _ fun _ => rfl

theorem has : Statement (.has) := statement_of _ fun _ => rfl

theorem take : Statement (.take) := statement_of _ fun _ => rfl

theorem lread (i : Byte) : Statement (.lread i) := statement_of _ fun _ => rfl

theorem xorrng (lo : Byte) (hi : Byte) : Statement (.xorrng lo hi) := statement_of _ fun _ => rfl

theorem hexr (v : Byte) : Statement (.hexr v) := statement_of _ fun _ => rfl

theorem hexp (c1 : Byte) (c2 : Byte) : Statement (.hexp c1 c2) := statement_of _ fun _ => rfl

theorem txframe (text : List Byte) : Statement (.txframe text) := statement_of _ <| by
  simp [Instr.wf, Instr.opcode, Opcode.format, Format.totalLength, Instr.operandBytes]
  omega

theorem valid : Statement (.valid) := statement_of _ fun _ => rfl

theorem frst : Statement (.frst) := statement_of _ fun _ => rfl

theorem fnext : Statement (.fnext) := statement_of _ fun _ => rfl

theorem fempty : Statement (.fempty) := statement_of _ fun _ => rfl

theorem timed : Statement (.timed) := statement_of _ fun _ => rfl

theorem dated : Statement (.dated) := statement_of _ fun _ => rfl

theorem coord (kind : Byte) : Statement (.coord kind) := statement_of _ fun _ => rfl

theorem rdreg (r : Byte) : Statement (.rdreg r) := statement_of _ fun _ => rfl

theorem psend (cmd : Half) (payload : List Byte) : Statement (.psend cmd payload) := statement_of _ <| by
  simp [Instr.wf, Instr.opcode, Opcode.format, Format.totalLength, Instr.operandBytes]
  omega

theorem await (budget : Half) (expected : List Byte) : Statement (.await budget expected) := statement_of _ <| by
  simp [Instr.wf, Instr.opcode, Opcode.format, Format.totalLength, Instr.operandBytes]
  omega

theorem prx (b : Byte) : Statement (.prx b) := statement_of _ fun _ => rfl

theorem tick : Statement (.tick) := statement_of _ fun _ => rfl

theorem ubegin : Statement (.ubegin) := statement_of _ fun _ => rfl

theorem usub (d : List Byte) : Statement (.usub d) := statement_of _ <| by
  simp [Instr.wf, Instr.opcode, Opcode.format, Format.totalLength, Instr.operandBytes]
  omega

theorem ufin : Statement (.ufin) := statement_of _ fun _ => rfl

end Sys2Proof.Laws.EncodedLength
end

