-- ==== Sys2Proof/Laws/Upload.lean ====
section
/-!
SUPPORT. What the upload sequencer writes and sends (45_upload.md R231, R233; 30_encoding.md R87): the sealed buffer is the packet of the
upload command, and starting the wait loads the acknowledgement.
-/
namespace Sys2Proof.Machine

/-- Every acknowledgement fits the expected-packet buffer (00_scope.md R8). -/
theorem ackOf_length (p : Config.Params) (hp : p.wf = true) (q : Half) : 9 ≤ (ackOf p q).length ∧ (ackOf p q).length ≤ 191 := by
  unfold ackOf
  split
  · next e he =>
    have hm : (q, e) ∈ p.ackTable := by
      obtain ⟨a, b, h, -⟩ := List.lookup_eq_some_iff.1 he
      rw [h]
      simp
    simp only [Config.Params.wf, Bool.and_eq_true, List.all_eq_true, decide_eq_true_eq] at hp
    exact hp.1.2 (q, e) hm
  · simp [packet, packetBody]

theorem length_uploadHead (p : Config.Params) (q : Half) : (uploadHead p q).length = 8 := rfl

/-- The packet of the upload command and 182 payload bytes has the head of R87. -/
theorem packetBody_upload (p : Config.Params) (q : Half) (area : List Byte) (h : area.length = 180) :
    packetBody p.uplCmd ([lo8 q, hi8 q] ++ area) =
      [0xBF#8, 0x00#8, lo8 p.uplCmd, hi8 p.uplCmd, lo8 q, hi8 q] ++ area := by
  have hl : 9 + ([lo8 q, hi8 q] ++ area).length = 191 := by simp [h]
  unfold packetBody
  dsimp only
  rw [hl]
  rfl

/-- Every byte of `UBUF` after the packet was sealed. -/
theorem State.sealUpload_read (s : State) (q : Half) (hwf : s.ubuf.wf = true) (i : Nat) :
    Memory.read (s.sealUpload q).ubuf i =
      if i = 189 then Config.end0 else if i = 190 then Config.end1
      else if i = 188 then xorBytes (Memory.readBytes (s.ubuf.writeBytes 0 (uploadHead s.params q)) 2 186)
      else if i < 8 then (uploadHead s.params q).getD i 0#8 else s.ubuf.read i := by
  obtain ⟨m0, hm0⟩ : ∃ m, m = s.ubuf.writeBytes 0 (uploadHead s.params q) := ⟨_, rfl⟩
  have w0 : m0.wf = true := hm0 ▸ Memory.wf_writeBytes _ _ _ hwf
  obtain ⟨m1, hm1⟩ : ∃ m, m = m0.writeBytes 188 [xorBytes (m0.readBytes 2 186)] := ⟨_, rfl⟩
  have w1 : m1.wf = true := hm1 ▸ Memory.wf_writeBytes _ _ _ w0
  have hs : (s.sealUpload q).ubuf = m1.writeBytes 189 [Config.end0, Config.end1] := by
    rw [hm1, hm0]
    rfl
  rw [hs, Memory.read_writeBytes _ _ _ _ w1, hm1, Memory.read_writeBytes _ _ _ _ w0, ← hm0]
  by_cases h1 : i = 189
  · subst h1
    rfl
  · by_cases h2 : i = 190
    · subst h2
      rfl
    · by_cases h3 : i = 188
      · subst h3
        rfl
      · rw [if_neg (by simp; omega), if_neg (by simp; omega), if_neg h1, if_neg h2, if_neg h3, hm0,
          Memory.read_writeBytes _ _ _ _ hwf, length_uploadHead]
        by_cases h4 : i < 8
        · rw [if_pos (by omega), if_pos h4]
          rfl
        · rw [if_neg (by omega), if_neg h4]

theorem State.sealUpload_wf (s : State) (q : Half) (hwf : s.ubuf.wf = true) : (s.sealUpload q).ubuf.wf = true :=
  Memory.wf_writeBytes _ _ _ (Memory.wf_writeBytes _ _ _ (Memory.wf_writeBytes _ _ _ hwf))

/-- The sealed buffer is one packet of the upload command with the sequence value and the sub-payload area. -/
theorem State.sealUpload_packet (s : State) (q : Half) (area : List Byte) (ha : s.bytesAt .ubuf 8 180 = area)
    (hwf : s.ubuf.wf = true) :
    (s.sealUpload q).bytesAt .ubuf 0 191 = packet s.params.uplCmd ([lo8 q, hi8 q] ++ area) := by
  have hla : area.length = 180 := by
    rw [← ha]
    simp [State.bytesAt]
  have e1 : Memory.readBytes (s.sealUpload q).ubuf 0 8 = uploadHead s.params q := by
    apply List.ext_getElem
    · rw [Memory.length_readBytes, length_uploadHead]
    · intro i h1 h2
      rw [length_uploadHead] at h2
      rw [Memory.getElem_readBytes, State.sealUpload_read s q hwf, if_neg (by omega), if_neg (by omega), if_neg (by omega),
        if_pos (by omega), Nat.zero_add, List.getD_eq_getElem]
  have e2 : Memory.readBytes (s.sealUpload q).ubuf 8 180 = area := by
    rw [← ha]
    refine Memory.readBytes_congr _ _ _ _ fun i h1 h2 => ?_
    rw [State.sealUpload_read s q hwf, if_neg (by omega), if_neg (by omega), if_neg (by omega), if_neg (by omega)]
    rfl
  have hcx : Memory.readBytes (s.ubuf.writeBytes 0 (uploadHead s.params q)) 2 186 =
      [0xBF#8, 0x00#8, lo8 s.params.uplCmd, hi8 s.params.uplCmd, lo8 q, hi8 q] ++ area := by
    rw [show 186 = 6 + 180 from rfl, Memory.readBytes_append]
    congr 1
    · have := Memory.readBytes_writeBytes s.ubuf 0 (uploadHead s.params q) hwf
      rw [length_uploadHead, show 8 = 2 + 6 from rfl, Memory.readBytes_append] at this
      have := congrArg (List.drop 2) this
      simpa [uploadHead] using this
    · rw [← ha]
      refine Memory.readBytes_congr _ _ _ _ fun i h1 h2 => ?_
      rw [Memory.read_writeBytes _ _ _ _ hwf, if_neg]
      · rfl
      · rw [length_uploadHead]
        omega
  have e3 : Memory.readBytes (s.sealUpload q).ubuf 188 3 =
      [xorBytes ([0xBF#8, 0x00#8, lo8 s.params.uplCmd, hi8 s.params.uplCmd, lo8 q, hi8 q] ++ area),
        Config.end0, Config.end1] := by
    rw [← hcx]
    show [Memory.read _ 188, Memory.read _ 189, Memory.read _ 190] = _
    rw [State.sealUpload_read s q hwf, State.sealUpload_read s q hwf, State.sealUpload_read s q hwf]
    rfl
  show Memory.readBytes (s.sealUpload q).ubuf 0 191 = _
  rw [show 191 = 8 + (180 + 3) from rfl, Memory.readBytes_append, Memory.readBytes_append, e1, e2, e3]
  unfold packet
  rw [packetBody_upload _ _ _ hla]
  simp [uploadHead]

/-- What sending the packet and starting its wait changes, all of it. -/
theorem State.uploadSent_spec (s : State) (q : Half) (u : Pending) (area : List Byte) (ha : s.bytesAt .ubuf 8 180 = area)
    (hwf : s.ubuf.wf = true) (hex : s.exp.wf = true) :
    (s.uploadSent q u).bytesAt .ubuf 0 191 = packet s.params.uplCmd ([lo8 q, hi8 q] ++ area) ∧
    (s.uploadSent q u).bytesAt .exp 0 (ackOf s.params q).length = ackOf s.params q ∧
    (∀ a, (ackOf s.params q).length ≤ a → (s.uploadSent q u).byteAt .exp a = s.byteAt .exp a) ∧
    s.uploadSent q u = { s with
      ubuf := (s.uploadSent q u).ubuf, exp := (s.uploadSent q u).exp, subcnt := 0,
      explen := BitVec.ofNat 8 (ackOf s.params q).length, tmo := s.params.uplTmo, rxn := 0, rxlen := 0, rxck := 0,
      uplpend := u, awst := .waiting, txOut := s.txOut ++ packet s.params.uplCmd ([lo8 q, hi8 q] ++ area) } := by
  have h1 := State.sealUpload_packet s q area ha hwf
  refine ⟨?_, ?_, ?_, ?_⟩
  · rw [← h1]
    show ((s.uploadSent q u).mem .ubuf).readBytes 0 191 = ((s.sealUpload q).mem .ubuf).readBytes 0 191
    simp [State.uploadSent, State.mem]
  · have := Memory.readBytes_writeBytes s.exp 0 (ackOf s.params q) hex
    show ((s.uploadSent q u).mem .exp).readBytes 0 _ = _
    simpa [State.uploadSent, State.mem] using this
  · intro a ha
    have := Memory.read_writeBytes (ackOf s.params q) s.exp 0 a hex
    rw [if_neg (by omega)] at this
    show ((s.uploadSent q u).mem .exp).read a = (s.mem .exp).read a
    simpa [State.uploadSent, State.mem] using this
  · ext1
    case txOut =>
      have : (s.uploadSent q u).txOut = s.txOut ++ (s.sealUpload q).bytesAt .ubuf 0 191 := by
        simp [State.uploadSent, State.sendUpload]
      rw [this, h1]
    all_goals simp [State.uploadSent]

/-- The sub-payload area after the third sub-payload was stored. -/
theorem State.third_area (s : State) (d : List Byte) (hwf : s.ubuf.wf = true) (hd : d.length = 60) :
    (s.store .ubuf (subOffset 2) d).bytesAt .ubuf 8 180 = s.bytesAt .ubuf 8 120 ++ d := by
  show ((s.store .ubuf (subOffset 2) d).mem .ubuf).readBytes 8 (120 + 60) = (s.mem .ubuf).readBytes 8 120 ++ d
  rw [Memory.readBytes_append, State.store_mem, if_pos rfl]
  congr 1
  · refine Memory.readBytes_congr _ _ _ _ fun i h1 h2 => ?_
    have := Memory.read_writeBytes d s.ubuf (subOffset 2) i hwf
    rw [if_neg] at this
    · exact this
    · show ¬(128 ≤ i ∧ _)
      omega
  · have := Memory.readBytes_writeBytes s.ubuf (subOffset 2) d hwf
    rw [hd] at this
    exact this

end Sys2Proof.Machine
end

