-- ==== Sys2Proof/Laws/Validator.lean ====
section
/-!
SUPPORT. What each step of the validator finds (42_validator.md R151 to R156), against the notions of `Safety.lean` the statements use.
-/
namespace Sys2Proof.Machine

theorem hasSentinel_eq (L : List Byte) : hasSentinel L = true ↔ L[0]? = some 0x24#8 ∨ L[0]? = some 0x21#8 := by
  cases L <;> simp [hasSentinel]

theorem lastMarker_eq_none (L : List Byte) : lastMarker L = none ↔ 0x2A#8 ∉ L := by
  induction L with
  | nil => simp [lastMarker]
  | cons b L ih =>
    unfold lastMarker
    cases h : lastMarker L with
    | none =>
      have hL := ih.1 h
      by_cases hb : b = Config.marker
      · simp [hb]
      · simp [hb, hL, Ne.symm hb]
    | some i =>
      have hL : 0x2A#8 ∈ L := by
        by_contra hn
        rw [ih.2 hn] at h
        simp at h
      simp [hL]

theorem lastMarker_eq_some (L : List Byte) (m : Nat) : lastMarker L = some m ↔ IsLastMarker L m := by
  induction L generalizing m with
  | nil => simp [lastMarker, IsLastMarker]
  | cons b L ih =>
    unfold lastMarker
    cases h : lastMarker L with
    | some i =>
      obtain ⟨h1, h2⟩ := (ih i).1 h
      simp only [Option.some.injEq]
      constructor
      · rintro rfl
        refine ⟨by simpa using h1, ?_⟩
        rintro (_ | j) hj
        · omega
        · simpa using h2 j (by omega)
      · rintro ⟨h3, h4⟩
        rcases m with _ | m
        · exact absurd (by simpa using h1) (h4 (i + 1) (by omega))
        · have : lastMarker L = some m := by
            rw [ih]
            refine ⟨by simpa using h3, fun j hj => ?_⟩
            simpa using h4 (j + 1) (by omega)
          rw [h] at this
          rw [Option.some.injEq] at this
          omega
    | none =>
      have hL := (lastMarker_eq_none L).1 h
      have hno (j : Nat) : L[j]? ≠ some 0x2A#8 := fun hj => hL (List.mem_of_getElem? hj)
      simp only [Option.ite_none_right_eq_some, Option.some.injEq]
      constructor
      · rintro ⟨rfl, rfl⟩
        refine ⟨by simp, ?_⟩
        rintro (_ | j) hj
        · omega
        · simpa using hno j
      · rintro ⟨h3, -⟩
        rcases m with _ | m
        · exact ⟨by simpa using h3, rfl⟩
        · exact absurd (by simpa using h3) (hno m)

theorem expectedChecksum_eq_some (L : List Byte) (m : Nat) (e : Byte) :
    expectedChecksum L m = some e ↔ HasChecksumDigits L m e := by
  unfold expectedChecksum HasChecksumDigits
  by_cases hl : L.length ≤ m + 2
  · simp [hl]
  · have h1 : L[m + 1]? = some (L.getD (m + 1) 0#8) := by
      rw [List.getD_eq_getElem?_getD, List.getElem?_eq_getElem (by omega)]
      rfl
    have h2 : L[m + 2]? = some (L.getD (m + 2) 0#8) := by
      rw [List.getD_eq_getElem?_getD, List.getElem?_eq_getElem (by omega)]
      rfl
    rw [if_neg hl, hexPair_eq_some, h1, h2]
    constructor
    · rintro ⟨h, l, a, b, c⟩
      exact ⟨_, _, h, l, rfl, rfl, a, b, c⟩
    · rintro ⟨c1, c2, h, l, e1, e2, a, b, c⟩
      exact ⟨h, l, by rw [Option.some.inj e1, a], by rw [Option.some.inj e2, b], c⟩

theorem longestMatch_eq_none (list : List (List Byte)) (text : List Byte) :
    longestMatch list text = none ↔ ∀ tok ∈ list, ¬tok <+: text := by
  induction list with
  | nil => simp [longestMatch]
  | cons t ts ih =>
    unfold longestMatch
    dsimp only
    by_cases ht : t.isPrefixOf text = true
    · have hp : t <+: text := List.isPrefixOf_iff_prefix.1 ht
      rw [if_pos ht]
      cases longestMatch ts text with
      | none => simp [hp]
      | some e =>
        simp only [Option.map_some]
        split <;> simp [hp]
    · have hp : ¬t <+: text := fun h => ht (List.isPrefixOf_iff_prefix.2 h)
      rw [if_neg ht]
      simp [hp, ih]

/-- What the longest match is: the index and length of a token that begins the text and is at least as long as every other one. -/
theorem longestMatch_spec (list : List (List Byte)) (text : List Byte) (j len : Nat)
    (h : longestMatch list text = some (j, len)) :
    ∃ src, list[j]? = some src ∧ src.length = len ∧ IsLongestSource list text src := by
  induction list generalizing j len with
  | nil => simp [longestMatch] at h
  | cons t ts ih =>
    unfold longestMatch at h
    dsimp only at h
    have later (hlong : ∀ e, longestMatch ts text = some e → t <+: text → t.length ≤ e.2)
        (h' : (longestMatch ts text).map (fun e => (e.1 + 1, e.2)) = some (j, len)) :
        ∃ src, (t :: ts)[j]? = some src ∧ src.length = len ∧ IsLongestSource (t :: ts) text src := by
      cases hm : longestMatch ts text with
      | none => simp [hm] at h'
      | some e =>
        obtain ⟨j', len'⟩ := e
        simp only [hm, Option.map_some, Option.some.injEq, Prod.mk.injEq] at h'
        obtain ⟨rfl, rfl⟩ := h'
        obtain ⟨src, h1, h2, h3, h4, h5⟩ := ih j' len' hm
        refine ⟨src, by simpa using h1, h2, List.mem_cons_of_mem _ h3, h4, ?_⟩
        intro tok htok hp
        rcases List.mem_cons.1 htok with rfl | htok
        · rw [h2]
          exact hlong _ hm hp
        · exact h5 tok htok hp
    have first (ht : t <+: text) (hs : ∀ e, longestMatch ts text = some e → e.2 ≤ t.length) :
        IsLongestSource (t :: ts) text t := by
      refine ⟨List.mem_cons_self, ht, ?_⟩
      intro tok htok hp
      rcases List.mem_cons.1 htok with rfl | htok
      · exact le_rfl
      · cases hm : longestMatch ts text with
        | none => exact absurd hp ((longestMatch_eq_none ts text).1 hm tok htok)
        | some e =>
          obtain ⟨src, -, h2, -, -, h5⟩ := ih e.1 e.2 hm
          have := hs _ hm
          have := h5 tok htok hp
          omega
    by_cases ht : t.isPrefixOf text = true
    · have hp : t <+: text := List.isPrefixOf_iff_prefix.1 ht
      rw [if_pos ht] at h
      cases hm : longestMatch ts text with
      | none =>
        simp only [hm, Option.map_none, Option.some.injEq, Prod.mk.injEq] at h
        obtain ⟨rfl, rfl⟩ := h
        exact ⟨t, rfl, rfl, first hp (by simp [hm])⟩
      | some e =>
        simp only [hm, Option.map_some] at h
        by_cases hl : t.length < e.2
        · rw [if_pos hl] at h
          refine later ?_ (by rw [hm]; simpa using h)
          rintro _ he -
          obtain rfl : e = _ := Option.some.inj (hm.symm.trans he)
          omega
        · rw [if_neg hl, Option.some.injEq, Prod.mk.injEq] at h
          obtain ⟨rfl, rfl⟩ := h
          refine ⟨t, rfl, rfl, first hp ?_⟩
          intro _ he
          obtain rfl : e = _ := Option.some.inj (hm.symm.trans he)
          omega
    · rw [if_neg ht] at h
      exact later (fun _ _ hp => absurd (List.isPrefixOf_iff_prefix.2 hp) ht) h

/-- Two longest sources of one text are one token. -/
theorem isLongestSource_unique (list : List (List Byte)) (text a b : List Byte) (ha : IsLongestSource list text a)
    (hb : IsLongestSource list text b) : a = b := by
  obtain ⟨ha1, ha2, ha3⟩ := ha
  obtain ⟨hb1, hb2, hb3⟩ := hb
  have h1 := ha3 b hb1 hb2
  have h2 := hb3 a ha1 ha2
  rw [List.prefix_iff_eq_take.1 ha2, List.prefix_iff_eq_take.1 hb2, Nat.le_antisymm h1 h2]

theorem indexIn_eq_none (T : List Byte) (list : List (List Byte)) : indexIn T list = none ↔ T ∉ list := by
  simp only [indexIn, List.findIdx?_eq_none_iff, beq_eq_false_iff_ne, ne_eq]
  exact ⟨fun h hT => h T hT rfl, fun h x hx hT => h (hT ▸ hx)⟩

theorem indexIn_eq_some (T : List Byte) (list : List (List Byte)) (j : Nat) (hn : list.Nodup) :
    indexIn T list = some j ↔ list[j]? = some T := by
  rw [indexIn, List.findIdx?_eq_some_iff_getElem]
  constructor
  · rintro ⟨h, hT, -⟩
    rw [List.getElem?_eq_getElem h]
    simpa using hT
  · intro h
    obtain ⟨hj, hT⟩ := List.getElem?_eq_some_iff.1 h
    refine ⟨hj, by simpa using hT, ?_⟩
    intro i hi
    have hne : list[i]'(by omega) ≠ list[j] := fun he => by
      have := (List.Nodup.getElem_inj_iff hn).1 he
      omega
    rw [hT] at hne
    simpa using hne

/-- The statuses of a classification (R156). -/
theorem classify_status (p : Config.Params) (L : List Byte) (m t js : Nat) :
    (classify p L m t js).1 = .ok ∨ (classify p L m t js).1 = .knownUnparsed ∨ (classify p L m t js).1 = .badType := by
  unfold classify
  split
  · simp
  · dsimp only
    split
    · simp
    · split <;> simp

/-- The statuses of a validation (R150, R157). -/
theorem validate_status (p : Config.Params) (L : List Byte) : (validate p L).1 ∈ mayAnswer .valid := by
  have key : ∀ st : Status, st = .ok ∨ st = .knownUnparsed ∨ st = .badType → st ∈ mayAnswer .valid := by
    rintro _ (rfl | rfl | rfl) <;> decide
  unfold validate
  split
  · exact .tail _ (.head _)
  · split
    · exact .tail _ (.tail _ (.head _))
    · split
      · exact .tail _ (.tail _ (.tail _ (.head _)))
      · split
        · exact .tail _ (.tail _ (.tail _ (.tail _ (.head _))))
        · split
          · exact .tail _ (.tail _ (.tail _ (.tail _ (.tail _ (.head _)))))
          · exact key _ (classify_status ..)

end Sys2Proof.Machine
end

