-- ==== Sys2Proof/Tests/Slice0.lean ====
section
/-!
SUPPORT. The model's own tests: what `WellFormed` refuses, one decoded word per row of 30_encoding.md R84, at most two single steps per operation
with the expected result of 95_test_vectors.md, and for every statement with hypotheses a witness that meets them.
-/
set_option maxRecDepth 20000

open Sys2Proof Sys2Proof.Machine

namespace Sys2Proof.Tests

/-! ### Ill-formed terms are refused (R81) -/

theorem test_wf_txframe : (Instr.txframe (List.replicate 256 0x41#8)).wf = false := by decide
theorem test_wf_psend (p : List Byte) (h : p.length = 65536) : (Instr.psend 0#16 p).wf = false := by simp [Instr.wf, h]
theorem test_wf_await : (Instr.await 5#16 (List.replicate 256 0x00#8)).wf = false := by decide
theorem test_wf_usub : (Instr.usub (List.replicate 59 0x00#8)).wf = false ∧ (Instr.usub (List.replicate 61 0x00#8)).wf = false := by
  decide
theorem test_wf_usubs : (Pseudo.usubs (List.replicate 60 0x00#8)).wf = false := by decide
theorem test_params_maxLine : Config.Params.wf { Config.Params.standard with maxLine := 1 } = false := by decide
theorem test_params_source : Config.Params.wf { Config.Params.standard with srcList := [[0x47#8]] } = false := by decide
theorem test_params_budget : Config.Params.wf { Config.Params.standard with uplTmo := 0#16 } = false := by decide

/-! ### Command words (R84; TE1 to TE15) -/

theorem test_decode_feed : decode [0x01#8, 0x24#8] = .ok (.feed 0x24#8) := by rfl
theorem test_decode_has : decode [0x02#8] = .ok .has := by rfl
theorem test_decode_take : decode [0x03#8] = .ok .take := by rfl
theorem test_decode_lread : decode [0x04#8, 0x07#8] = .ok (.lread 0x07#8) := by rfl
theorem test_decode_xorrng : decode [0x10#8, 0x01#8, 0x03#8] = .ok (.xorrng 0x01#8 0x03#8) := by rfl
theorem test_decode_hexr : decode [0x11#8, 0x9F#8] = .ok (.hexr 0x9F#8) := by rfl
theorem test_decode_hexp : decode [0x12#8, 0x34#8, 0x37#8] = .ok (.hexp 0x34#8 0x37#8) := by rfl
theorem test_decode_txframe :
    decode [0x13#8, 0x08#8, 0x24#8, 0x50#8, 0x4D#8, 0x54#8, 0x4B#8, 0x36#8, 0x30#8, 0x35#8] =
      .ok (.txframe [0x24#8, 0x50#8, 0x4D#8, 0x54#8, 0x4B#8, 0x36#8, 0x30#8, 0x35#8]) := by rfl
theorem test_decode_valid : decode [0x20#8] = .ok .valid := by rfl
theorem test_decode_frst : decode [0x30#8] = .ok .frst := by rfl
theorem test_decode_fnext : decode [0x31#8] = .ok .fnext := by rfl
theorem test_decode_fempty : decode [0x32#8] = .ok .fempty := by rfl
theorem test_decode_timed : decode [0x33#8] = .ok .timed := by rfl
theorem test_decode_dated : decode [0x34#8] = .ok .dated := by rfl
theorem test_decode_coord : decode [0x35#8, 0x01#8] = .ok (.coord 0x01#8) := by rfl
theorem test_decode_rdreg : decode [0x36#8, 0x0F#8] = .ok (.rdreg 0x0F#8) := by rfl
theorem test_decode_psend :
    decode [0x40#8, 0xD2#8, 0x02#8, 0x03#8, 0x00#8, 0x01#8, 0x02#8, 0x03#8] =
      .ok (.psend 0x02D2#16 [0x01#8, 0x02#8, 0x03#8]) := by rfl
theorem test_decode_await :
    decode [0x41#8, 0x64#8, 0x00#8, 0x09#8, 0x04#8, 0x24#8, 0x09#8, 0x00#8, 0xFD#8, 0x00#8, 0xF4#8, 0x0D#8, 0x0A#8] =
      .ok (.await 100#16 [0x04#8, 0x24#8, 0x09#8, 0x00#8, 0xFD#8, 0x00#8, 0xF4#8, 0x0D#8, 0x0A#8]) := by rfl
theorem test_decode_prx : decode [0x42#8, 0x0D#8] = .ok (.prx 0x0D#8) := by rfl
theorem test_decode_tick : decode [0x43#8] = .ok .tick := by rfl
theorem test_decode_ubegin : decode [0x48#8] = .ok .ubegin := by rfl
theorem test_decode_usub : decode (0x49#8 :: List.replicate 60 0xAA#8) = .ok (.usub (List.replicate 60 0xAA#8)) := by rfl
theorem test_decode_ufin : decode [0x4A#8] = .ok .ufin := by rfl
theorem test_decode_illegal :
    decode [] = .error .emptyWord ∧ decode [0x00#8] = .error (.unassignedOpcode 0x00#8) ∧
    decode [0x4B#8] = .error (.unassignedOpcode 0x4B#8) ∧ decode [0x01#8] = .error (.wrongLength .feed) ∧
    decode [0x02#8, 0x00#8] = .error (.wrongLength .has) ∧
    decode [0x13#8, 0x03#8, 0x24#8, 0x41#8] = .error (.wrongLength .txframe) ∧
    decode (0x49#8 :: List.replicate 59 0x00#8) = .error (.wrongLength .usub) := by
  refine ⟨?_, ?_, ?_, ?_, ?_, ?_, ?_⟩ <;> rfl

/-! ### The written form (R90, R91) -/

theorem test_assemble_feed : assemble "FEED '$'" = some [.feed 0x24#8] := by decide
theorem test_assemble_coord : assemble "COORD LON" = some [.coord 0x01#8] := by decide
theorem test_assemble_psend :
    assemble "PSEND 0x02D2, [01 02 03]" = some [.psend 0x02D2#16 [0x01#8, 0x02#8, 0x03#8]] := by decide
theorem test_assemble_feeds : assemble "FEEDS \"A\\r\\x00\"" = some [.feed 0x41#8, .feed 0x0D#8, .feed 0x00#8] := by decide
theorem test_assemble_digits : assemble "TICKS 3" = some [.tick, .tick, .tick] ∧ assemble "HEXR 0x9f" = some [.hexr 0x9F#8] ∧
    assemble "HEXR 9F" = none := by decide
theorem test_assemble_unknown : assemble "FEED 256" = none ∧ assemble "NOP" = none := by decide

/-! ### Single steps

The states are built by `stableText` (a line already completed in `BUF[0]`), `waiting` (a wait for the packet E of 95_test_vectors.md 2.8) and
`receiving` (the same with a candidate under assembly). -/

/-- The ASCII bytes of a text. -/
def bytesOf (t : String) : List Byte := t.toList.map fun c => BitVec.ofNat 8 c.toNat

/-- The reset state of an instance with line buffers of `n` bytes. -/
def sized (n : Fin 256) : State := State.resetWith { Config.Params.standard with maxLine := n }

/-- The stable buffer, `BUF[0]`, holds the text; `FP` is at `p`. -/
def stableText (n : Fin 256) (t : String) (p : Byte) : State :=
  { sized n with act := true, fp := p, buf0 := Memory.writeBytes [] 0 (bytesOf t) }

/-- The packet E of 95_test_vectors.md 2.8. -/
def packetE : List Byte := [0x04#8, 0x24#8, 0x09#8, 0x00#8, 0xFD#8, 0x00#8, 0xF4#8, 0x0D#8, 0x0A#8]

/-- A wait for the packet E with `t` ticks left. -/
def waiting (t : Half) : State :=
  { State.reset with awst := .waiting, tmo := t, explen := 9, exp := Memory.writeBytes [] 0 packetE }

/-- The wait with the first `n` bytes of E stored, `RXLEN` and `RXCK` as given. -/
def receiving (n : Nat) (len ck : Byte) : State :=
  { waiting 2 with
    rxn := BitVec.ofNat 8 n, rxlen := len, rxck := ck, rxbuf := Memory.writeBytes [] 0 (packetE.take n) }

/-- The state an operation leaves, where it answers one. -/
def after (i : Instr) (s : State) : Option State :=
  match exec i s with
  | .next t => some t
  | .fault _ => none
  | .refused _ => none

/-- The state a step leaves, where it leaves one. -/
def stepped (s : State) : Option State :=
  match step s with
  | .next t => some t
  | .fault _ => none
  | .refused _ => none

/-- The response an operation gives. -/
def answers (i : Instr) (s : State) : Option (List Byte) := (after i s).bind fun t => t.responses.getLast?

/-- TB1. -/
theorem test_feed_data :
    (after (.feed 0x24#8) (sized 8)).map (fun t => (t.cur, t.act, t.buf0)) = some (1, false, [(0, 0x24#8)]) := by decide
/-- TB7: the terminator is overwritten by the NUL. -/
theorem test_feed_terminator :
    (after (.feed 0x0A#8) { sized 8 with cur := 7, buf0 := Memory.writeBytes [] 0 (bytesOf "ABCDEFG") }).map
      (fun t => (t.cur, t.act, t.new, t.stableLine)) = some (0, true, true, bytesOf "ABCDEFG") := by decide
/-- TB3. -/
theorem test_has : answers .has { sized 8 with new := true } = some [0x00#8, 0x01#8] := by decide
/-- TB18: `TAKE` from reset answers 1. -/
theorem test_take : answers .take { sized 8 with fp := 5 } = some [0x00#8, 0x01#8] ∧
    (after .take { sized 8 with fp := 5, new := true }).map (fun t => (t.fp, t.new)) = some (0, false) := by decide
/-- TB4. -/
theorem test_lread : answers (.lread 0x01#8) (stableText 8 "$A\r\n" 0) = some [0x00#8, 0x41#8] ∧
    answers (.lread 0x08#8) (stableText 8 "$A\r\n" 0) = some [0xFE#8] := by decide
/-- TX4, TX8. -/
theorem test_xorrng : answers (.xorrng 0x01#8 0x08#8) (stableText 16 "$GP*17\r\n" 0) = some [0x00#8, 0x3C#8] ∧
    answers (.xorrng 0x00#8 0x11#8) (stableText 16 "$GP*17\r\n" 0) = some [0xFE#8] := by decide
/-- The HEXR line of 2.2. -/
theorem test_hexr : answers (.hexr 0x9F#8) (sized 8) = some [0x00#8, 0x39#8, 0x46#8] := by decide
/-- The HEXP line of 2.2: "A0", "0a" and "9:". -/
theorem test_hexp : answers (.hexp 0x41#8 0x30#8) (sized 8) = some [0x00#8, 0xA0#8] ∧
    answers (.hexp 0x30#8 0x61#8) (sized 8) = some [0x12#8] ∧ answers (.hexp 0x39#8 0x3A#8) (sized 8) = some [0x12#8] := by
  decide
/-- TT1, TT6. -/
theorem test_txframe : (after (.txframe (bytesOf "$PMTK605")) (sized 8)).map (fun t => t.txOut) = some (bytesOf "$PMTK605*31\r\n") ∧
    answers (.txframe []) (sized 8) = some [0xFE#8] := by decide
/-- TV3, TV28 (the last `*` is the marker), TV19 (the checksum is tested before the source). -/
theorem test_valid : answers .valid (stableText 16 "$GNRMC,1*48\r\n" 0) = some [0x00#8, 0x01#8, 0x01#8] ∧
    answers .valid (stableText 20 "$GPGGA,a*b*53\r\n" 0) = some [0x00#8, 0x00#8, 0x00#8] ∧
    answers .valid (stableText 20 "$ZZGGA,1*00\r\n" 0) = some [0x13#8] := by decide
/-- R150 worked by hand on the line of log 20: a `$` in the middle, and the XOR 4B between the first byte and the last `*`. -/
theorem test_valid_dollar_inside : answers .valid (stableText 26 "$GPGGA,10*7B$GPGGA,1*4B\n" 0) = some [0x00#8, 0x00#8, 0x00#8] := by
  decide
/-- R170. -/
theorem test_frst : (after .frst { sized 8 with fp := 7 }).map (fun t => t.fp) = some 0 := by decide
/-- TF3: three `FNEXT`s by their positions. -/
theorem test_fnext : answers .fnext (stableText 16 "$X,,\n" 0) = some [0x00#8, 0x03#8] ∧
    answers .fnext (stableText 16 "$X,,\n" 3) = some [0x00#8, 0x04#8] ∧
    answers .fnext (stableText 16 "$X,,\n" 4) = some [0x02#8] := by decide
/-- TF3, TF2. -/
theorem test_fempty : answers .fempty (stableText 16 "$X,,\n" 3) = some [0x00#8, 0x01#8] ∧
    answers .fempty (stableText 16 "$X,\n" 3) = some [0x00#8, 0x00#8] := by decide
/-- TD1. -/
theorem test_timed :
    (after .timed (stableText 20 "$T,123519.50,X\n" 3)).map (fun t => (t.hour, t.minute, t.second, t.millis, t.rvalid)) =
      some (12, 35, 19, 500, 1) := by decide
/-- TD10, TD13, TD12. -/
theorem test_timed_short :
    (after .timed (stableText 20 "$T,1235,X\n" 3)).map (fun t => (t.hour, t.minute, t.second)) = some (0, 12, 35) ∧
    answers .timed (stableText 20 "$T,1234567,X\n" 3) = some [0x20#8] ∧
    answers .timed (stableText 20 "$T,,X\n" 3) = some [0x01#8] := by decide
/-- TD30, TD38. -/
theorem test_dated :
    (after .dated (stableText 20 "$T,230394,X\n" 3)).map (fun t => (t.day, t.month, t.year, t.rvalid)) = some (23, 3, 94, 2) ∧
    answers .dated (stableText 20 "$T,23.394,X\n" 3) = some [0x20#8] := by decide
/-- TG12: a southern coordinate, rounded. -/
theorem test_coord :
    (after (.coord 0x00#8) (stableText 24 "$T,3351.6500,S,X*00\r\n" 3)).map (fun t => (t.latRaw, t.latFix, t.latHemi, t.rvalid)) =
      some (33516500, -338608333, 0x53, 4) := by decide
/-- TG8 (an exact half rounds up), TG18, TG37, TG38. -/
theorem test_coord_order :
    (after (.coord 0x00#8) (stableText 28 "$T,0000.00000300,N,X\r\n" 3)).map (fun t => t.latFix) = some 1 ∧
    answers (.coord 0x01#8) (stableText 24 "$T,99999.9,E,X*00\r\n" 3) = some [0x22#8] ∧
    answers (.coord 0x00#8) (stableText 24 "$T,9200.0000,X,X*00\r\n" 3) = some [0x21#8] ∧
    answers (.coord 0x00#8) (stableText 24 "$T,4807,X,X*00\r\n" 3) = some [0x20#8] := by decide
/-- The RDREG lines of 2.7. -/
theorem test_rdreg : answers (.rdreg 0x0D#8) { sized 8 with lonFix := -1800000000 } = some [0x00#8, 0x00#8, 0x2E#8, 0xB6#8, 0x94#8] ∧
    answers (.rdreg 0x03#8) { sized 8 with millis := 500 } = some [0x00#8, 0xF4#8, 0x01#8, 0x00#8, 0x00#8] ∧
    answers (.rdreg 0x07#8) (sized 8) = some [0xFE#8] := by decide
/-- TK0a. -/
theorem test_psend :
    (after (.psend 0x02D2#16 [0x01#8, 0x02#8, 0x03#8]) (sized 8)).map (fun t => t.txOut) =
      some [0x04#8, 0x24#8, 0x0C#8, 0x00#8, 0xD2#8, 0x02#8, 0x01#8, 0x02#8, 0x03#8, 0xDC#8, 0x0D#8, 0x0A#8] := by decide
/-- TK1: a zero budget, and the bytes a wait loads. -/
theorem test_await : answers (.await 0#16 packetE) (sized 8) = some [0xFE#8] ∧
    (after (.await 5#16 packetE) (sized 8)).map (fun t => (t.exp, t.explen, t.tmo, t.awst)) =
      some (Memory.writeBytes [] 0 packetE, 9, 5, .waiting) := by decide
/-- TK2: the fourth byte gives the length. -/
theorem test_prx_length :
    (after (.prx 0x00#8) (receiving 3 0 0x09)).map (fun t => (t.rxn, t.rxlen, t.rxck, t.awst)) = some (4, 9, 0x09, .waiting) := by
  decide
/-- TK2: the last byte ends the wait. -/
theorem test_prx_match :
    (after (.prx 0x0A#8) (receiving 8 9 0xF4)).map (fun t => (t.rxn, t.awst, t.responses)) = some (0, .matched, [[0x31#8]]) := by
  decide
/-- TK12: the tick that uses up the budget. -/
theorem test_tick : answers .tick (waiting 2) = some [0x30#8] ∧
    (after .tick { receiving 5 9 0xF4 with tmo := 1 }).map (fun t => (t.rxn, t.awst, t.tmo, t.responses)) =
      some (0, .timedOut, 0, [[0x32#8]]) := by decide
/-- TU25. -/
theorem test_ubegin : (after .ubegin { State.reset with subcnt := 1, seq := 7, ubuf := [(8, 1)] }).map (fun t => (t.subcnt, t.seq, t.ubuf)) =
    some (0, 0, []) := by decide
/-- TU2, TU23. -/
theorem test_usub :
    (after (.usub (List.replicate 60 0xAA#8)) State.reset).map (fun t => (t.subcnt, t.byteAt .ubuf 8, t.byteAt .ubuf 68)) =
      some (1, 0xAA#8, 0x00#8) ∧
    answers (.usub (List.replicate 60 0x00#8)) { State.reset with seq := 0xFFFF } = some [0x36#8] := by decide
/-- TU21, TU3. -/
theorem test_ufin :
    (after .ufin State.reset).map (fun t => (t.txOut, t.uplpend)) =
      some ([0x04#8, 0x24#8, 0xBF#8, 0x00#8, 0xD2#8, 0x02#8, 0xFF#8, 0xFF#8] ++ List.replicate 180 0x00#8 ++
        [0x6F#8, 0x0D#8, 0x0A#8], .final) ∧
    answers .ufin { State.reset with subcnt := 2 } = some [0x37#8] := by decide
/-- TE10: an illegal word; 70_reset_and_hazards.md R281: the reset input. -/
theorem test_step_port :
    stepped { State.reset with port := [.command [0x02#8, 0x00#8]] } = some { State.reset with responses := [[0xFF#8]] } ∧
    stepped { State.reset with cur := 3, tmo := 9, port := [.reset] } = some State.reset := by decide
/-- The row of `USUB` in the opcode table, its 60 data bytes zero: the first step after reset stores them. -/
theorem test_fetch_word : decodeTableWord 8 0x49 = some (.usub (List.replicate 60 0x00#8)) ∧
    stepped (State.reset.withFetchWord 8 0x49) = some { State.reset with subcnt := 1, responses := [[0x00#8]] } := by decide

/-! ### Witnesses: states and operands that meet the hypotheses of each statement, clause by clause -/

theorem test_witness_DecodeOfEncodeIsTheInstruction :
    (Instr.coord 0xFF#8).wf = true ∧ (Instr.usub (List.replicate 60 0xFF#8)).wf = true ∧
    (Instr.txframe (List.replicate 255 0xFF#8)).wf = true ∧ (Instr.await 0xFFFF#16 (List.replicate 255 0x00#8)).wf = true ∧
    (Instr.psend 0#16 []).wf = true := by decide

theorem test_witness_EncodeOfDecodeIsTheWord :
    decode [0x4A#8] = .ok .ufin ∧ decode [0x13#8, 0x00#8] = .ok (.txframe []) := ⟨rfl, rfl⟩

theorem test_witness_StepRunsTheDecodedInstruction :
    { State.reset with port := [.command [0x43#8], .reset] }.port = .command [0x43#8] :: [.reset] ∧
    decode [0x43#8] = .ok .tick := ⟨rfl, rfl⟩

theorem test_witness_IllegalWordAnswersIllegalOp :
    { State.reset with port := [.command [0x4B#8]] }.port = [.command [0x4B#8]] ∧ ¬∃ i, decode [0x4B#8] = .ok i :=
  ⟨rfl, by rintro ⟨i, h⟩; cases h⟩

theorem test_witness_StepWithNothingPresentedWaits : State.reset.port = [] := rfl

theorem test_witness_ResetStateIsTheRestingState :
    State.reset = State.resetWith Config.Params.standard ∧ sized 2 = State.resetWith { Config.Params.standard with maxLine := 2 } :=
  ⟨rfl, rfl⟩

theorem test_witness_ResetInputGivesTheResetState : { waiting 2 with port := [.reset] }.port = .reset :: [] := rfl

/-- At the first and the last cursor position, and under both policies. -/
theorem test_witness_FeedStoresDataByte :
    (sized 8).Inv ∧ { sized 8 with cur := 7 }.Inv ∧ (0x24#8 : Byte) ≠ 0x0A#8 ∧
    0 = (if (sized 8).params.dollarPolicy = .reset ∧ 0x24#8 = (0x24#8 : Byte) then 0 else (sized 8).cur.toNat) ∧
    7 = (if (sized 8).params.dollarPolicy = .reset ∧ 0x24#8 = (0x24#8 : Byte) then 0 else { sized 8 with cur := 7 }.cur.toNat) ∧
    State.Inv { State.resetWith { Config.Params.standard with dollarPolicy := .reset } with cur := 3 } := by
  and_intros <;> decide

theorem test_witness_FeedTerminatorCompletesTheLine :
    { sized 8 with cur := 7 }.Inv ∧ 7 = min ({ sized 8 with cur := 7 }.cur.toNat + 1) ((sized 8).params.maxLine.val - 1) ∧
    (sized 8).Inv ∧ 1 = min ((sized 8).cur.toNat + 1) ((sized 8).params.maxLine.val - 1) := by
  and_intros <;> decide

/-- TB6 (the longest line that fits) and TB7 (the shortest that is cut). -/
theorem test_witness_FeedsAssembleTheLine :
    (sized 8).Inv ∧ (sized 8).cur = 0 ∧ (∀ b ∈ bytesOf "ABCDEFG", b ≠ 0x0A#8 ∧ b ≠ 0x00#8) ∧
    (sized 8).params.dollarPolicy = .keep ∧ (bytesOf "ABCDEF").length = (sized 8).params.maxLine.val - 2 ∧
    (bytesOf "ABCDEFG").length = (sized 8).params.maxLine.val - 1 := by
  and_intros <;> decide

/-- The policy RESET: only the first byte is a `$`. -/
theorem test_witness_FeedsAssembleTheLine_reset :
    (State.resetWith { Config.Params.standard with dollarPolicy := .reset }).Inv ∧
    (State.resetWith { Config.Params.standard with dollarPolicy := .reset }).cur = 0 ∧
    (State.resetWith { Config.Params.standard with dollarPolicy := .reset }).params.dollarPolicy = .reset ∧
    (∀ b ∈ bytesOf "$GPGGA,1\r", b ≠ 0x0A#8 ∧ b ≠ 0x00#8) ∧ ∀ b ∈ (bytesOf "$GPGGA,1\r").tail, b ≠ 0x24#8 := by
  and_intros <;> decide

theorem test_witness_LreadAnswersAStableByte :
    (0x07#8 : Byte).toNat < (sized 8).params.maxLine.val ∧ (sized 8).params.maxLine.val ≤ (0x08#8 : Byte).toNat := by decide

theorem test_witness_XorrngAnswersTheRangeXor :
    ((0x08#8 : Byte).toNat ≤ (0x08#8 : Byte).toNat ∧ (0x08#8 : Byte).toNat ≤ (sized 8).params.maxLine.val) ∧
    (0x02#8 : Byte).toNat < (0x03#8 : Byte).toNat ∧ (sized 8).params.maxLine.val < (0x09#8 : Byte).toNat := by decide

theorem test_witness_HexpParsesUppercaseDigits :
    "0123456789ABCDEF".toList[(15 : Fin 16).val]?.map (fun c => BitVec.ofNat 8 c.toNat) = some 0x46#8 ∧
    "0123456789ABCDEF".toList[(0 : Fin 16).val]?.map (fun c => BitVec.ofNat 8 c.toNat) = some 0x30#8 ∧
    0x3A#8 ∉ "0123456789ABCDEF".toList.map (fun c => BitVec.ofNat 8 c.toNat) ∧
    0x61#8 ∉ "0123456789ABCDEF".toList.map (fun c => BitVec.ofNat 8 c.toNat) := by decide

theorem test_witness_HexpOfHexrGivesTheByteBack :
    exec (.hexr 0xF9#8) State.reset = .next { State.reset with responses := State.reset.responses ++ [[0x00#8, 0x46#8, 0x39#8]] } := rfl

/-- The state of the lines below: the text stable in a buffer of 20 bytes. -/
theorem test_witness_ValidClassifiesByLongestSource :
    (stableText 20 "!GPGGA,1*4B\n" 0).params.wf = true ∧
    (stableText 20 "!GPGGA,1*4B\n" 0).stableLine[0]? = some 0x21#8 ∧
    IsLastMarker (stableText 20 "!GPGGA,1*4B\n" 0).stableLine 8 ∧
    HasChecksumDigits (stableText 20 "!GPGGA,1*4B\n" 0).stableLine 8 0x4B#8 ∧
    xorBytes (slice (stableText 20 "!GPGGA,1*4B\n" 0).stableLine 1 8) = 0x4B#8 ∧
    IsLongestSource (sized 20).params.srcList (slice (stableText 20 "!GPGGA,1*4B\n" 0).stableLine 1 8) (bytesOf "GP") ∧
    (sized 20).params.srcList[0]? = some (bytesOf "GP") ∧
    slice (stableText 20 "!GPGGA,1*4B\n" 0).stableLine (1 + 2) (1 + 2 + 3) = bytesOf "GGA" ∧
    (sized 20).params.parseList[0]? = some (bytesOf "GGA") :=
  ⟨by decide, by decide, (lastMarker_eq_some _ _).1 (by decide), (expectedChecksum_eq_some _ _ _).1 (by decide), by decide,
    ⟨by decide, by decide, by decide⟩, by decide, by decide, by decide⟩

/-- The other clauses: a known type (TV4), an unlisted type (TV5) and too few bytes (TV22, one byte short). -/
theorem test_witness_ValidClassifiesByLongestSource_others :
    (IsLastMarker (stableText 24 "$GPGSV,1,1,00*79\n" 0).stableLine 13 ∧
      HasChecksumDigits (stableText 24 "$GPGSV,1,1,00*79\n" 0).stableLine 13 0x79#8 ∧
      xorBytes (slice (stableText 24 "$GPGSV,1,1,00*79\n" 0).stableLine 1 13) = 0x79#8 ∧
      IsLongestSource (sized 24).params.srcList (slice (stableText 24 "$GPGSV,1,1,00*79\n" 0).stableLine 1 13) (bytesOf "GP") ∧
      bytesOf "GSV" ∉ (sized 24).params.parseList ∧ (sized 24).params.knownList[0]? = some (bytesOf "GSV")) ∧
    (bytesOf "XYZ" ∉ (sized 24).params.parseList ∧ bytesOf "XYZ" ∉ (sized 24).params.knownList) ∧
    (IsLastMarker (stableText 24 "$GPGG*17\r\n" 0).stableLine 5 ∧
      HasChecksumDigits (stableText 24 "$GPGG*17\r\n" 0).stableLine 5 0x17#8 ∧
      xorBytes (slice (stableText 24 "$GPGG*17\r\n" 0).stableLine 1 5) = 0x17#8 ∧ 5 < 1 + (bytesOf "GP").length + 3) :=
  ⟨⟨(lastMarker_eq_some _ _).1 (by decide), (expectedChecksum_eq_some _ _ _).1 (by decide), by decide,
      ⟨by decide, by decide, by decide⟩, by decide, by decide⟩, by decide,
    (lastMarker_eq_some _ _).1 (by decide), (expectedChecksum_eq_some _ _ _).1 (by decide), by decide, by decide⟩

/-- TV8, TV10, TV12, TV18, TV24, in the order of the steps. -/
theorem test_witness_ValidReportsTheFirstDefect :
    ((stableText 20 "\n" 0).stableLine[0]? ≠ some 0x24#8 ∧ (stableText 20 "\n" 0).stableLine[0]? ≠ some 0x21#8) ∧
    ((stableText 20 "$GPGGA,1\r\n" 0).stableLine[0]? = some 0x24#8 ∧ 0x2A#8 ∉ (stableText 20 "$GPGGA,1\r\n" 0).stableLine) ∧
    (IsLastMarker (stableText 20 "$GPGGA,1*4\r\n" 0).stableLine 8 ∧
      ¬∃ e, HasChecksumDigits (stableText 20 "$GPGGA,1*4\r\n" 0).stableLine 8 e) ∧
    (IsLastMarker (stableText 20 "$GPGGA,2*4B\r\n" 0).stableLine 8 ∧
      HasChecksumDigits (stableText 20 "$GPGGA,2*4B\r\n" 0).stableLine 8 0x4B#8 ∧
      xorBytes (slice (stableText 20 "$GPGGA,2*4B\r\n" 0).stableLine 1 8) ≠ 0x4B#8) ∧
    (IsLastMarker (stableText 20 "$G*47\r\n" 0).stableLine 2 ∧
      HasChecksumDigits (stableText 20 "$G*47\r\n" 0).stableLine 2 0x47#8 ∧
      xorBytes (slice (stableText 20 "$G*47\r\n" 0).stableLine 1 2) = 0x47#8 ∧
      ∀ tok ∈ (sized 20).params.srcList, ¬tok <+: slice (stableText 20 "$G*47\r\n" 0).stableLine 1 2) :=
  ⟨by decide, by decide,
    ⟨(lastMarker_eq_some _ _).1 (by decide), fun ⟨e, h⟩ => by
      have h := (expectedChecksum_eq_some _ _ _).2 h
      rw [show expectedChecksum (stableText 20 "$GPGGA,1*4\r\n" 0).stableLine 8 = none from by decide] at h
      cases h⟩,
    ⟨(lastMarker_eq_some _ _).1 (by decide), (expectedChecksum_eq_some _ _ _).1 (by decide), by decide⟩,
    (lastMarker_eq_some _ _).1 (by decide), (expectedChecksum_eq_some _ _ _).1 (by decide), by decide, by decide⟩

/-- The first and the last byte of the span of `$GPGGA,1*4B` changed. -/
theorem test_witness_OneFlippedByteFailsTheChecksum :
    exec .valid (stableText 16 "$GPGGA,1*4B\n" 0) =
      .next { stableText 16 "$GPGGA,1*4B\n" 0 with responses := [] ++ [[0x00#8, 0x00#8, 0x00#8]] } ∧
    IsLastMarker (stableText 16 "$GPGGA,1*4B\n" 0).stableLine 8 ∧ 1 ≤ 1 ∧ 7 < 8 ∧
    (stableText 16 "$GPGGA,1*4B\n" 0).stableLine[1]? ≠ some 0x51#8 ∧
    (stableText 16 "$GPGGA,1*4B\n" 0).stableLine[7]? ≠ some 0x2A#8 ∧
    (stableText 16 "$QPGGA,1*4B\n" 0).stableLine = (stableText 16 "$GPGGA,1*4B\n" 0).stableLine.set 1 0x51#8 ∧
    (stableText 16 "$GPGGA,**4B\n" 0).stableLine = (stableText 16 "$GPGGA,1*4B\n" 0).stableLine.set 7 0x2A#8 :=
  ⟨rfl, (lastMarker_eq_some _ _).1 (by decide), by decide, by decide, by decide, by decide, by decide, by decide⟩

/-- A token that ends at a comma, one that ends at a marker, and a cursor at the end of the line. -/
theorem test_witness_FnextStepsOverTheComma :
    (IsTokenAt (stableText 16 "$X,1*00,2\n" 0).stableLine 0 (bytesOf "$X") ∧
      (stableText 16 "$X,1*00,2\n" 0).stableLine[0 + 2]? = some 0x2C#8) ∧
    (IsTokenAt (stableText 16 "$X,1*00,2\n" 3).stableLine 3 (bytesOf "1") ∧
      (stableText 16 "$X,1*00,2\n" 3).stableLine[3 + 1]? ≠ some 0x2C#8) ∧
    IsTokenAt (stableText 16 "$X\n" 3).stableLine 3 [] ∧ (stableText 16 "$X\n" 3).stableLine[3 + 0]? ≠ some 0x2C#8 :=
  ⟨⟨⟨bytesOf ",1*00,2\n", by decide, by decide, by decide⟩, by decide⟩,
    ⟨⟨bytesOf "*00,2\n", by decide, by decide, by decide⟩, by decide⟩, ⟨[], by decide, by decide, by decide⟩, by decide⟩

/-- The end of the line, a comma, a marker, and another byte. -/
theorem test_witness_FemptyTellsEmptyFields :
    (stableText 16 "$X\n" 3).stableLine.length ≤ (stableText 16 "$X\n" 3).fp.toNat ∧
    (stableText 16 "$X,,\n" 3).stableLine[(stableText 16 "$X,,\n" 3).fp.toNat]? = some 0x2C#8 ∧
    (stableText 16 "$X*0\n" 2).stableLine[(stableText 16 "$X*0\n" 2).fp.toNat]? = some 0x2A#8 ∧
    (stableText 16 "$X,,\n" 4).stableLine[(stableText 16 "$X,,\n" 4).fp.toNat]? = some 0x0A#8 := by decide

/-- The empty token, one and six integer digits, an empty fraction, and seven digits (TD11 to TD13, TD3). -/
theorem test_witness_TimedDecodesTheTime :
    IsTokenAt (stableText 16 "$T,,X\n" 3).stableLine 3 [] ∧
    (IsTokenAt (stableText 16 "$T,0,X\n" 3).stableLine 3 (bytesOf "0" ++ []) ∧ allDigits (bytesOf "0") ∧
      1 ≤ (bytesOf "0").length) ∧
    (IsTokenAt (stableText 16 "$T,123519.,X\n" 3).stableLine 3 (bytesOf "123519" ++ 0x2E#8 :: []) ∧
      allDigits (bytesOf "123519") ∧ (bytesOf "123519").length ≤ 6) ∧
    (IsTokenAt (stableText 16 "$T,1234567,X\n" 3).stableLine 3 (bytesOf "1234567") ∧ bytesOf "1234567" ≠ [] ∧
      ¬∃ I frac F, bytesOf "1234567" = I ++ frac ∧ (frac = [] ∧ F = [] ∨ frac = 0x2E#8 :: F) ∧ allDigits I ∧ allDigits F ∧
        1 ≤ I.length ∧ I.length ≤ 6) := by
  refine ⟨⟨bytesOf ",X\n", by decide, by decide, by decide⟩, ⟨⟨bytesOf ",X\n", by decide, by decide, by decide⟩, by decide, by decide⟩,
    ⟨⟨bytesOf ",X\n", by decide, by decide, by decide⟩, by decide, by decide⟩,
    ⟨bytesOf ",X\n", by decide, by decide, by decide⟩, by decide, ?_⟩
  rintro ⟨I, frac, F, hT, ⟨rfl, -⟩ | rfl, -, -, -, h6⟩
  · rw [List.append_nil] at hT
    subst hT
    exact absurd h6 (by decide)
  · exact absurd (hT ▸ by simp : (0x2E#8 : Byte) ∈ bytesOf "1234567") (by decide)

/-- The empty token, six digits and seven (TD36, TD33, TD37). -/
theorem test_witness_DatedDecodesTheDate :
    IsTokenAt (stableText 16 "$T,,X\n" 3).stableLine 3 [] ∧
    (IsTokenAt (stableText 16 "$T,999999,X\n" 3).stableLine 3 (bytesOf "999999") ∧ bytesOf "999999" ≠ [] ∧
      allDigits (bytesOf "999999") ∧ (bytesOf "999999").length ≤ 6) ∧
    (IsTokenAt (stableText 16 "$T,2303941,X\n" 3).stableLine 3 (bytesOf "2303941") ∧ bytesOf "2303941" ≠ [] ∧
      ¬(allDigits (bytesOf "2303941") ∧ (bytesOf "2303941").length ≤ 6)) :=
  ⟨⟨bytesOf ",X\n", by decide, by decide, by decide⟩,
    ⟨⟨bytesOf ",X\n", by decide, by decide, by decide⟩, by decide, by decide, by decide⟩,
    ⟨bytesOf ",X\n", by decide, by decide, by decide⟩, by decide, by decide⟩

/-- The largest latitude and the next value (TG4, TG5). -/
theorem test_witness_CoordConvertsExactly_lat :
    ((stableText 24 "$T,9000.0000,S,X\n" 3).stableLine.drop 3 =
        bytesOf "9000" ++ [0x2E#8] ++ bytesOf "0000" ++ [0x2C#8] ++ 0x53#8 :: bytesOf ",X\n" ∧
      allDigits (bytesOf "9000") ∧ allDigits (bytesOf "0000") ∧ decimal (bytesOf "9000") = 9000 ∧
      IsRounded (9000 % 100 * 10 ^ 4 + 0) (60 * 10 ^ 4) 0 ∧ 9000 / 100 * 10 ^ 7 + 0 ≤ 900000000) ∧
    ((stableText 24 "$T,9000.0001,N,X\n" 3).stableLine.drop 3 =
        bytesOf "9000" ++ [0x2E#8] ++ bytesOf "0001" ++ [0x2C#8] ++ 0x4E#8 :: bytesOf ",X\n" ∧
      decimal (bytesOf "0001") = 1 ∧
      IsRounded (9000 % 100 * 10 ^ 4 + 1) (60 * 10 ^ 4) 17 ∧ 900000000 < 9000 / 100 * 10 ^ 7 + 17) :=
  ⟨⟨by decide, by decide, by decide, by decide, ⟨by decide, by decide⟩, by decide⟩,
    ⟨by decide, by decide, ⟨by decide, by decide⟩, by decide⟩⟩

/-- The largest longitude and the next value (TG6, TG7), and the fewest integer digits (TG11). -/
theorem test_witness_CoordConvertsExactly_lon :
    ((stableText 24 "$T,18000.0000,W,X\n" 3).stableLine.drop 3 =
        bytesOf "18000" ++ [0x2E#8] ++ bytesOf "0000" ++ [0x2C#8] ++ 0x57#8 :: bytesOf ",X\n" ∧
      allDigits (bytesOf "18000") ∧ (bytesOf "18000").length ≤ 5 ∧ decimal (bytesOf "18000") = 18000 ∧
      IsRounded (18000 % 100 * 10 ^ 4 + 0) (60 * 10 ^ 4) 0 ∧ 18000 / 100 * 10 ^ 7 + 0 ≤ 1800000000) ∧
    ((stableText 24 "$T,18000.00001,W,X\n" 3).stableLine.drop 3 =
        bytesOf "18000" ++ [0x2E#8] ++ bytesOf "00001" ++ [0x2C#8] ++ 0x57#8 :: bytesOf ",X\n" ∧
      IsRounded (18000 % 100 * 10 ^ 5 + 1) (60 * 10 ^ 5) 2 ∧ 1800000000 < 18000 / 100 * 10 ^ 7 + 2) ∧
    ((stableText 24 "$T,7.5,S,X\n" 3).stableLine.drop 3 =
        bytesOf "7" ++ [0x2E#8] ++ bytesOf "5" ++ [0x2C#8] ++ 0x53#8 :: bytesOf ",X\n" ∧
      1 ≤ (bytesOf "7").length ∧ IsRounded (7 % 100 * 10 ^ 1 + 5) (60 * 10 ^ 1) 1250000) :=
  ⟨⟨by decide, by decide, by decide, by decide, ⟨by decide, by decide⟩, by decide⟩,
    ⟨by decide, ⟨by decide, by decide⟩, by decide⟩, ⟨by decide, by decide, ⟨by decide, by decide⟩⟩⟩

/-- TG36, TG35, TG25, TG31 and TG39. -/
theorem test_witness_CoordRejectsInOrder :
    (1 < (0x02#8 : Byte).toNat ∧ (0x01#8 : Byte).toNat ≤ 1) ∧
    IsTokenAt (stableText 24 "$T,,N,X\n" 3).stableLine 3 [] ∧
    (IsTokenAt (stableText 24 "$T,4807,N,X\n" 3).stableLine 3 (bytesOf "4807") ∧ bytesOf "4807" ≠ [] ∧
      ¬∃ I F, bytesOf "4807" = I ++ [0x2E#8] ++ F ∧ allDigits I ∧ allDigits F ∧ 1 ≤ I.length ∧ I.length ≤ 5) ∧
    (IsTokenAt (stableText 24 "$T,4807.0,n,X\n" 3).stableLine 3 (bytesOf "4807" ++ [0x2E#8] ++ bytesOf "0") ∧
      allDigits (bytesOf "4807") ∧ allDigits (bytesOf "0") ∧
      ¬∃ h rest, (stableText 24 "$T,4807.0,n,X\n" 3).stableLine.drop (3 + 6) = 0x2C#8 :: h :: rest ∧
        h ∈ [0x4E#8, 0x53#8, 0x45#8, 0x57#8]) := by
  refine ⟨by decide, ⟨bytesOf ",N,X\n", by decide, by decide, by decide⟩,
    ⟨⟨bytesOf ",N,X\n", by decide, by decide, by decide⟩, by decide, ?_⟩,
    ⟨bytesOf ",n,X\n", by decide, by decide, by decide⟩, by decide, by decide, ?_⟩
  · rintro ⟨I, F, hT, -⟩
    exact absurd (hT ▸ by simp : (0x2E#8 : Byte) ∈ bytesOf "4807") (by decide)
  · rintro ⟨h, rest, e, hm⟩
    rw [show (stableText 24 "$T,4807.0,n,X\n" 3).stableLine.drop (3 + 6) = [0x2C#8, 0x6E#8, 0x2C#8, 0x58#8, 0x0A#8] from by decide] at e
    injection e with _ e
    injection e with e _
    exact absurd (e ▸ hm) (by decide)

/-- The first and the last assigned number, and an unassigned one between. -/
theorem test_witness_RdregReadsTheNumberedRegister : ∃ table : List (Byte × Nat),
    table =
      [(0x00#8, (waiting 2).hour.toNat), (0x01#8, (waiting 2).minute.toNat), (0x02#8, (waiting 2).second.toNat),
       (0x03#8, (waiting 2).millis.toNat), (0x04#8, (waiting 2).day.toNat), (0x05#8, (waiting 2).month.toNat),
       (0x06#8, (waiting 2).year.toNat), (0x08#8, (waiting 2).latRaw.toNat), (0x09#8, (waiting 2).latFix.toNat),
       (0x0A#8, (waiting 2).latHemi.toNat), (0x0C#8, (waiting 2).lonRaw.toNat), (0x0D#8, (waiting 2).lonFix.toNat),
       (0x0E#8, (waiting 2).lonHemi.toNat), (0x0F#8, (waiting 2).rvalid.toNat), (0x10#8, (waiting 2).cur.toNat),
       (0x11#8, if (waiting 2).act then 1 else 0), (0x12#8, if (waiting 2).new then 1 else 0), (0x13#8, (waiting 2).fp.toNat),
       (0x18#8, (waiting 2).seq.toNat), (0x19#8, (waiting 2).subcnt.val),
       (0x1A#8, match (waiting 2).awst with | .none => 0 | .waiting => 1 | .matched => 2 | .timedOut => 3),
       (0x1B#8, (waiting 2).tmo.toNat), (0x1C#8, (waiting 2).rxn.toNat), (0x1D#8, (waiting 2).rxlen.toNat),
       (0x1E#8, match (waiting 2).uplpend with | .none => 0 | .unit => 1 | .final => 2),
       (0x1F#8, (waiting 2).rxck.toNat), (0x20#8, (waiting 2).explen.toNat)] ∧
    (0x00#8, 0) ∈ table ∧ (0x1A#8, 1) ∈ table ∧ (0x20#8, 9) ∈ table ∧
    0x07#8 ∉ table.map Prod.fst ∧ 0x21#8 ∉ table.map Prod.fst := ⟨_, rfl, by decide⟩

theorem test_witness_PsendSendsOnePacket (p : List Byte) (h : p.length = 65526) :
    9 + p.length ≤ 65535 ∧ 65535 < 9 + (0x00#8 :: p).length := by simp [h]

/-- A busy wait; a zero budget, no byte and 192 bytes; one byte and 191 bytes. -/
theorem test_witness_AwaitStartsTheWait :
    (waiting 2).awst = .waiting ∧ State.reset.awst ≠ .waiting ∧ State.reset.exp.wf = true ∧
    191 < (List.replicate 192 0x00#8 : List Byte).length ∧ (List.replicate 191 0x00#8 : List Byte).length ≤ 191 ∧
    1 ≤ ([0x01#8] : List Byte).length ∧ (1#16 : Half) ≠ 0 := by decide

theorem test_witness_PrxOutsideAWaitIsDropped : State.reset.awst ≠ .waiting := by decide

theorem test_witness_PrxFindsThePreamble :
    (waiting 2).Inv ∧ (waiting 2).awst = .waiting ∧ (waiting 2).rxn = 0 ∧ (receiving 1 0 0).Inv ∧
    (receiving 1 0 0).awst = .waiting ∧ (receiving 1 0 0).rxn = 1 := by
  and_intros <;> decide

/-- The lengths 8, 9, 191 and 192 (TK6, TK7). -/
theorem test_witness_PrxReadsTheLength :
    (receiving 2 0 0).Inv ∧ (receiving 2 0 0).rxn = 2 ∧
    (receiving 3 0 0x09).Inv ∧ (receiving 3 0 0x09).rxn = 3 ∧
    9 = ((receiving 3 0 0x09).byteAt .rxbuf 2).toNat + 256 * (0x00#8 : Byte).toNat ∧
    State.Inv { receiving 3 0 0xBF with rxbuf := [(0, 0x04#8), (1, 0x24#8), (2, 0xBF#8)] } ∧
    191 = ({ receiving 3 0 0xBF with rxbuf := [(0, 0x04#8), (1, 0x24#8), (2, 0xBF#8)] }.byteAt .rxbuf 2).toNat +
      256 * (0x00#8 : Byte).toNat ∧
    State.Inv { receiving 3 0 0xC0 with rxbuf := [(0, 0x04#8), (1, 0x24#8), (2, 0xC0#8)] } ∧
    State.Inv { receiving 3 0 0x08 with rxbuf := [(0, 0x04#8), (1, 0x24#8), (2, 0x08#8)] } := by
  and_intros <;> decide

/-- Each byte class of the candidate E, first and last. -/
theorem test_witness_PrxReadsBodyAndChecksum :
    (receiving 4 9 0x09).Inv ∧ (receiving 4 9 0x09).awst = .waiting ∧ 4 ≤ (receiving 4 9 0x09).rxn.toNat ∧
    (receiving 4 9 0x09).rxn.toNat < (receiving 4 9 0x09).rxlen.toNat - 3 ∧
    (receiving 6 9 0xF4).Inv ∧ (receiving 6 9 0xF4).rxn.toNat = (receiving 6 9 0xF4).rxlen.toNat - 3 ∧
    (receiving 6 9 0xF4).rxck = 0xF4#8 ∧
    (receiving 7 9 0xF4).Inv ∧ (receiving 7 9 0xF4).rxn.toNat = (receiving 7 9 0xF4).rxlen.toNat - 2 := by
  and_intros <;> decide

/-- The last byte of E, in a wait for E, in a wait for an other packet of the same length, and in a unit's wait. -/
theorem test_witness_PrxCompletesTheCandidate :
    (receiving 8 9 0xF4).Inv ∧ (receiving 8 9 0xF4).awst = .waiting ∧ 4 ≤ (receiving 8 9 0xF4).rxn.toNat ∧
    (receiving 8 9 0xF4).rxn.toNat + 1 = (receiving 8 9 0xF4).rxlen.toNat ∧
    (receiving 8 9 0xF4).rxlen = (receiving 8 9 0xF4).explen ∧
    State.Inv { receiving 8 9 0xF4 with exp := [(4, 0xFE#8)] } ∧ State.Inv { receiving 8 9 0xF4 with explen := 10 } ∧
    State.Inv { receiving 8 9 0xF4 with uplpend := .unit, seq := 0xFFFE } := by
  and_intros <;> decide

/-- The shortest packet; and the bytes after it. -/
theorem test_witness_ExpectedPacketEndsTheWait :
    (waiting 2).Inv ∧ (waiting 2).awst = .waiting ∧ (waiting 2).rxn = 0 ∧ 9 = 9 + ([] : List Byte).length ∧ 9 ≤ 191 ∧
    (waiting 2).explen.toNat = 9 ∧ (waiting 2).bytesAt .exp 0 9 = packet 0x00FD#16 [] := by
  and_intros <;> decide

theorem test_witness_OnlyAWellFormedPacketMatches :
    (receiving 8 9 0xF4).Inv ∧ (receiving 8 9 0xF4).awst = .waiting ∧
    ∃ t, exec (.prx 0x0A#8) (receiving 8 9 0xF4) = .next t ∧ t.awst = .matched := ⟨by and_intros <;> decide, by decide, _, rfl, by decide⟩

theorem test_witness_TickCountsTheBudgetDown :
    State.reset.awst ≠ .waiting ∧ (waiting 2).awst = .waiting ∧ 2 ≤ (waiting 2).tmo.toNat ∧ (waiting 1).awst = .waiting ∧
    (waiting 1).tmo.toNat = 1 := by decide

theorem test_witness_WaitTimesOutAtItsBudget :
    ((waiting 1).awst = .waiting ∧ (waiting 1).tmo.toNat = 1 ∧ 1 ≤ 1) ∧
    (waiting 0xFFFF).awst = .waiting ∧ (waiting 0xFFFF).tmo.toNat = 65535 ∧ 1 ≤ 65535 := by decide

theorem test_witness_UbeginRestartsTheUpload :
    (waiting 2).awst = .waiting ∧ State.reset.awst ≠ .waiting := by decide

theorem test_witness_UsubStoresASubPayload :
    (List.replicate 60 0xAA#8 : List Byte).length = 60 ∧ (waiting 2).awst = .waiting ∧
    { State.reset with seq := 0xFFFF }.awst ≠ .waiting ∧ { State.reset with seq := 0xFFFF }.seq = 0xFFFF#16 ∧
    { State.reset with subcnt := 1, seq := 0xFFFE }.subcnt.val < 2 ∧ { State.reset with subcnt := 1, seq := 0xFFFE }.seq ≠ 0xFFFF#16 ∧
    State.reset.ubuf.wf = true := by decide

theorem test_witness_ThirdSubPayloadSendsTheUnit :
    { State.reset with subcnt := 2, seq := 0xFFFE }.Inv ∧ (List.replicate 60 0xAA#8 : List Byte).length = 60 ∧
    { State.reset with subcnt := 2, seq := 0xFFFE }.awst ≠ .waiting ∧ { State.reset with subcnt := 2, seq := 0xFFFE }.seq ≠ 0xFFFF#16 ∧
    { State.reset with subcnt := 2, seq := 0xFFFE }.subcnt = 2 := by
  and_intros <;> decide

theorem test_witness_ThreeSubPayloadsEmitOneUnit :
    { State.reset with seq := 0xFFFE }.Inv ∧ (List.replicate 180 0xAA#8 : List Byte).length = 180 ∧
    { State.reset with seq := 0xFFFE }.awst ≠ .waiting ∧ { State.reset with seq := 0xFFFE }.seq ≠ 0xFFFF#16 ∧
    { State.reset with seq := 0xFFFE }.subcnt = 0 := by
  and_intros <;> decide

theorem test_witness_UfinSendsTheFinalPacket :
    (waiting 2).awst = .waiting ∧ { State.reset with subcnt := 1 }.awst ≠ .waiting ∧ { State.reset with subcnt := 1 }.subcnt ≠ 0 ∧
    State.reset.Inv ∧ State.reset.awst ≠ .waiting ∧ State.reset.subcnt = 0 := by
  and_intros <;> decide

theorem test_witness_InvariantHoldsAfterReset :
    Config.Params.standard.wf = true ∧
    Config.Params.wf { Config.Params.standard with maxLine := 2, dollarPolicy := .reset, srcList := [], uplTmo := 0xFFFF } = true := by
  decide

theorem test_witness_EveryStepKeepsTheInvariant :
    { receiving 8 9 0xF4 with port := [.command [0x42#8, 0x0A#8]] }.Inv ∧
    ∃ t, step { receiving 8 9 0xF4 with port := [.command [0x42#8, 0x0A#8]] } = .next t ∧ t.awst = .matched :=
  ⟨by and_intros <;> decide, _, rfl, by decide⟩

theorem test_witness_WellFormedStateNeverStops : { waiting 1 with port := [.command [0x43#8]] }.Inv := by
  and_intros <;> decide

theorem test_witness_EveryOperationAnswersOnce :
    exec .tick State.reset = .next { State.reset with responses := [[0x33#8]] } := rfl

theorem test_witness_FailureWritesNothing :
    exec .tick State.reset = .next { State.reset with responses := [[0x33#8]] } ∧
    ({ State.reset with responses := [[0x33#8]] } : State).responses = State.reset.responses ++ [Status.notWaiting.code :: []] ∧
    Status.notWaiting.mayWrite = false := ⟨rfl, rfl, rfl⟩

theorem test_witness_OnlyFeedWritesTheActiveBuffer :
    (∃ t, exec (.feed 0x41#8) (sized 8) = .next t ∧ t.buf0 = [(0, 0x41#8)]) ∧ (∀ b, Instr.take ≠ .feed b) ∧
    ∃ t, exec .take (sized 8) = .next t := ⟨⟨_, rfl, rfl⟩, nofun, _, rfl⟩

theorem test_witness_ReadOperationsChangeNothing :
    exec (.rdreg 0x10#8) State.reset = .next { State.reset with responses := [[0x00#8, 0x00#8, 0x00#8, 0x00#8, 0x00#8]] } ∧
    ∃ r, Instr.rdreg 0x10#8 = .rdreg r := ⟨rfl, _, rfl⟩

theorem test_witness_ResultRegistersBelongToTheirDecoder :
    ∃ t, exec .timed (stableText 16 "$T,0,X\n" 3) = .next t ∧ t.rvalid = timeV ∧ Instr.timed ≠ .dated ∧
      Instr.timed ≠ .coord 0#8 ∧ Instr.timed ≠ .coord 1#8 := ⟨_, rfl, by decide, by decide, by decide, by decide⟩

theorem test_witness_TransmitStreamIsAppendOnly :
    (∃ t, exec (.txframe [0x24#8]) State.reset = .next t) ∧ (∃ t, exec .has State.reset = .next t) ∧
    (∀ x, Instr.has ≠ .txframe x) ∧ (∀ c p, Instr.has ≠ .psend c p) ∧ (∀ d, Instr.has ≠ .usub d) ∧ Instr.has ≠ .ufin :=
  ⟨⟨_, rfl⟩, ⟨_, rfl⟩, nofun, nofun, nofun, nofun⟩

theorem test_witness_SavailFollowsTheFreshnessFlag :
    (∃ t, exec (.feed 0x0A#8) (sized 8) = .next t ∧ t.new = true) ∧ (∃ t, exec .take { sized 8 with new := true } = .next t) ∧
    ∃ t, exec .has { sized 8 with new := true } = .next t := ⟨⟨_, rfl, rfl⟩, ⟨_, rfl⟩, _, rfl⟩

theorem test_witness_SequenceCounterLaws :
    ∃ t, exec (.prx 0x0A#8) { receiving 8 9 0xF4 with uplpend := .unit, seq := 0xFFFE } = .next t ∧ t.seq = 0xFFFF#16 :=
  ⟨_, rfl, by decide⟩

theorem test_witness_WaitEndsOnlyByMatchOrTimeout :
    (waiting 1).awst = .waiting ∧ (∃ t, exec .tick (waiting 1) = .next t ∧ t.awst = .timedOut) ∧
    ∃ t, exec .take (waiting 1) = .next t ∧ t.awst = .waiting := ⟨rfl, ⟨_, rfl, rfl⟩, _, rfl, rfl⟩

theorem test_witness_PacketSideIgnoresTheSentenceSide :
    isPacketSide .tick = true ∧ ∃ t, step { waiting 1 with port := [.command [0x43#8]] } = .next t := ⟨rfl, _, rfl⟩

end Sys2Proof.Tests
end

section
/-!
PROOF. The state after reset (10_state.md R45): what its arrays and registers read as, and why its stable line is empty.
-/
namespace Sys2Proof.Machine

/-! ### `State.resetWith` -/

@[simp] theorem State.resetWith_mem (p : Config.Params) (S : Space) : (State.resetWith p).mem S = [] := by
  rcases S with (_ | _) | _ | _ | _ <;> rfl

@[simp] theorem State.resetWith_byteAt (p : Config.Params) (S : Space) (a : Nat) : (State.resetWith p).byteAt S a = 0#8 := by
  rw [State.byteAt, State.resetWith_mem, Memory.read_nil]

/-- R28, R45: every register `RDREG` can read holds 0 after reset. -/
@[simp] theorem State.resetWith_readReg (p : Config.Params) (g : Reg) : (State.resetWith p).readReg g = 0 := by
  cases g <;> rfl

/-! ### The empty line -/

/-- A stable buffer that begins with 0x00 holds the empty line (00_scope.md R12), whatever stands behind that byte. -/
theorem State.stableLine_eq_nil (s : State) (h : s.byteAt s.stable 0 = 0#8) : s.stableLine = [] := by
  have hread : (s.mem (.line (!s.act))).read 0 = 0#8 := h
  unfold State.stableLine State.line State.bytesAt Memory.readBytes
  cases s.params.maxLine.val with
  | zero => rfl
  | succ n => simp [List.range'_succ, hread]

@[simp] theorem State.resetWith_stableLine (p : Config.Params) : (State.resetWith p).stableLine = [] :=
  State.stableLine_eq_nil _ (State.resetWith_byteAt ..)

/-- The empty line fails at step (a) (42_validator.md R151). -/
@[simp] theorem validate_nil (p : Config.Params) : validate p [] = (.badSentinel, []) := rfl

/-! ### `HAS` and `VALID` -/

theorem exec_has (s : State) : exec .has s = .next (s.answer .ok [bitByte s.new]) := execHas_eq s

theorem exec_valid (s : State) :
    exec .valid s = .next (s.answer (validate s.params s.stableLine).1 (validate s.params s.stableLine).2) := execValid_eq s

theorem exec_has_of_not_new (s : State) (h : s.new = false) :
    exec .has s = .next { s with responses := s.responses ++ [[0x00#8, 0x00#8]] } := by
  have hbit : bitByte s.new = 0x00#8 := by rw [h]; rfl
  rw [exec_has, hbit]
  rfl

theorem exec_valid_of_stableLine_nil (s : State) (h : s.stableLine = []) :
    exec .valid s = .next { s with responses := s.responses ++ [[0x10#8]] } := by
  rw [exec_valid, h, validate_nil]
  rfl

/-- Settles O8: the registers hold what `State.resetWith` writes, the arrays are empty, and the three consequences follow from `NEW` = 0
and the empty stable line. -/
theorem resetStateIsTheRestingState : Obligations.ResetStateIsTheRestingState := by
  rintro p _ rfl
  have hline : (State.resetWith p).stableLine = [] := State.resetWith_stableLine p
  have hhas := exec_has_of_not_new (State.resetWith p) rfl
  have hvalid := exec_valid_of_stableLine_nil (State.resetWith p) hline
  exact ⟨State.resetWith_byteAt p, rfl, rfl, rfl, rfl, State.resetWith_readReg p,
    rfl, rfl, rfl, rfl, rfl, rfl, rfl, rfl, rfl, rfl, rfl, rfl, rfl, rfl,
    rfl, rfl, rfl, rfl, rfl, rfl, rfl, rfl, rfl, rfl, rfl, hline, hhas, hvalid⟩

end Sys2Proof.Machine
end

section
/-!
PROOF. The digits `HEXR` answers (40_checksum.md R112, R115): `hexdigit` reads the spec's alphabet at the nibble it is given.
-/
namespace Sys2Proof.Machine

/-- R115: `hexdigit` lists the uppercase alphabet, the digit of value `d` at position `d`. -/
theorem alphabet_getElem?_eq_hexdigit :
    ∀ d < 16, "0123456789ABCDEF".toList[d]?.map (fun c => BitVec.ofNat 8 c.toNat) = some (hexdigit d) := by decide

theorem encode_hexr (v : Byte) : encode (.hexr v) = [0x11#8, v] := rfl

theorem exec_hexr (v : Byte) (s : State) :
    exec (.hexr v) s = .next (s.answer .ok [hexdigit (v.toNat / 16), hexdigit (v.toNat % 16)]) := execHexr_eq v s

/-- Settles O17: both nibbles of a byte are below 16, so each answered digit is the alphabet's at that nibble. -/
theorem hexrAnswersTwoDigits : Obligations.HexrAnswersTwoDigits := by
  refine ⟨encode_hexr, fun s v => ⟨hexdigit (v.toNat / 16), hexdigit (v.toNat % 16), exec_hexr v s, ?high, ?low⟩⟩
  case high =>
    have hhigh : v.toNat / 16 < 16 := by omega
    exact alphabet_getElem?_eq_hexdigit _ hhigh
  case low =>
    have hlow : v.toNat % 16 < 16 := Nat.mod_lt _ (by decide)
    exact alphabet_getElem?_eq_hexdigit _ hlow

end Sys2Proof.Machine
end

section
/-!
PROOF. The operations that hand a completed line over (41_line_assembler.md R132 to R134): `HAS`, `TAKE`, `LREAD`.
-/
namespace Sys2Proof.Machine

/-! ### `HAS` -/

theorem encode_has : encode .has = [0x02#8] := rfl

theorem State.resetWith_new (p : Config.Params) : (State.resetWith p).new = false := rfl

/-- Settles O13: `HAS` records one answer in the state it reads, and `bitByte` is the flag as the obligation spells it. -/
theorem hasAnswersTheFreshnessFlag : Obligations.HasAnswersTheFreshnessFlag :=
  ⟨encode_has, exec_has, State.resetWith_new⟩

/-! ### `TAKE` -/

theorem encode_take : encode .take = [0x03#8] := rfl

theorem exec_take (s : State) : exec .take s = .next (s.claimLine.answer .ok [bitByte (!s.act)]) := execTake_eq s

/-- The stable index 1 - `ACT` as a byte (R133). -/
theorem bitByte_not (b : Bool) : bitByte (!b) = if b then 0x00#8 else 0x01#8 := by
  cases b <;> rfl

/-- Settles O14: the claim writes `NEW` and `FP` in every state, and the answered index is the complement of `ACT`. -/
theorem takeClaimsTheStableLine : Obligations.TakeClaimsTheStableLine := by
  refine ⟨encode_take, fun s => ?_⟩
  rw [exec_take, bitByte_not]
  rfl

/-! ### `LREAD` -/

theorem encode_lread (i : Byte) : encode (.lread i) = [0x04#8, i] := rfl

theorem exec_lread (i : Byte) (s : State) : exec (.lread i) s = execLread i s := rfl

theorem exec_lread_of_lt (i : Byte) (s : State) (h : i.toNat < s.params.maxLine.val) :
    exec (.lread i) s = .next (s.answer .ok [s.byteAt s.stable i.toNat]) :=
  (exec_lread i s).trans ((execLread_next i s _).2 (.inr ⟨h, rfl⟩))

theorem exec_lread_of_le (i : Byte) (s : State) (h : s.params.maxLine.val ≤ i.toNat) :
    exec (.lread i) s = .next (s.answer .badOperand []) :=
  (exec_lread i s).trans ((execLread_next i s _).2 (.inl ⟨h, rfl⟩))

/-- Settles O15: below MAXLINE the byte of the stable buffer, from MAXLINE on the failure; both only record an answer. -/
theorem lreadAnswersAStableByte : Obligations.LreadAnswersAStableByte :=
  ⟨encode_lread, fun s i => ⟨exec_lread_of_lt i s, exec_lread_of_le i s⟩⟩

end Sys2Proof.Machine
end

section
/-!
PROOF. The field pointer put back to the start and the test for an empty field (43_field_decoder.md R170, R172): `FRST`, `FEMPTY`.
-/
namespace Sys2Proof.Machine

/-! ### `FRST` -/

theorem encode_frst : encode .frst = [0x30#8] := rfl

theorem exec_frst (s : State) : exec .frst s = .next ((s.setFp 0).answer .ok []) := execFrst_eq s

/-- Settles O24: `setFp` and `answer` each write one component, `FP` and the recorded responses. -/
theorem frstPointsAtTheStart : Obligations.FrstPointsAtTheStart :=
  ⟨encode_frst, exec_frst⟩

/-! ### `FEMPTY` -/

theorem encode_fempty : encode .fempty = [0x32#8] := rfl

theorem exec_fempty (s : State) :
    exec .fempty s = .next (s.answer .ok [bitByte (fieldEmpty s.stableLine s.fp.toNat)]) := execFempty_eq s

/-- At a byte of the line, the field is empty when that byte is a delimiter. -/
theorem fieldEmpty_of_getElem? {L : List Byte} {p : Nat} {b : Byte} (h : L[p]? = some b) :
    fieldEmpty L p = isDelimiter b := by
  have hlt : ¬L.length ≤ p := Nat.not_le.2 (List.getElem?_eq_some_iff.1 h).1
  simp [fieldEmpty, hlt, List.getD_eq_getElem?_getD, h]

/-- R172's test: the end of the line, a comma or the marker. -/
theorem fieldEmpty_eq_true_iff (L : List Byte) (p : Nat) :
    fieldEmpty L p = true ↔ L.length ≤ p ∨ L[p]? = some 0x2C#8 ∨ L[p]? = some 0x2A#8 := by
  cases h : L[p]? with
  | none =>
    have hend : L.length ≤ p := List.getElem?_eq_none_iff.1 h
    simp [fieldEmpty, hend]
  | some b =>
    have hlt : ¬L.length ≤ p := Nat.not_le.2 (List.getElem?_eq_some_iff.1 h).1
    simp [fieldEmpty_of_getElem? h, isDelimiter_eq, hlt]

/-- Settles O26: the answer is `fieldEmpty` as a byte, and that test is R172's condition at the end of the line and at each byte. -/
theorem femptyTellsEmptyFields : Obligations.FemptyTellsEmptyFields := by
  refine ⟨encode_fempty, fun s => ⟨fun hempty => ?empty, fun b hb hcomma hmarker => ?other⟩⟩
  case empty =>
    rw [exec_fempty, (fieldEmpty_eq_true_iff ..).2 hempty]
    rfl
  case other =>
    have hdelim : isDelimiter b = false := by
      simpa using (not_isDelimiter_eq b).2 ⟨hcomma, hmarker⟩
    rw [exec_fempty, fieldEmpty_of_getElem? hb, hdelim]
    rfl

end Sys2Proof.Machine
end

section
/-!
PROOF. Command words (30_encoding.md R80, R81, R84, R89): the operand bytes and the reader of each row undo each other, so decoding and
encoding do; and a row's reader succeeds exactly on the lengths of its format.
-/
namespace Sys2Proof

/-! ### What the encoder writes is read back -/

/-- R81: the reader of an operation's row gives back its operands. -/
theorem decodeOperands_operandBytes (i : Instr) (h : i.wf = true) :
    decodeOperands i.opcode i.operandBytes = some i := by
  cases i
  case txframe text =>
    have hlen : text.length < 256 := by simpa [Instr.wf] using h
    exact (readFS_some ..).2 ⟨_, text, rfl, by simp [Nat.mod_eq_of_lt hlen], rfl⟩
  case psend cmd payload =>
    have hlen : payload.length < 65536 := by simpa [Instr.wf] using h
    refine (readFP_some ..).2 ⟨_, _, _, _, payload, rfl, ?_, by rw [u16_lo8_hi8]⟩
    rw [← u16_toNat, u16_lo8_hi8, BitVec.toNat_ofNat, Nat.mod_eq_of_lt hlen]
  case await budget expected =>
    have hlen : expected.length < 256 := by simpa [Instr.wf] using h
    exact (readFA_some ..).2 ⟨_, _, _, expected, rfl, by simp [Nat.mod_eq_of_lt hlen], by rw [u16_lo8_hi8]⟩
  case usub d =>
    have hlen : d.length = 60 := by simpa [Instr.wf] using h
    exact (readFU_some ..).2 ⟨hlen, rfl⟩
  all_goals rfl

/-- Settles O1: the word begins with the opcode of its row, and the row's reader gives the operands back. -/
theorem decodeOfEncodeIsTheInstruction : Obligations.DecodeOfEncodeIsTheInstruction := fun i hwf =>
  (decode_eq_ok ..).2 ⟨i.opcode, i.operandBytes, rfl, decodeOperands_operandBytes i hwf⟩

/-! ### What the decoder reads is written again -/

/-- R81: what a row's reader accepts is a well-formed operation of that row, and its operand bytes are the ones read. -/
theorem operandBytes_decodeOperands (o : Opcode) (rest : List Byte) (i : Instr) (h : decodeOperands o rest = some i) :
    i.wf = true ∧ i.opcode = o ∧ i.operandBytes = rest := by
  cases o
  case has | take | valid | frst | fnext | fempty | timed | dated | tick | ubegin | ufin =>
    obtain ⟨rfl, rfl⟩ := (readF0_some ..).1 h
    exact ⟨rfl, rfl, rfl⟩
  case feed | lread | hexr | coord | rdreg | prx =>
    obtain ⟨a, rfl, rfl⟩ := (readF1_some ..).1 h
    exact ⟨rfl, rfl, rfl⟩
  case xorrng | hexp =>
    obtain ⟨a, b, rfl, rfl⟩ := (readF2_some ..).1 h
    exact ⟨rfl, rfl, rfl⟩
  case txframe =>
    obtain ⟨n, text, rfl, hlen, rfl⟩ := (readFS_some ..).1 h
    have hn := n.isLt
    exact ⟨by simp [Instr.wf]; omega, rfl, by simp [Instr.operandBytes, hlen]⟩
  case psend =>
    obtain ⟨c0, c1, n0, n1, payload, rfl, hlen, rfl⟩ := (readFP_some ..).1 h
    rw [← u16_toNat] at hlen
    have hn := (u16 n0 n1).isLt
    exact ⟨by simp [Instr.wf]; omega, rfl, by simp [Instr.operandBytes, hlen]⟩
  case await =>
    obtain ⟨t0, t1, n, expected, rfl, hlen, rfl⟩ := (readFA_some ..).1 h
    have hn := n.isLt
    exact ⟨by simp [Instr.wf]; omega, rfl, by simp [Instr.operandBytes, hlen]⟩
  case usub =>
    obtain ⟨hlen, rfl⟩ := (readFU_some ..).1 h
    exact ⟨by simp [Instr.wf, hlen], rfl, rfl⟩

/-- Settles O2: the row of byte 0 and the bytes read from the rest are the ones the encoder writes. -/
theorem encodeOfDecodeIsTheWord : Obligations.EncodeOfDecodeIsTheWord := by
  intro w i h
  obtain ⟨o, rest, rfl, hread⟩ := (decode_eq_ok ..).1 h
  obtain ⟨hwf, rfl, rfl⟩ := operandBytes_decodeOperands o rest i hread
  exact ⟨hwf, rfl⟩

/-! ### Which words are legal -/

/-- The operand bytes a format allows (R81). -/
def Format.admits : Format → List Byte → Prop
  | .f0, rest => rest.length = 0
  | .f1, rest => rest.length = 1
  | .f2, rest => rest.length = 2
  | .fs, rest => ∃ n s, rest = n :: s ∧ s.length = n.toNat
  | .fp, rest => ∃ c0 c1 n0 n1 p, rest = c0 :: c1 :: n0 :: n1 :: p ∧ p.length = n0.toNat + 256 * n1.toNat
  | .fa, rest => ∃ t0 t1 n e, rest = t0 :: t1 :: n :: e ∧ e.length = n.toNat
  | .fu, rest => rest.length = 60

theorem decodeOperands_isSome (o : Opcode) (rest : List Byte) :
    (∃ i, decodeOperands o rest = some i) ↔ o.format.admits rest := by
  cases o
  case has | take | valid | frst | fnext | fempty | timed | dated | tick | ubegin | ufin =>
    simp [decodeOperands, readF0_some, Opcode.format, Format.admits]
  case feed | lread | hexr | coord | rdreg | prx =>
    simp [decodeOperands, readF1_some, Opcode.format, Format.admits, List.length_eq_one_iff]
  case xorrng | hexp =>
    simp [decodeOperands, readF2_some, Opcode.format, Format.admits, List.length_eq_two]
  case txframe => simp [decodeOperands, readFS_some, Opcode.format, Format.admits]
  case psend => simp [decodeOperands, readFP_some, Opcode.format, Format.admits]
  case await => simp [decodeOperands, readFA_some, Opcode.format, Format.admits]
  case usub => simp [decodeOperands, readFU_some, Opcode.format, Format.admits]

/-- A word is legal when byte 0 is an opcode whose format admits the rest. -/
theorem decode_isOk_iff (w : List Byte) :
    (∃ i, decode w = .ok i) ↔ ∃ o rest, w = Opcode.byte o :: rest ∧ o.format.admits rest := by
  simp only [decode_eq_ok, ← decodeOperands_isSome]
  constructor
  · rintro ⟨i, o, rest, hw, hread⟩
    exact ⟨o, rest, hw, i, hread⟩
  · rintro ⟨o, rest, hw, i, hread⟩
    exact ⟨i, o, rest, hw, hread⟩

/-- A byte that R84 lists with a format is the opcode of a row with that format. -/
theorem exists_opcode_of_format (op : Byte) (f : Format) (h : (opcodeOf op).map Opcode.format = some f) :
    ∃ o : Opcode, op = o.byte ∧ o.format = f := by
  obtain ⟨o, ho, hf⟩ := Option.map_eq_some_iff.1 h
  exact ⟨o, opcodeOf_eq_some op o ho, hf⟩

/-- Settles O3: the rows of each format are the listed opcodes, and a format admits the listed lengths. -/
theorem legalWordsByOpcodeAndLength : Obligations.LegalWordsByOpcodeAndLength := by
  intro w
  rw [decode_isOk_iff]
  constructor
  · rintro ⟨o, rest, rfl, hadm⟩
    refine ⟨o.byte, rest, rfl, ?_⟩
    cases o
    case has | take | valid | frst | fnext | fempty | timed | dated | tick | ubegin | ufin =>
      exact .inl ⟨by decide, hadm⟩
    case feed | lread | hexr | coord | rdreg | prx => exact .inr (.inl ⟨by decide, hadm⟩)
    case xorrng | hexp => exact .inr (.inr (.inl ⟨by decide, hadm⟩))
    case txframe => exact .inr (.inr (.inr (.inl ⟨rfl, hadm⟩)))
    case psend => exact .inr (.inr (.inr (.inr (.inl ⟨rfl, hadm⟩))))
    case await => exact .inr (.inr (.inr (.inr (.inr (.inl ⟨rfl, hadm⟩)))))
    case usub => exact .inr (.inr (.inr (.inr (.inr (.inr ⟨rfl, hadm⟩)))))
  · rintro ⟨op, rest, rfl, hrow⟩
    suffices hf : ∃ f, (opcodeOf op).map Opcode.format = some f ∧ f.admits rest by
      obtain ⟨f, hop, hadm⟩ := hf
      obtain ⟨o, rfl, rfl⟩ := exists_opcode_of_format op f hop
      exact ⟨o, rest, rfl, hadm⟩
    have f0 : ∀ op ∈ [0x02#8, 0x03#8, 0x20#8, 0x30#8, 0x31#8, 0x32#8, 0x33#8, 0x34#8, 0x43#8, 0x48#8, 0x4A#8],
        (opcodeOf op).map Opcode.format = some .f0 := by decide
    have f1 : ∀ op ∈ [0x01#8, 0x04#8, 0x11#8, 0x35#8, 0x36#8, 0x42#8],
        (opcodeOf op).map Opcode.format = some .f1 := by decide
    have f2 : ∀ op ∈ [0x10#8, 0x12#8], (opcodeOf op).map Opcode.format = some .f2 := by decide
    rcases hrow with ⟨hop, h⟩ | ⟨hop, h⟩ | ⟨hop, h⟩ | ⟨rfl, h⟩ | ⟨rfl, h⟩ | ⟨rfl, h⟩ | ⟨rfl, h⟩
    · exact ⟨.f0, f0 op hop, h⟩
    · exact ⟨.f1, f1 op hop, h⟩
    · exact ⟨.f2, f2 op hop, h⟩
    · exact ⟨.fs, by decide, h⟩
    · exact ⟨.fp, by decide, h⟩
    · exact ⟨.fa, by decide, h⟩
    · exact ⟨.fu, by decide, h⟩

/-- Settles O4: the decoder evaluated at the example words. -/
theorem writtenWordsDecode : Obligations.WrittenWordsDecode :=
  ⟨rfl, rfl, rfl, rfl, rfl, rfl, rfl, rfl⟩

end Sys2Proof
end

section
/-!
PROOF. The step (00_scope.md R7): which event it takes off the port (10_state.md R33), and what the event does.
-/
namespace Sys2Proof.Machine

theorem step_of_port_nil (s : State) (h : s.port = []) : step s = .next s := by
  simp [step, (fetch_eq_none s).2 h]

theorem fetch_of_port_cons (s : State) (e : PortEvent) (rest : List PortEvent) (h : s.port = e :: rest) :
    fetch s = some (e, { s with port := rest }) :=
  (fetch_eq_some ..).2 ⟨rest, h, rfl⟩

theorem step_of_decode_ok (s : State) (w : List Byte) (rest : List PortEvent) (i : Instr)
    (hport : s.port = .command w :: rest) (hdec : decode w = .ok i) : step s = exec i { s with port := rest } := by
  simp [step, fetch_of_port_cons s _ rest hport, hdec]

theorem step_of_decode_error (s : State) (w : List Byte) (rest : List PortEvent) (e : DecodeError)
    (hport : s.port = .command w :: rest) (hdec : decode w = .error e) :
    step s = .next (State.answer .illegalOp [] { s with port := rest }) := by
  simp [step, fetch_of_port_cons s _ rest hport, hdec, illegalWord]

theorem step_of_reset (s : State) (rest : List PortEvent) (hport : s.port = .reset :: rest) :
    step s = .next { State.resetWith s.params with port := rest } := by
  simp [step, fetch_of_port_cons s _ rest hport, assertReset]

/-- Settles O5. -/
theorem stepRunsTheDecodedInstruction : Obligations.StepRunsTheDecodedInstruction := step_of_decode_ok

/-- Settles O6: a word that does not decode has a named reason, and every reason answers `ILLEGAL_OP`. -/
theorem illegalWordAnswersIllegalOp : Obligations.IllegalWordAnswersIllegalOp := by
  intro s w rest hport hillegal
  cases hdec : decode w with
  | ok i => exact absurd ⟨i, hdec⟩ hillegal
  | error e => exact step_of_decode_error s w rest e hport hdec

/-- Settles O7. -/
theorem stepWithNothingPresentedWaits : Obligations.StepWithNothingPresentedWaits := step_of_port_nil

/-- Settles O9. -/
theorem resetInputGivesTheResetState : Obligations.ResetInputGivesTheResetState := step_of_reset

end Sys2Proof.Machine
end

section
/-!
PROOF. The field decoder (43_field_decoder.md): the splitter's step, the grammars of the three numeric decoders as equations, and the
register read.
-/
namespace Sys2Proof.Machine

/-! ### `FNEXT` (R171) -/

/-- Settles O25: the field end is the byte after the token, which is a comma, a marker or the end of the line. -/
theorem fnextStepsOverTheComma : Obligations.FnextStepsOverTheComma := by
  intro s T hT
  obtain ⟨hend, hat⟩ := fieldEnd_of_isTokenAt _ _ _ hT
  refine ⟨fun hcomma => ?comma, fun hother => ?other⟩
  case comma =>
    have hlt : fieldEnd s.stableLine s.fp.toNat < s.stableLine.length := by
      rw [← Nat.not_le, hend, hcomma]
      simp
    have hpos := hat hlt
    have hget : s.stableLine.getD (fieldEnd s.stableLine s.fp.toNat) 0#8 ≠ Config.marker := by
      rw [hpos, List.getD_eq_getElem?_getD, hcomma]
      decide
    refine ⟨?_, ?_⟩
    · rw [← hpos]
      exact (execFnext_next s _).2 (.inr ⟨⟨hlt, hget⟩, rfl⟩)
    · have := s.stableLine_length
      omega
  case other =>
    refine (execFnext_next s _).2 (.inl ⟨?_, rfl⟩)
    by_cases hle : s.stableLine.length ≤ fieldEnd s.stableLine s.fp.toNat
    · exact .inl hle
    · rw [hat (Nat.lt_of_not_le hle), List.getD_eq_getElem?_getD]
      rcases getElem?_after_isTokenAt _ _ _ hT with hnone | hcomma | hmarker
      · exact absurd (hend.2 hnone) hle
      · exact absurd hcomma hother
      · exact .inr (by rw [hmarker]; rfl)

/-! ### `TIMED` (R175) -/

/-- The grammar of a time token: one to six integer digits, then nothing or a point and the fraction digits. -/
def IsTimeToken (T I F : List Byte) : Prop :=
  ∃ frac, T = I ++ frac ∧ (frac = [] ∧ F = [] ∨ frac = 0x2E#8 :: F) ∧ allDigits I ∧ allDigits F ∧ 1 ≤ I.length ∧ I.length ≤ 6

/-- The fields of a time token with the integer digits `I` and the fraction digits `F`. -/
def timeOf (I F : List Byte) : TimeFields where
  hour := decimal I / 10000
  minute := decimal I / 100 % 100
  second := decimal I % 100
  millis := decimal ((F ++ [0x30#8, 0x30#8, 0x30#8]).take 3)

/-- `decodeTime` reads exactly the tokens of the grammar. -/
theorem decodeTime_eq_some (T : List Byte) (f : TimeFields) :
    decodeTime T = some f ↔ ∃ I F, IsTimeToken T I F ∧ f = timeOf I F := by
  constructor
  · intro h
    unfold decodeTime at h
    dsimp only at h
    split at h
    · cases h
    · next hlen =>
      split at h
      · cases h
      · next F hF =>
        obtain ⟨hFd, hfrac⟩ := (fractionOf_eq _ _).1 hF
        refine ⟨digits T, F, ⟨T.drop (digits T).length, (digits_append_drop T).symm, hfrac, allDigits_digits T, hFd,
          by omega, by omega⟩, ?_⟩
        rw [← Option.some.inj h]
        simp only [timeOf, value_eq_decimal]
        rfl
  · rintro ⟨I, F, ⟨frac, rfl, hfrac, hI, hF, h1, h6⟩, rfl⟩
    have hstop : ∀ c ∈ frac.head?, isDigit c = false := by
      rcases hfrac with ⟨rfl, -⟩ | rfl
      · simp
      · intro c hc
        obtain rfl : 0x2E#8 = c := by simpa using hc
        decide
    have hread : fractionOf frac = some F := (fractionOf_eq _ _).2 ⟨hF, hfrac⟩
    unfold decodeTime
    rw [digits_of_allDigits I frac hI hstop]
    dsimp only
    rw [if_neg (by omega), List.drop_left, hread]
    simp only [timeOf, value_eq_decimal]
    rfl

/-- Three fraction digits make less than 1000 thousandths. -/
theorem decimal_take_three_le (F : List Byte) (hF : allDigits F) :
    decimal ((F ++ [0x30#8, 0x30#8, 0x30#8]).take 3) ≤ 999 := by
  have hlt := decimal_lt _ (allDigits_padDigits 3 F hF)
  rw [length_padDigits] at hlt
  have : decimal ((F ++ [0x30#8, 0x30#8, 0x30#8]).take 3) < 10 ^ 3 := hlt
  omega

/-- Six digits are at most two leading ones and four more. -/
theorem decimal_div_le (I : List Byte) (hI : allDigits I) (h6 : I.length ≤ 6) : decimal I / 10000 ≤ 99 := by
  have hlt := decimal_lt I hI
  have hpow : 10 ^ I.length ≤ 10 ^ 6 := Nat.pow_le_pow_right (by decide) h6
  omega

/-- The ranges R26 gives the time registers. -/
theorem decodeTime_le (T : List Byte) (f : TimeFields) (h : decodeTime T = some f) :
    f.hour ≤ 99 ∧ f.minute ≤ 99 ∧ f.second ≤ 99 ∧ f.millis ≤ 999 := by
  obtain ⟨I, F, ⟨frac, -, -, hI, hF, -, h6⟩, rfl⟩ := (decodeTime_eq_some T f).1 h
  refine ⟨decimal_div_le I hI h6, ?_, ?_, decimal_take_three_le F hF⟩
  all_goals
    simp only [timeOf]
    omega

/-- Settles O27: the token at `FP` is the one `TIMED` decodes, and its three outcomes are those of the grammar. -/
theorem timedDecodesTheTime : Obligations.TimedDecodesTheTime := by
  intro s T hT
  have htok := token_of_isTokenAt _ _ _ hT
  refine ⟨fun hempty => ?empty, fun I frac F hsplit hfrac hI hF h1 h6 => ?good, fun hne hbad => ?bad⟩
  case empty => exact (execTimed_next s _).2 (.inl ⟨htok.trans hempty, rfl⟩)
  case good =>
    have hdec : decodeTime T = some (timeOf I F) :=
      (decodeTime_eq_some ..).2 ⟨I, F, ⟨frac, hsplit, hfrac, hI, hF, h1, h6⟩, rfl⟩
    have hne : T ≠ [] := by
      rintro rfl
      have := congrArg List.length hsplit
      simp at this
      omega
    rw [← htok] at hdec hne
    exact ⟨(execTimed_next s _).2 (.inr (.inr ⟨hne, _, hdec, rfl⟩)), decimal_div_le I hI h6, decimal_take_three_le F hF⟩
  case bad =>
    have hdec : decodeTime T = none := by
      rw [Option.eq_none_iff_forall_ne_some]
      intro f hf
      obtain ⟨I, F, ⟨frac, hgram⟩, -⟩ := (decodeTime_eq_some ..).1 hf
      exact hbad ⟨I, frac, F, hgram⟩
    rw [← htok] at hdec hne
    exact (execTimed_next s _).2 (.inr (.inl ⟨hne, hdec, rfl⟩))

/-! ### `DATED` (R177) -/

/-- The fields of a date token. -/
def dateOf (T : List Byte) : DateFields where
  day := decimal T / 10000
  month := decimal T / 100 % 100
  year := decimal T % 100

/-- `decodeDate` reads exactly the tokens of at most six digits. -/
theorem decodeDate_eq_some (T : List Byte) (f : DateFields) :
    decodeDate T = some f ↔ (allDigits T ∧ T.length ≤ 6) ∧ f = dateOf T := by
  unfold decodeDate
  rw [Option.ite_none_left_eq_some, ne_eq, digits_eq_self, value_eq_decimal, Option.some.injEq]
  rw [not_or, not_not, Nat.not_lt, eq_comm (b := f)]
  rfl

/-- The ranges R26 gives the date registers. -/
theorem decodeDate_le (T : List Byte) (f : DateFields) (h : decodeDate T = some f) :
    f.day ≤ 99 ∧ f.month ≤ 99 ∧ f.year ≤ 99 := by
  obtain ⟨⟨hT, h6⟩, rfl⟩ := (decodeDate_eq_some T f).1 h
  refine ⟨decimal_div_le T hT h6, ?_, ?_⟩
  all_goals
    simp only [dateOf]
    omega

/-- Settles O28: the same three outcomes as for a time, by the grammar of a date. -/
theorem datedDecodesTheDate : Obligations.DatedDecodesTheDate := by
  intro s T hT
  have htok := token_of_isTokenAt _ _ _ hT
  refine ⟨fun hempty => ?empty, fun hne hdigits h6 => ?good, fun hne hbad => ?bad⟩
  case empty => exact (execDated_next s _).2 (.inl ⟨htok.trans hempty, rfl⟩)
  case good =>
    have hdec : decodeDate T = some (dateOf T) := (decodeDate_eq_some ..).2 ⟨⟨hdigits, h6⟩, rfl⟩
    rw [← htok] at hdec hne
    refine ⟨(execDated_next s _).2 (.inr (.inr ⟨hne, _, hdec, ?_⟩)), decimal_div_le T hdigits h6⟩
    rw [htok]
    rfl
  case bad =>
    have hdec : decodeDate T = none := by
      rw [Option.eq_none_iff_forall_ne_some]
      exact fun f hf => hbad ((decodeDate_eq_some ..).1 hf).1
    rw [← htok] at hdec hne
    exact (execDated_next s _).2 (.inr (.inl ⟨hne, hdec, rfl⟩))

/-! ### `COORD` (R180 to R184) -/

/-- The kinds are the operands 0 and 1. -/
theorem coordKindOf_eq_none (kind : Byte) : coordKindOf kind = none ↔ 1 < kind.toNat := by
  unfold coordKindOf
  constructor
  · intro h
    split at h
    · cases h
    · split at h
      · cases h
      · bv_omega
  · intro h
    rw [if_neg (by bv_omega), if_neg (by bv_omega)]

theorem exists_coordKindOf (kind : Byte) (h : kind.toNat ≤ 1) : ∃ k, coordKindOf kind = some k :=
  Option.ne_none_iff_exists'.1 fun hnone => by
    have := (coordKindOf_eq_none kind).1 hnone
    omega

/-- A token that is not of the grammar is rejected first. -/
theorem decodeCoord_of_coordDigits_none (k : CoordKind) (L : List Byte) (p : Nat) (h : coordDigits (token L p) = none) :
    decodeCoord k L p = .error .badField := by
  simp [decodeCoord, h]

/-- A missing hemisphere letter is rejected next. -/
theorem decodeCoord_of_hemisphere_none (k : CoordKind) (L : List Byte) (p : Nat) (I F : List Byte)
    (hdig : coordDigits (token L p) = some (I, F)) (hhem : hemisphereAfter L (p + (token L p).length) = none) :
    decodeCoord k L p = .error .badHemi := by
  simp [decodeCoord, hdig, hhem]

/-- With a letter the magnitude decides. -/
theorem decodeCoord_of_hemisphere (k : CoordKind) (L : List Byte) (p : Nat) (I F : List Byte) (h : Byte)
    (hdig : coordDigits (token L p) = some (I, F)) (hhem : hemisphereAfter L (p + (token L p).length) = some h) :
    decodeCoord k L p =
      if coordLimit k < coordMagnitude I F then .error .outOfRange
      else .ok { raw := coordRaw I F, mag := coordMagnitude I F, hemi := h } := by
  simp [decodeCoord, hdig, hhem]

/-- What a decoded coordinate is made of. -/
theorem decodeCoord_ok (k : CoordKind) (L : List Byte) (p : Nat) (c : CoordFields) (h : decodeCoord k L p = .ok c) :
    ∃ I F, coordDigits (token L p) = some (I, F) ∧ hemisphereAfter L (p + (token L p).length) = some c.hemi ∧
      c.mag ≤ coordLimit k ∧ c.raw = coordRaw I F := by
  cases hdig : coordDigits (token L p) with
  | none => simp [decodeCoord_of_coordDigits_none k L p hdig] at h
  | some IF =>
    obtain ⟨I, F⟩ := IF
    cases hhem : hemisphereAfter L (p + (token L p).length) with
    | none => simp [decodeCoord_of_hemisphere_none k L p I F hdig hhem] at h
    | some b =>
      rw [decodeCoord_of_hemisphere k L p I F b hdig hhem] at h
      split at h
      · cases h
      · next hle =>
        cases h
        exact ⟨I, F, rfl, rfl, Nat.le_of_not_lt hle, rfl⟩

/-- Five integer and four fraction digits stay below 10^9. -/
theorem coordRaw_le (I F : List Byte) (hI : allDigits I) (hF : allDigits F) (h5 : I.length ≤ 5) :
    coordRaw I F ≤ 999999999 := by
  have hint := decimal_lt I hI
  have hpow : 10 ^ I.length ≤ 10 ^ 5 := Nat.pow_le_pow_right (by decide) h5
  have hfrac := decimal_lt _ (allDigits_padDigits 4 F hF)
  rw [length_padDigits] at hfrac
  rw [coordRaw, value_eq_decimal, value_eq_decimal]
  omega

theorem isHemisphere_iff (h : Byte) : isHemisphere h = true ↔ h ∈ [0x4E#8, 0x53#8, 0x45#8, 0x57#8] := by
  simp [isHemisphere, or_assoc]

/-- The ranges R26 gives the coordinate registers. -/
theorem decodeCoord_le (k : CoordKind) (L : List Byte) (p : Nat) (c : CoordFields) (h : decodeCoord k L p = .ok c) :
    c.raw ≤ 999999999 ∧ c.mag ≤ coordLimit k ∧ isHemisphere c.hemi = true := by
  obtain ⟨I, F, hdig, hhem, hmag, hraw⟩ := decodeCoord_ok k L p c h
  obtain ⟨-, hI, hF, -, h5⟩ := (coordDigits_eq _ _ _).1 hdig
  exact ⟨hraw ▸ coordRaw_le I F hI hF h5, hmag, (isHemisphere_iff _).2 ((hemisphereAfter_eq _ _ _).1 hhem).1⟩

/-- A digit is no delimiter. -/
theorem ne_delimiter_of_digit (c : Byte) (h : 0x30 ≤ c.toNat ∧ c.toNat ≤ 0x39) : c ≠ 0x2C#8 ∧ c ≠ 0x2A#8 := by
  constructor
  all_goals
    rintro rfl
    revert h
    decide

/-- A coordinate followed by a comma is the token in front of it. -/
theorem isTokenAt_coord (L : List Byte) (p : Nat) (I F tail : List Byte) (hI : allDigits I) (hF : allDigits F)
    (h : L.drop p = I ++ [0x2E#8] ++ F ++ [0x2C#8] ++ tail) : IsTokenAt L p (I ++ [0x2E#8] ++ F) := by
  refine ⟨0x2C#8 :: tail, by simp [h], fun b hb => ?_, by simp⟩
  simp only [List.mem_append, List.mem_singleton] at hb
  rcases hb with (hb | rfl) | hb
  · exact ne_delimiter_of_digit b (hI b hb)
  · decide
  · exact ne_delimiter_of_digit b (hF b hb)

/-- The magnitude of R181 by its rounding inequality. -/
theorem coordMagnitude_of_isRounded (I F : List Byte) (q : Nat)
    (h : IsRounded (decimal I % 100 * 10 ^ F.length + decimal F) (60 * 10 ^ F.length) q) :
    coordMagnitude I F = decimal I / 100 * 10 ^ 7 + q := by
  unfold coordMagnitude
  dsimp only
  rw [value_eq_decimal, value_eq_decimal, rounded_eq _ _ _ h]

/-- A value of at most 180 degrees fits the two's complement register. -/
theorem toInt_ofInt_of_natAbs_le (x : Int) (h : x.natAbs ≤ 1800000000) : (BitVec.ofInt 32 x).toInt = x := by
  rw [BitVec.toInt_ofInt]
  apply Int.bmod_eq_of_le <;> omega

/-- A decode that answers `c` is committed. -/
theorem exec_coord_ok (s : State) (kind : Byte) (k : CoordKind) (c : CoordFields) (hk : coordKindOf kind = some k)
    (hne : token s.stableLine s.fp.toNat ≠ []) (h : decodeCoord k s.stableLine s.fp.toNat = .ok c) :
    exec (.coord kind) s = .next ((s.commitCoord k c).answer .ok []) :=
  (execCoord_next kind s _).2 (.inr ⟨k, hk, .inr ⟨hne, .inr ⟨c, h, rfl⟩⟩⟩)

/-- A decode that rejects is answered with its status alone. -/
theorem exec_coord_error (s : State) (kind : Byte) (k : CoordKind) (st : Status) (hk : coordKindOf kind = some k)
    (hne : token s.stableLine s.fp.toNat ≠ []) (h : decodeCoord k s.stableLine s.fp.toNat = .error st) :
    exec (.coord kind) s = .next (s.answer st []) :=
  (execCoord_next kind s _).2 (.inr ⟨k, hk, .inr ⟨hne, .inl ⟨st, h, rfl⟩⟩⟩)

/-- Settles O29: the token and the letter are the ones written, so the decode is the magnitude's test against the limit. -/
theorem coordConvertsExactly : Obligations.CoordConvertsExactly := by
  intro s I F rest h q w N D mag raw fixed hline hI hF h1 h5 hh hw hN hD hq hmag hfixed hraw
  subst hw hN hD
  have hT := isTokenAt_coord _ _ I F (h :: rest) hI hF hline
  have htok := token_of_isTokenAt _ _ _ hT
  have hne : token s.stableLine s.fp.toNat ≠ [] := by simp [htok]
  have hdig : coordDigits (token s.stableLine s.fp.toNat) = some (I, F) :=
    (coordDigits_eq ..).2 ⟨htok, hI, hF, h1, h5⟩
  have hhem : hemisphereAfter s.stableLine (s.fp.toNat + (token s.stableLine s.fp.toNat).length) = some h := by
    refine (hemisphereAfter_eq ..).2 ⟨hh, rest, ?_⟩
    rw [← List.drop_drop, hline, htok, List.append_assoc (I ++ [0x2E#8] ++ F), List.drop_left]
    rfl
  have hM : coordMagnitude I F = mag := (coordMagnitude_of_isRounded I F q hq).trans hmag.symm
  have hR : coordRaw I F = raw := by
    rw [hraw, coordRaw, value_eq_decimal, value_eq_decimal]
    rfl
  have hdec (k : CoordKind) := decodeCoord_of_hemisphere k _ _ I F h hdig hhem
  simp only [hM, hR] at hdec
  have hfix : signedFix { raw := raw, mag := mag, hemi := h } = BitVec.ofInt 32 fixed := by rw [hfixed]; rfl
  refine ⟨fun hle => ?latOk, fun hlt => ?latHigh, fun hle => ⟨?lonOk, ?fits, ?rawFits⟩, fun hlt => ?lonHigh⟩
  case latOk =>
    rw [← hfix]
    exact exec_coord_ok s _ .lat _ rfl hne ((hdec .lat).trans (if_neg (Nat.not_lt.2 hle)))
  case latHigh => exact exec_coord_error s _ .lat _ rfl hne ((hdec .lat).trans (if_pos hlt))
  case lonOk =>
    rw [← hfix]
    exact exec_coord_ok s _ .lon _ rfl hne ((hdec .lon).trans (if_neg (Nat.not_lt.2 hle)))
  case fits =>
    apply toInt_ofInt_of_natAbs_le
    rw [hfixed]
    split <;> omega
  case rawFits =>
    have := coordRaw_le I F hI hF h5
    rw [BitVec.toNat_ofNat, Nat.mod_eq_of_lt (by omega)]
  case lonHigh => exact exec_coord_error s _ .lon _ rfl hne ((hdec .lon).trans (if_pos hlt))

/-- Settles O30: each failing test is reached when those before it pass. -/
theorem coordRejectsInOrder : Obligations.CoordRejectsInOrder := by
  intro s kind T hT
  have htok := token_of_isTokenAt _ _ _ hT
  refine ⟨fun hkind => (execCoord_next kind s _).2 (.inl ⟨(coordKindOf_eq_none kind).2 hkind, rfl⟩), fun hkind => ?_⟩
  obtain ⟨k, hk⟩ := exists_coordKindOf kind hkind
  refine ⟨fun hempty => ?empty, fun hne hbad => ?badField, fun I F hsplit hI hF h1 h5 hno => ?badHemi⟩
  case empty => exact (execCoord_next kind s _).2 (.inr ⟨k, hk, .inl ⟨htok.trans hempty, rfl⟩⟩)
  case badField =>
    have hdig : coordDigits (token s.stableLine s.fp.toNat) = none := by
      rw [htok, Option.eq_none_iff_forall_ne_some]
      exact fun IF hIF => hbad ⟨IF.1, IF.2, (coordDigits_eq ..).1 hIF⟩
    exact exec_coord_error s kind k _ hk (htok ▸ hne) (decodeCoord_of_coordDigits_none k _ _ hdig)
  case badHemi =>
    have hdig : coordDigits (token s.stableLine s.fp.toNat) = some (I, F) :=
      (coordDigits_eq ..).2 ⟨htok.trans hsplit, hI, hF, h1, h5⟩
    have hhem : hemisphereAfter s.stableLine (s.fp.toNat + (token s.stableLine s.fp.toNat).length) = none := by
      rw [htok, Option.eq_none_iff_forall_ne_some]
      intro h hh
      obtain ⟨hmem, rest, hdrop⟩ := (hemisphereAfter_eq ..).1 hh
      exact hno ⟨h, rest, hdrop, hmem⟩
    have hne : token s.stableLine s.fp.toNat ≠ [] := by simp [htok, hsplit]
    exact exec_coord_error s kind k _ hk hne (decodeCoord_of_hemisphere_none k _ _ I F hdig hhem)

/-! ### `RDREG` (R190) -/

/-- The four bytes of a 32-bit value, least significant first. -/
theorem wordBytes_spec (v : Word) : ∃ b0 b1 b2 b3 : Byte, wordBytes v = [b0, b1, b2, b3] ∧
    v.toNat = b0.toNat + 256 * b1.toNat + 65536 * b2.toNat + 16777216 * b3.toNat := by
  refine ⟨_, _, _, _, rfl, ?_⟩
  have := v.isLt
  simp only [BitVec.toNat_setWidth, BitVec.toNat_ushiftRight, Nat.shiftRight_eq_div_pow]
  omega

theorem registerOf_number (g : Reg) : registerOf g.number = some g := by
  cases g <;> decide

/-- A number that is no register's is unassigned. -/
theorem registerOf_eq_none (r : Byte) (h : ∀ g ∈ registerTable, g.number ≠ r) : registerOf r = none := by
  simpa [registerOf] using h

theorem toNat_flag (b : Bool) : (BitVec.ofNat 32 b.toNat).toNat = if b then 1 else 0 := by
  cases b <;> rfl

theorem toNat_subcnt (k : Fin 3) : (BitVec.ofNat 32 k.val).toNat = k.val :=
  Nat.mod_eq_of_lt (by omega)

theorem toNat_waitCode (w : WaitState) : (BitVec.ofNat 32 w.code).toNat = w.code := by
  cases w <;> rfl

theorem toNat_pendingCode (u : Pending) : (BitVec.ofNat 32 u.code).toNat = u.code := by
  cases u <;> rfl

/-- Settles O31: the table lists the registers by number with the values `readReg` has, and the answer is its four bytes. -/
theorem rdregReadsTheNumberedRegister : Obligations.RdregReadsTheNumberedRegister := by
  intro s table htable
  have hregs : table = registerTable.map fun g => (g.number, (s.readReg g).toNat) := by
    rw [htable]
    simp only [registerTable, List.map_cons, List.map_nil, Reg.number, State.readReg, toNat_flag, toNat_subcnt,
      toNat_waitCode, toNat_pendingCode, BitVec.toNat_setWidth_of_le (show 8 ≤ 32 by decide),
      BitVec.toNat_setWidth_of_le (show 16 ≤ 32 by decide), BitVec.toNat_setWidth_of_le (show 4 ≤ 32 by decide)]
    rfl
  rw [hregs]
  refine ⟨fun r v hmem => ?assigned, fun r hr => ?unassigned⟩
  case assigned =>
    obtain ⟨g, -, hg⟩ := List.mem_map.1 hmem
    obtain ⟨rfl, rfl⟩ := Prod.mk.inj hg
    obtain ⟨b0, b1, b2, b3, hbytes, hval⟩ := wordBytes_spec (s.readReg g)
    refine ⟨b0, b1, b2, b3, ?_, hval⟩
    exact (execRdreg_next _ s _).2 (.inr ⟨g, registerOf_number g, by rw [hbytes]; rfl⟩)
  case unassigned =>
    refine (execRdreg_next r s _).2 (.inl ⟨registerOf_eq_none r fun g hg hnum => hr ?_, rfl⟩)
    rw [List.map_map, ← hnum]
    exact List.mem_map_of_mem (f := Reg.number) hg

end Sys2Proof.Machine
end

section
/-!
PROOF. The invariant's clauses by name (10_state.md R20 to R39), as the later parts cite them.
-/
namespace Sys2Proof.Machine

theorem State.Inv.params_wf {s : State} (h : s.Inv) : s.params.wf = true := by
  obtain ⟨hparams, -⟩ := h
  exact hparams

/-- Every byte array is canonical and lies inside its space. -/
theorem State.arraysWf_iff (s : State) : s.arraysWf ↔ ∀ S, s.arrayWf S := by
  constructor
  · rintro ⟨h0, h1, hrx, hexp, hub⟩ ((_ | _) | _ | _ | _)
    exacts [h0, h1, hrx, hexp, hub]
  · exact fun h => ⟨h _, h _, h _, h _, h _⟩

theorem State.Inv.arrayWf {s : State} (h : s.Inv) (S : Space) : s.arrayWf S := by
  obtain ⟨-, harrays, -⟩ := h
  exact s.arraysWf_iff.1 harrays S

theorem State.Inv.mem_wf {s : State} (h : s.Inv) (S : Space) : (s.mem S).wf = true := (h.arrayWf S).1

/-- R8: a line buffer has room for at least two bytes. -/
theorem State.Inv.two_le_maxLine {s : State} (h : s.Inv) : 2 ≤ s.params.maxLine.val := by
  have hwf := h.params_wf
  simp only [Config.Params.wf, Bool.and_eq_true, decide_eq_true_eq] at hwf
  omega

/-- R22: the cursor stays below the last byte's index. -/
theorem State.Inv.cur_lt {s : State} (h : s.Inv) : s.cur.toNat + 1 ≤ s.params.maxLine.val := by
  obtain ⟨-, -, ⟨hcur, -⟩, -⟩ := h
  exact hcur

theorem State.Inv.waitWf {s : State} (h : s.Inv) : s.waitWf := by
  obtain ⟨-, -, -, -, -, -, -, hwait, -⟩ := h
  exact hwait

theorem State.Inv.candidateWf {s : State} (h : s.Inv) : s.candidateWf := by
  obtain ⟨-, -, -, -, -, -, -, -, hcand⟩ := h
  exact hcand

theorem State.Inv.rxlen_le {s : State} (h : s.Inv) : s.rxlen.toNat ≤ 191 := by
  obtain ⟨hlen, -⟩ := h.waitWf
  exact hlen

/-- From the announced length on, the candidate is longer than what is stored of it. -/
theorem State.Inv.rxn_lt_rxlen {s : State} (h : s.Inv) (h4 : 4 ≤ s.rxn.toNat) : s.rxn.toNat < s.rxlen.toNat := by
  obtain ⟨-, -, hlen⟩ := h.candidateWf
  obtain ⟨-, hlt, -⟩ := hlen h4
  exact hlt

/-- The next byte of a candidate has a place in `RXBUF`. -/
theorem State.Inv.rxn_lt {s : State} (h : s.Inv) : s.rxn.toNat < 191 := by
  by_cases h4 : 4 ≤ s.rxn.toNat
  · have := h.rxn_lt_rxlen h4
    have := h.rxlen_le
    omega
  · omega

/-- A wait in progress has ticks left. -/
theorem State.Inv.tmo_ne_zero {s : State} (h : s.Inv) (hw : s.awst = .waiting) : s.tmo ≠ 0#16 := by
  obtain ⟨-, -, hticks, -⟩ := h.waitWf
  exact (hticks hw).1

/-- A unit's wait never has the reserved sequence value. -/
theorem State.Inv.seq_ne_final {s : State} (h : s.Inv) (hw : s.awst = .waiting) (hu : s.uplpend = .unit) :
    s.seq ≠ 0xFFFF#16 := by
  obtain ⟨-, -, -, -, -, -, hseq, -⟩ := h.waitWf
  exact hseq hw hu

/-- Outside a wait the receive machine is idle. -/
theorem State.Inv.rxn_eq_zero {s : State} (h : s.Inv) (hw : s.awst ≠ .waiting) : s.rxn = 0#8 := by
  obtain ⟨-, -, -, hidle, -⟩ := h.waitWf
  exact hidle hw

end Sys2Proof.Machine
end

section
/-!
PROOF. The receive machine (44_packet.md R204 to R207): its named states by their registers, and what one received byte does in each.
-/
namespace Sys2Proof.Machine

/-! ### The named states -/

/-- The position in a candidate of announced length `len`, of which `r` bytes are stored, that a state name stands for. -/
def RxState.at : RxState → Nat → Nat → Prop
  | .idle, r, _ => r = 0
  | .sawPreamble1, r, _ => r = 1
  | .sawPreamble2, r, _ => r = 2
  | .readingLength, r, _ => r = 3
  | .readingCommand, r, len | .readingPayload, r, len => 4 ≤ r ∧ r + 3 < len
  | .readingChecksum, r, len => 4 ≤ r ∧ r + 3 = len
  | .readingEnd1, r, len => 4 ≤ r ∧ r + 2 = len
  | .readingEnd2, r, len => 4 ≤ r ∧ len ≤ r + 1

theorem State.rxState_at (s : State) : s.rxState.at s.rxn.toNat s.rxlen.toNat := by
  unfold State.rxState
  dsimp only
  repeat' split
  all_goals
    simp only [RxState.at]
    omega

/-- What `RXN` and `RXLEN` are in a state of the given name. -/
theorem State.at_of_rxState (s : State) {st : RxState} (h : s.rxState = st) : st.at s.rxn.toNat s.rxlen.toNat :=
  h ▸ s.rxState_at

theorem State.rxState_idle (s : State) (h : s.rxn.toNat = 0) : s.rxState = .idle := by
  simp [State.rxState, h]

theorem State.rxState_sawPreamble1 (s : State) (h : s.rxn.toNat = 1) : s.rxState = .sawPreamble1 := by
  simp [State.rxState, h]

theorem State.rxState_sawPreamble2 (s : State) (h : s.rxn.toNat = 2) : s.rxState = .sawPreamble2 := by
  simp [State.rxState, h]

theorem State.rxState_readingLength (s : State) (h : s.rxn.toNat = 3) : s.rxState = .readingLength := by
  simp [State.rxState, h]

/-- From the fourth byte on the announced length decides. -/
theorem State.rxState_of_four_le (s : State) (h : 4 ≤ s.rxn.toNat) :
    s.rxState =
      if s.rxn.toNat + 3 < s.rxlen.toNat then (if s.rxn.toNat < 6 then .readingCommand else .readingPayload)
      else if s.rxn.toNat + 3 = s.rxlen.toNat then .readingChecksum
      else if s.rxn.toNat + 2 = s.rxlen.toNat then .readingEnd1
      else .readingEnd2 := by
  unfold State.rxState
  dsimp only
  rw [if_neg (by omega), if_neg (by omega), if_neg (by omega), if_neg (by omega)]

theorem State.rxState_body (s : State) (h4 : 4 ≤ s.rxn.toNat) (h : s.rxn.toNat + 3 < s.rxlen.toNat) :
    s.rxState = .readingCommand ∨ s.rxState = .readingPayload := by
  rw [s.rxState_of_four_le h4, if_pos h]
  split <;> simp

theorem State.rxState_readingChecksum (s : State) (h4 : 4 ≤ s.rxn.toNat) (h : s.rxn.toNat + 3 = s.rxlen.toNat) :
    s.rxState = .readingChecksum := by
  rw [s.rxState_of_four_le h4, if_neg (by omega), if_pos h]

theorem State.rxState_readingEnd1 (s : State) (h4 : 4 ≤ s.rxn.toNat) (h : s.rxn.toNat + 2 = s.rxlen.toNat) :
    s.rxState = .readingEnd1 := by
  rw [s.rxState_of_four_le h4, if_neg (by omega), if_neg (by omega), if_pos h]

theorem State.rxState_readingEnd2 (s : State) (h4 : 4 ≤ s.rxn.toNat) (h : s.rxn.toNat + 1 = s.rxlen.toNat) :
    s.rxState = .readingEnd2 := by
  rw [s.rxState_of_four_le h4, if_neg (by omega), if_neg (by omega), if_neg (by omega)]

/-! ### The state after a stored byte -/

/-- A stored byte writes one byte of `RXBUF` and advances `RXN`. -/
theorem State.rxStored_eq (s : State) (b : Byte) :
    s.rxStored b = { s with rxbuf := (s.rxStored b).rxbuf, rxn := s.rxn + 1 } := rfl

theorem State.rxn_add_one_toNat (s : State) (h : s.rxn.toNat < 191) : (s.rxn + 1#8).toNat = s.rxn.toNat + 1 := by
  rw [BitVec.toNat_add]
  exact Nat.mod_eq_of_lt (by simp; omega)

/-! ### One received byte, by state -/

section Waiting

variable {s : State} (b : Byte)

theorem exec_prx_of_waiting (hw : s.awst = .waiting) : exec (.prx b) s = rxStep b s := execPrx_of_waiting b s hw

theorem exec_prx_of_not_waiting (hw : s.awst ≠ .waiting) : exec (.prx b) s = .next (s.answer .notWaiting []) :=
  if_pos hw

theorem exec_prx_idle_other (hw : s.awst = .waiting) (hr : s.rxn.toNat = 0) (hb : b ≠ Config.pre0) :
    exec (.prx b) s = .next (s.answer .pending []) := by
  rw [exec_prx_of_waiting b hw, rxStep, s.rxState_idle hr]
  simp [hb, respond_eq]

theorem exec_prx_idle_pre0 (hw : s.awst = .waiting) (hr : s.rxn.toNat = 0) (hb : b = Config.pre0) :
    exec (.prx b) s = .next ((s.rxStored b).answer .pending []) := by
  rw [exec_prx_of_waiting b hw, rxStep, s.rxState_idle hr]
  dsimp only
  rw [if_pos hb, rxStore_of_lt _ _ _ (by omega), respond_eq]

theorem exec_prx_sawPreamble1_pre1 (hw : s.awst = .waiting) (hr : s.rxn.toNat = 1) (hb : b = Config.pre1) :
    exec (.prx b) s = .next ((s.rxStored b).rxClearSum.answer .pending []) := by
  rw [exec_prx_of_waiting b hw, rxStep, s.rxState_sawPreamble1 hr]
  dsimp only
  rw [if_pos hb, rxStore_of_lt _ _ _ (by omega), respond_eq]

theorem exec_prx_sawPreamble1_pre0 (hw : s.awst = .waiting) (hr : s.rxn.toNat = 1) (hb : b = Config.pre0) :
    exec (.prx b) s = .next (s.answer .pending []) := by
  have hb1 : b ≠ Config.pre1 := by rw [hb]; decide
  rw [exec_prx_of_waiting b hw, rxStep, s.rxState_sawPreamble1 hr]
  dsimp only
  rw [if_neg hb1, if_pos hb, respond_eq]

theorem exec_prx_sawPreamble1_other (hw : s.awst = .waiting) (hr : s.rxn.toNat = 1) (h1 : b ≠ Config.pre1)
    (h0 : b ≠ Config.pre0) : exec (.prx b) s = .next (s.rxIdle.answer .pending []) := by
  rw [exec_prx_of_waiting b hw, rxStep, s.rxState_sawPreamble1 hr]
  simp [h1, h0, respond_eq]

theorem exec_prx_sawPreamble2 (hw : s.awst = .waiting) (hr : s.rxn.toNat = 2) :
    exec (.prx b) s = .next (((s.rxStored b).rxSum b).answer .pending []) := by
  rw [exec_prx_of_waiting b hw, rxStep, s.rxState_sawPreamble2 hr]
  dsimp only
  rw [rxStore_of_lt _ _ _ (by omega), respond_eq]

/-- The length the second length byte announces (R205). -/
def State.announced (s : State) (b : Byte) : Nat := (s.byteAt .rxbuf 2).toNat + 256 * b.toNat

theorem exec_prx_readingLength_bad (hw : s.awst = .waiting) (hr : s.rxn.toNat = 3)
    (hlen : s.announced b < 9 ∨ 191 < s.announced b) : exec (.prx b) s = .next (s.rxIdle.answer .pending []) := by
  rw [exec_prx_of_waiting b hw, rxStep, s.rxState_readingLength hr]
  exact (rxLength_next ..).2 (.inl ⟨hlen, rfl⟩)

theorem exec_prx_readingLength_good (hw : s.awst = .waiting) (hr : s.rxn.toNat = 3) (h9 : 9 ≤ s.announced b)
    (h191 : s.announced b ≤ 191) :
    exec (.prx b) s = .next ((((s.rxStored b).rxSum b).rxAnnounce (s.announced b)).answer .pending []) := by
  rw [exec_prx_of_waiting b hw, rxStep, s.rxState_readingLength hr]
  exact (rxLength_next ..).2 (.inr ⟨h9, h191, by omega, rfl⟩)

theorem exec_prx_body (hw : s.awst = .waiting) (h4 : 4 ≤ s.rxn.toNat) (hlt : s.rxn.toNat + 3 < s.rxlen.toNat)
    (hmax : s.rxn.toNat < 191) : exec (.prx b) s = .next (((s.rxStored b).rxSum b).answer .pending []) := by
  rw [exec_prx_of_waiting b hw, rxStep]
  rcases s.rxState_body h4 hlt with hst | hst
  all_goals
    rw [hst]
    dsimp only
    rw [rxStore_of_lt _ _ _ hmax, respond_eq]

/-- A byte that must have one value, in the states that ask for one. -/
theorem rxExpect_good (want : Byte) (go : State → Result) (hmax : s.rxn.toNat < 191) (hb : b = want) :
    rxExpect want b s go = go (s.rxStored b) := by
  rw [rxExpect, if_pos hb, rxStore_of_lt _ _ _ hmax]

theorem rxExpect_bad (want : Byte) (go : State → Result) (hb : b ≠ want) :
    rxExpect want b s go = .next (s.rxIdle.answer .pending []) := by
  rw [rxExpect, if_neg hb, respond_eq]

theorem exec_prx_readingChecksum (hw : s.awst = .waiting) (h4 : 4 ≤ s.rxn.toNat) (hlen : s.rxn.toNat + 3 = s.rxlen.toNat) :
    exec (.prx b) s = rxExpect s.rxck b s fun s => respond .pending [] s := by
  rw [exec_prx_of_waiting b hw, rxStep, s.rxState_readingChecksum h4 hlen]

theorem exec_prx_readingEnd1 (hw : s.awst = .waiting) (h4 : 4 ≤ s.rxn.toNat) (hlen : s.rxn.toNat + 2 = s.rxlen.toNat) :
    exec (.prx b) s = rxExpect Config.end0 b s fun s => respond .pending [] s := by
  rw [exec_prx_of_waiting b hw, rxStep, s.rxState_readingEnd1 h4 hlen]

theorem exec_prx_readingEnd2 (hw : s.awst = .waiting) (h4 : 4 ≤ s.rxn.toNat) (hlen : s.rxn.toNat + 1 = s.rxlen.toNat) :
    exec (.prx b) s = rxExpect Config.end1 b s completeCandidate := by
  rw [exec_prx_of_waiting b hw, rxStep, s.rxState_readingEnd2 h4 hlen]

end Waiting

/-- R207: the stored candidate is compared with the expected bytes, which the last byte does not touch. -/
theorem candidateMatches_rxStored (s : State) (b : Byte) :
    candidateMatches (s.rxStored b) = true ↔
      s.rxlen = s.explen ∧ ∀ a < s.rxlen.toNat, (s.rxStored b).byteAt .rxbuf a = s.byteAt .exp a :=
  candidateMatches_eq _

/-- The last byte of a candidate that is not the expected packet: back to `Idle`. -/
theorem completeCandidate_of_not_matches (s : State) (hlen : s.rxlen.toNat ≤ 191) (h : candidateMatches s = false) :
    completeCandidate s = .next (s.rxIdle.answer .pending []) :=
  (completeCandidate_next ..).2 ⟨hlen, .inr ⟨h, rfl⟩⟩

/-- `SEQ` after a match: advanced in a unit's wait only (R207). -/
def State.matchedSeq (s : State) : Half := if s.uplpend = .unit then s.seq + 1#16 else s.seq

theorem State.matchedSeq_toNat (s : State) (h : s.uplpend = .unit → s.seq ≠ 0xFFFF#16) :
    s.matchedSeq.toNat = s.seq.toNat + (if s.uplpend = .unit then 1 else 0) := by
  unfold State.matchedSeq
  split
  · next hu =>
    have := h hu
    bv_omega
  · rfl

/-- The last byte of a candidate that is the expected packet: the wait ends. -/
theorem completeCandidate_of_matches (s : State) (hlen : s.rxlen.toNat ≤ 191) (h : candidateMatches s = true)
    (hseq : s.uplpend = .unit → s.seq ≠ 0xFFFF#16) :
    completeCandidate s = .next (State.answer .matched [] { s with rxn := 0, awst := .matched, seq := s.matchedSeq }) := by
  refine (completeCandidate_next ..).2 ⟨hlen, .inl ⟨h, (matchWait_next ..).2 ?_⟩⟩
  unfold State.matchedSeq
  by_cases hu : s.uplpend = .unit
  · rw [if_pos hu]
    exact .inl ⟨hu, hseq hu, rfl⟩
  · rw [if_neg hu]
    exact .inr ⟨hu, rfl⟩

/-! ### The statements about `PRX` -/

/-- Settles O34. -/
theorem prxOutsideAWaitIsDropped : Obligations.PrxOutsideAWaitIsDropped := fun _ b hw => exec_prx_of_not_waiting b hw

/-- Settles O35: the five outcomes of the two states. -/
theorem prxFindsThePreamble : Obligations.PrxFindsThePreamble := by
  intro s b hinv hw
  have hbyte := s.rxStored_byteAt b (hinv.mem_wf .rxbuf)
  refine ⟨fun hr hb => ?other, fun hr hb => ⟨_, exec_prx_idle_pre0 b hw (by rw [hr]; rfl) hb, ?first, ?firstByte⟩,
    fun hr hb => ⟨_, exec_prx_sawPreamble1_pre1 b hw (by rw [hr]; rfl) hb, ?second, ?secondByte⟩, fun hr hb => ?again,
    fun hr hb1 hb0 => ?lost⟩
  case other => exact exec_prx_idle_other b hw (by rw [hr]; rfl) hb
  case again => exact exec_prx_sawPreamble1_pre0 b hw (by rw [hr]; rfl) hb
  case lost => exact exec_prx_sawPreamble1_other b hw (by rw [hr]; rfl) hb1 hb0
  case first =>
    have hn : (1 : Byte) = s.rxn + 1 := by rw [hr]; rfl
    rw [hn]
    rfl
  case firstByte =>
    intro a
    rw [State.answer_byteAt, hbyte, hr]
    rfl
  case second =>
    have hn : (2 : Byte) = s.rxn + 1 := by rw [hr]; rfl
    rw [hn]
    rfl
  case secondByte =>
    intro a
    rw [State.answer_byteAt, State.rxClearSum_byteAt, hbyte, hr]
    rfl

/-- Settles O36: the first length byte is stored; the second decides with it whether the length is legal. -/
theorem prxReadsTheLength : Obligations.PrxReadsTheLength := by
  rintro s b _ hinv hw rfl
  have hbyte := s.rxStored_byteAt b (hinv.mem_wf .rxbuf)
  refine ⟨fun hr => ⟨_, exec_prx_sawPreamble2 b hw (by rw [hr]; rfl), ?low, ?lowByte⟩, fun hr hlen => ?bad,
    fun hr h9 h191 => ⟨_, exec_prx_readingLength_good b hw (by rw [hr]; rfl) h9 h191, ?high, ?highByte⟩⟩
  case bad => exact exec_prx_readingLength_bad b hw (by rw [hr]; rfl) hlen
  case low =>
    have hn : (3 : Byte) = s.rxn + 1 := by rw [hr]; rfl
    rw [hn]
    rfl
  case lowByte =>
    intro a
    rw [State.answer_byteAt, State.rxSum_byteAt, hbyte, hr]
    rfl
  case high =>
    have hn : (4 : Byte) = s.rxn + 1 := by rw [hr]; rfl
    rw [hn]
    rfl
  case highByte =>
    intro a
    rw [State.answer_byteAt, State.rxAnnounce_byteAt, State.rxSum_byteAt, hbyte, hr]
    rfl

/-- Settles O37: body bytes enter the checksum; the checksum byte and the first end byte are the same kind of test. -/
theorem prxReadsBodyAndChecksum : Obligations.PrxReadsBodyAndChecksum := by
  intro s b hinv hw h4
  have hbyte := s.rxStored_byteAt b (hinv.mem_wf .rxbuf)
  have hmax := hinv.rxn_lt
  have hlt := hinv.rxn_lt_rxlen h4
  refine ⟨fun hbody => ?body, fun hgood => ?good, fun hbad => ?bad⟩
  case body =>
    refine ⟨_, exec_prx_body b hw h4 (by omega) hmax, rfl, fun a => ?_⟩
    rw [State.answer_byteAt, State.rxSum_byteAt, hbyte]
  case good =>
    refine ⟨(s.rxStored b).answer .pending [], ?_, rfl, fun a => ?_⟩
    · rcases hgood with ⟨hpos, hb⟩ | ⟨hpos, hb⟩
      · rw [exec_prx_readingChecksum b hw h4 (by omega), rxExpect_good b _ _ hmax hb, respond_eq]
      · rw [exec_prx_readingEnd1 b hw h4 (by omega), rxExpect_good b _ _ hmax hb, respond_eq]
    · rw [State.answer_byteAt, hbyte]
  case bad =>
    rcases hbad with ⟨hpos, hb⟩ | ⟨hpos, hb⟩
    · exact (exec_prx_readingChecksum b hw h4 (by omega)).trans (rxExpect_bad b _ _ hb)
    · exact (exec_prx_readingEnd1 b hw h4 (by omega)).trans (rxExpect_bad b _ _ hb)

/-- Settles O38: the right last byte stores, and the comparison with the expected bytes decides between `PENDING` and `MATCHED`. -/
theorem prxCompletesTheCandidate : Obligations.PrxCompletesTheCandidate := by
  intro s b hinv hw h4 hlast
  have hstep := exec_prx_readingEnd2 b hw h4 hlast
  refine ⟨fun hb => hstep.trans (rxExpect_bad b _ _ hb), fun hb => ?_⟩
  rw [hstep, rxExpect_good b _ _ hinv.rxn_lt hb]
  have hbyte := s.rxStored_byteAt b (hinv.mem_wf .rxbuf)
  have hseq : s.uplpend = .unit → s.seq ≠ 0xFFFF#16 := hinv.seq_ne_final hw
  by_cases hmatch : candidateMatches (s.rxStored b) = true
  · obtain ⟨hlen, hbytes⟩ := (candidateMatches_rxStored s b).1 hmatch
    refine ⟨_, completeCandidate_of_matches _ hinv.rxlen_le hmatch hseq, hbyte, ?_, ?_⟩
    · rintro (hne | ⟨a, ha, hne⟩)
      · exact absurd hlen hne
      · exact absurd (hbytes a ha) hne
    · exact fun _ _ => ⟨rfl, s.matchedSeq_toNat hseq⟩
  · have hno : candidateMatches (s.rxStored b) = false := by simpa using hmatch
    refine ⟨_, completeCandidate_of_not_matches _ hinv.rxlen_le hno, hbyte, fun _ => rfl, ?_⟩
    exact fun hlen hbytes => absurd ((candidateMatches_rxStored s b).2 ⟨hlen, hbytes⟩) hmatch

end Sys2Proof.Machine
end

section
/-!
PROOF. The invariant (10_state.md R20 to R39, 44_packet.md R204 to R208): it holds after reset, and every named update keeps it under the
conditions that the operations test.
-/
namespace Sys2Proof.Machine

/-! ### After reset -/

theorem State.resetWith_inv (p : Config.Params) (hp : p.wf = true) : (State.resetWith p).Inv := by
  have hmax : 2 ≤ p.maxLine.val := by
    simp only [Config.Params.wf, Bool.and_eq_true, decide_eq_true_eq] at hp
    omega
  have harray : ∀ S, (State.resetWith p).arrayWf S := by
    intro S
    unfold State.arrayWf
    rw [State.resetWith_mem]
    exact ⟨rfl, rfl⟩
  have hcur : (State.resetWith p).cursorsWf := ⟨Nat.le_of_succ_le hmax, Nat.zero_le _⟩
  have htime : State.reset.timeWf := by decide
  have hdate : State.reset.dateWf := by decide
  have hlat : State.reset.latWf := by decide
  have hlon : State.reset.lonWf := by decide
  have hwait : State.reset.waitWf := by decide
  have hcand : State.reset.candidateWf := by decide
  exact ⟨hp, (State.arraysWf_iff _).2 harray, hcur, htime, hdate, hlat, hlon, hwait, hcand⟩

/-- Settles O48: the clauses on registers do not read the parameters, so they are the ones of `State.reset`. -/
theorem invariantHoldsAfterReset : Obligations.InvariantHoldsAfterReset :=
  ⟨State.resetWith_inv, State.resetWith_inv _ (by decide)⟩

/-! ### What the invariant does not read -/

theorem State.answer_inv {s : State} (h : s.Inv) (st : Status) (data : List Byte) : (s.answer st data).Inv := h

theorem State.emit_inv {s : State} (h : s.Inv) (bs : List Byte) : (s.emit bs).Inv := h

theorem State.inv_of_port {s : State} (h : s.Inv) (rest : List PortEvent) : State.Inv { s with port := rest } := h

/-! ### Stores outside the candidate -/

theorem State.store_arraysWf {s : State} (h : s.Inv) (S : Space) (i : Nat) (bs : List Byte)
    (hi : i + bs.length ≤ s.size S) : (s.store S i bs).arraysWf :=
  (State.arraysWf_iff _).2 fun T => State.store_arrayWf S T i bs s hi (h.arrayWf S) (h.arrayWf T)

/-- Only a store to `RXBUF` touches more than the arrays' own clause. -/
theorem State.store_inv {s : State} (h : s.Inv) (S : Space) (hS : S ≠ .rxbuf) (i : Nat) (bs : List Byte)
    (hi : i + bs.length ≤ s.size S) : (s.store S i bs).Inv := by
  have harrays := State.store_arraysWf h S i bs hi
  obtain ⟨hparams, -, hrest⟩ := h
  rcases S with (_ | _) | _ | _ | _
  case rxbuf => exact absurd rfl hS
  all_goals exact ⟨hparams, harrays, hrest⟩

/-! ### The line assembler and the field pointer -/

theorem State.setCur_inv {s : State} (h : s.Inv) (c : Nat) (hc : c + 1 ≤ s.params.maxLine.val) : (s.setCur c).Inv := by
  obtain ⟨hparams, harrays, ⟨-, hfp⟩, hrest⟩ := h
  have hval : (BitVec.ofNat 8 c).toNat = c := Nat.mod_eq_of_lt (by omega)
  exact ⟨hparams, harrays, ⟨hval.symm ▸ hc, hfp⟩, hrest⟩

theorem State.completeLine_inv {s : State} (h : s.Inv) : s.completeLine.Inv := by
  have hmax := h.two_le_maxLine
  obtain ⟨hparams, harrays, ⟨-, hfp⟩, hrest⟩ := h
  exact ⟨hparams, harrays, ⟨Nat.le_of_succ_le hmax, hfp⟩, hrest⟩

theorem State.claimLine_inv {s : State} (h : s.Inv) : s.claimLine.Inv := by
  obtain ⟨hparams, harrays, ⟨hcur, -⟩, hrest⟩ := h
  exact ⟨hparams, harrays, ⟨hcur, Nat.zero_le _⟩, hrest⟩

theorem State.setFp_inv {s : State} (h : s.Inv) (p : Nat) (hp : p ≤ s.params.maxLine.val) : (s.setFp p).Inv := by
  obtain ⟨hparams, harrays, ⟨hcur, -⟩, hrest⟩ := h
  have hval : (BitVec.ofNat 8 p).toNat = p := Nat.mod_eq_of_lt (by omega)
  exact ⟨hparams, harrays, ⟨hcur, hval.symm ▸ hp⟩, hrest⟩

/-! ### The result registers -/

/-- Setting a valid bit leaves the other bits. -/
theorem rvalid_or_and_other : ∀ v a b : BitVec 4, a &&& b = 0#4 → (v ||| a) &&& b = v &&& b := by decide

/-- A valid bit that was set reads as set. -/
theorem rvalid_or_and_self : ∀ v a : BitVec 4, a ≠ 0#4 → (v ||| a) &&& a ≠ 0#4 := by decide

section SameRegisters

variable {s t : State}

theorem State.timeWf_of_same (hs : s.timeWf) (h : t.hour = s.hour ∧ t.minute = s.minute ∧ t.second = s.second ∧ t.millis = s.millis ∧
    t.rvalid &&& timeV = s.rvalid &&& timeV) : t.timeWf := by
  obtain ⟨hhour, hminute, hsecond, hmillis, hvalid⟩ := h
  rw [State.timeWf, hhour, hminute, hsecond, hmillis, hvalid]
  exact hs

theorem State.dateWf_of_same (hs : s.dateWf) (h : t.day = s.day ∧ t.month = s.month ∧ t.year = s.year ∧
    t.rvalid &&& dateV = s.rvalid &&& dateV) : t.dateWf := by
  obtain ⟨hday, hmonth, hyear, hvalid⟩ := h
  rw [State.dateWf, hday, hmonth, hyear, hvalid]
  exact hs

theorem State.latWf_of_same (hs : s.latWf) (h : t.latRaw = s.latRaw ∧ t.latFix = s.latFix ∧ t.latHemi = s.latHemi ∧
    t.rvalid &&& latV = s.rvalid &&& latV) : t.latWf := by
  obtain ⟨hraw, hfix, hhemi, hvalid⟩ := h
  rw [State.latWf, hraw, hfix, hhemi, hvalid]
  exact hs

theorem State.lonWf_of_same (hs : s.lonWf) (h : t.lonRaw = s.lonRaw ∧ t.lonFix = s.lonFix ∧ t.lonHemi = s.lonHemi ∧
    t.rvalid &&& lonV = s.rvalid &&& lonV) : t.lonWf := by
  obtain ⟨hraw, hfix, hhemi, hvalid⟩ := h
  rw [State.lonWf, hraw, hfix, hhemi, hvalid]
  exact hs

end SameRegisters

/-- A register written with a value in its range holds it. -/
theorem toNat_ofNat_le (w n k : Nat) (h : n ≤ k) (hk : k < 2 ^ w) : (BitVec.ofNat w n).toNat ≤ k := by
  rw [BitVec.toNat_ofNat, Nat.mod_eq_of_lt (by omega)]
  exact h

theorem State.commitTime_inv {s : State} (h : s.Inv) (f : TimeFields)
    (hf : f.hour ≤ 99 ∧ f.minute ≤ 99 ∧ f.second ≤ 99 ∧ f.millis ≤ 999) : (s.commitTime f).Inv := by
  obtain ⟨hparams, harrays, hcur, -, hdate, hlat, hlon, hrest⟩ := h
  obtain ⟨hhour, hminute, hsecond, hmillis⟩ := hf
  have htime : (s.commitTime f).timeWf :=
    ⟨toNat_ofNat_le 8 _ 99 hhour (by decide), toNat_ofNat_le 8 _ 99 hminute (by decide),
      toNat_ofNat_le 8 _ 99 hsecond (by decide), toNat_ofNat_le 16 _ 999 hmillis (by decide),
      fun hclear => absurd hclear (rvalid_or_and_self _ _ (by decide))⟩
  exact ⟨hparams, harrays, hcur, htime,
    State.dateWf_of_same hdate ⟨rfl, rfl, rfl, rvalid_or_and_other _ _ _ rfl⟩,
    State.latWf_of_same hlat ⟨rfl, rfl, rfl, rvalid_or_and_other _ _ _ rfl⟩,
    State.lonWf_of_same hlon ⟨rfl, rfl, rfl, rvalid_or_and_other _ _ _ rfl⟩, hrest⟩

theorem State.commitDate_inv {s : State} (h : s.Inv) (f : DateFields)
    (hf : f.day ≤ 99 ∧ f.month ≤ 99 ∧ f.year ≤ 99) : (s.commitDate f).Inv := by
  obtain ⟨hparams, harrays, hcur, htime, -, hlat, hlon, hrest⟩ := h
  obtain ⟨hday, hmonth, hyear⟩ := hf
  have hdate : (s.commitDate f).dateWf :=
    ⟨toNat_ofNat_le 8 _ 99 hday (by decide), toNat_ofNat_le 8 _ 99 hmonth (by decide),
      toNat_ofNat_le 8 _ 99 hyear (by decide), fun hclear => absurd hclear (rvalid_or_and_self _ _ (by decide))⟩
  exact ⟨hparams, harrays, hcur,
    State.timeWf_of_same htime ⟨rfl, rfl, rfl, rfl, rvalid_or_and_other _ _ _ rfl⟩, hdate,
    State.latWf_of_same hlat ⟨rfl, rfl, rfl, rvalid_or_and_other _ _ _ rfl⟩,
    State.lonWf_of_same hlon ⟨rfl, rfl, rfl, rvalid_or_and_other _ _ _ rfl⟩, hrest⟩

/-- The signed register keeps the magnitude (R183: at most 180 degrees). -/
theorem signedFix_natAbs (c : CoordFields) (h : c.mag ≤ 1800000000) : (signedFix c).toInt.natAbs = c.mag := by
  unfold signedFix
  rw [toInt_ofInt_of_natAbs_le]
  all_goals split <;> omega

theorem State.commitCoord_inv {s : State} (h : s.Inv) (k : CoordKind) (c : CoordFields)
    (hc : c.raw ≤ 999999999 ∧ c.mag ≤ coordLimit k ∧ isHemisphere c.hemi = true) : (s.commitCoord k c).Inv := by
  obtain ⟨hparams, harrays, hcur, htime, hdate, hlat, hlon, hrest⟩ := h
  obtain ⟨hraw, hmag, hhemi⟩ := hc
  have hraw32 := toNat_ofNat_le 32 _ _ hraw (by decide)
  have hmag180 : c.mag ≤ 1800000000 := hmag.trans (by cases k <;> decide)
  have hfix : (signedFix c).toInt.natAbs ≤ coordLimit k := (signedFix_natAbs c hmag180).le.trans hmag
  cases k
  case lat =>
    have hlat' : (s.commitCoord .lat c).latWf :=
      ⟨hraw32, hfix, fun _ => hhemi, fun hclear => absurd hclear (rvalid_or_and_self _ _ (by decide))⟩
    exact ⟨hparams, harrays, hcur,
      State.timeWf_of_same htime ⟨rfl, rfl, rfl, rfl, rvalid_or_and_other _ _ _ rfl⟩,
      State.dateWf_of_same hdate ⟨rfl, rfl, rfl, rvalid_or_and_other _ _ _ rfl⟩, hlat',
      State.lonWf_of_same hlon ⟨rfl, rfl, rfl, rvalid_or_and_other _ _ _ rfl⟩, hrest⟩
  case lon =>
    have hlon' : (s.commitCoord .lon c).lonWf :=
      ⟨hraw32, hfix, fun _ => hhemi, fun hclear => absurd hclear (rvalid_or_and_self _ _ (by decide))⟩
    exact ⟨hparams, harrays, hcur,
      State.timeWf_of_same htime ⟨rfl, rfl, rfl, rfl, rvalid_or_and_other _ _ _ rfl⟩,
      State.dateWf_of_same hdate ⟨rfl, rfl, rfl, rvalid_or_and_other _ _ _ rfl⟩,
      State.latWf_of_same hlat ⟨rfl, rfl, rfl, rvalid_or_and_other _ _ _ rfl⟩, hlon', hrest⟩

/-! ### The wait -/

/-- With no candidate under assembly its clause says nothing. -/
theorem State.candidateWf_of_rxn_zero (s : State) (h : s.rxn.toNat = 0) : s.candidateWf :=
  ⟨fun h1 => by omega, fun h2 => by omega, fun h4 => by omega⟩

/-- Starting a wait (44_packet.md R202). -/
theorem State.waitingFor_inv {s : State} (h : s.Inv) (n : Nat) (budget : Half) (u : Pending) (h1 : 1 ≤ n) (h191 : n ≤ 191)
    (hbudget : budget ≠ 0#16) (hseq : u = .unit → s.seq ≠ 0xFFFF#16) (hsub : u ≠ .none → s.subcnt = 0) :
    (s.waitingFor n budget u).Inv := by
  obtain ⟨hparams, harrays, hcur, htime, hdate, hlat, hlon, -, -⟩ := h
  have hval : (BitVec.ofNat 8 n).toNat = n := Nat.mod_eq_of_lt (by omega)
  have hexplen : BitVec.ofNat 8 n ≠ 0#8 := by
    intro h0
    rw [h0] at hval
    simp at hval
    omega
  have hwait : (s.waitingFor n budget u).waitWf :=
    ⟨Nat.zero_le _, hval.le.trans h191, fun _ => ⟨hbudget, hexplen⟩, fun hne => absurd rfl hne, nofun, nofun,
      fun _ => hseq, fun _ => hsub⟩
  exact ⟨hparams, harrays, hcur, htime, hdate, hlat, hlon, hwait, State.candidateWf_of_rxn_zero _ rfl⟩

/-- A tick that is not the last one (R208). -/
theorem State.tickDown_inv {s : State} (h : s.Inv) (hw : s.awst = .waiting) (h1 : s.tmo ≠ 1#16) : s.tickDown.Inv := by
  obtain ⟨hparams, harrays, hcur, htime, hdate, hlat, hlon, ⟨hlen, hexplen, hticks, hidle, hnone, htimed, hseq, hsub⟩, hcand⟩ := h
  have hleft : s.tmo - 1#16 ≠ 0#16 := by bv_omega
  have hwait : s.tickDown.waitWf :=
    ⟨hlen, hexplen, fun _ => ⟨hleft, (hticks hw).2⟩, hidle, hnone, fun ht => by simp [hw] at ht, hseq, hsub⟩
  exact ⟨hparams, harrays, hcur, htime, hdate, hlat, hlon, hwait, hcand⟩

/-- The last tick (R208). -/
theorem State.endTimedOut_inv {s : State} (h : s.Inv) : s.endTimedOut.Inv := by
  obtain ⟨hparams, harrays, hcur, htime, hdate, hlat, hlon, ⟨hlen, hexplen, -⟩, -⟩ := h
  have hwait : s.endTimedOut.waitWf := ⟨hlen, hexplen, nofun, fun _ => rfl, nofun, fun _ => rfl, nofun, nofun⟩
  exact ⟨hparams, harrays, hcur, htime, hdate, hlat, hlon, hwait, State.candidateWf_of_rxn_zero _ rfl⟩

/-! ### The upload -/

theorem State.restartUpload_inv {s : State} (h : s.Inv) (hw : s.awst ≠ .waiting) : s.restartUpload.Inv := by
  have hidle := h.rxn_eq_zero hw
  have hub : s.restartUpload.arrayWf .ubuf := ⟨rfl, rfl⟩
  obtain ⟨hparams, ⟨h0, h1, hrx, hexp, -⟩, hcur, htime, hdate, hlat, hlon, ⟨hlen, hexplen, -⟩, hcand⟩ := h
  have hwait : s.restartUpload.waitWf := ⟨hlen, hexplen, nofun, fun _ => hidle, fun _ => rfl, nofun, nofun, nofun⟩
  exact ⟨hparams, ⟨h0, h1, hrx, hexp, hub⟩, hcur, htime, hdate, hlat, hlon, hwait, hcand⟩

theorem State.setSubcnt_inv {s : State} (h : s.Inv) (hw : s.awst ≠ .waiting) (k : Fin 3) : (s.setSubcnt k).Inv := by
  obtain ⟨hparams, harrays, hcur, htime, hdate, hlat, hlon, ⟨hlen, hexplen, hticks, hidle, hnone, htimed, hseq, -⟩, hcand⟩ := h
  have hwait : (s.setSubcnt k).waitWf :=
    ⟨hlen, hexplen, hticks, hidle, hnone, htimed, hseq, fun hwaiting => absurd hwaiting hw⟩
  exact ⟨hparams, harrays, hcur, htime, hdate, hlat, hlon, hwait, hcand⟩

/-- R87: the packet is sealed inside `UBUF`. -/
theorem State.sealUpload_inv {s : State} (h : s.Inv) (q : Half) : (s.sealUpload q).Inv := by
  have hhead := State.store_inv h .ubuf nofun 0 (uploadHead s.params q) (by simp [length_uploadHead])
  have hsum : (State.sumUpload (s.store .ubuf 0 (uploadHead s.params q))).Inv :=
    State.store_inv hhead .ubuf nofun 188 _ (by simp)
  exact State.store_inv hsum .ubuf nofun 189 _ (by simp)

/-- R8: the wait for an acknowledgement has ticks. -/
theorem State.Inv.uplTmo_ne_zero {s : State} (h : s.Inv) : s.params.uplTmo ≠ 0#16 := by
  have hwf := h.params_wf
  simp only [Config.Params.wf, Bool.and_eq_true, bne_iff_ne] at hwf
  exact hwf.2

/-- Sending a packet and starting its wait (R231, R233). -/
theorem State.uploadSent_inv {s : State} (h : s.Inv) (hw : s.awst ≠ .waiting) (q : Half) (u : Pending)
    (hseq : u = .unit → s.seq ≠ 0xFFFF#16) : (s.uploadSent q u).Inv := by
  obtain ⟨h9, h191⟩ := ackOf_length s.params h.params_wf q
  have hsent : (((s.sealUpload q).sendUpload).setSubcnt 0).Inv :=
    State.setSubcnt_inv (State.emit_inv (State.sealUpload_inv h q) _) (by simpa using hw) 0
  have hexp := State.store_inv hsent .exp nofun 0 (ackOf s.params q) (by simpa using h191)
  refine State.waitingFor_inv hexp _ _ u (by omega) h191 h.uplTmo_ne_zero ?_ (fun _ => by simp)
  simpa using hseq

end Sys2Proof.Machine
end

section
/-!
PROOF. The receive machine keeps the invariant (44_packet.md R204 to R207): a stored byte is one a packet may have at its place, and the
running checksum covers one byte more, or the same bytes from the checksum byte on (log 11).
-/
namespace Sys2Proof.Machine

/-! ### One byte more -/

/-- `t` holds the candidate of `s` and the byte `b` after it. -/
def State.StoresNext (s : State) (b : Byte) (t : State) : Prop :=
  t.rxn.toNat = s.rxn.toNat + 1 ∧ ∀ a, t.byteAt .rxbuf a = if a = s.rxn.toNat then b else s.byteAt .rxbuf a

theorem State.rxStored_storesNext {s : State} (h : s.Inv) (b : Byte) : s.StoresNext b (s.rxStored b) :=
  ⟨s.rxn_add_one_toNat h.rxn_lt, s.rxStored_byteAt b (h.mem_wf .rxbuf)⟩

section Stored

variable {s t : State} {b : Byte}

theorem State.StoresNext.byteAt_new (h : s.StoresNext b t) {a : Nat} (ha : a = s.rxn.toNat) : t.byteAt .rxbuf a = b :=
  (h.2 a).trans (if_pos ha)

theorem State.StoresNext.byteAt_old (h : s.StoresNext b t) {a : Nat} (ha : a ≠ s.rxn.toNat) :
    t.byteAt .rxbuf a = s.byteAt .rxbuf a :=
  (h.2 a).trans (if_neg ha)

theorem State.StoresNext.bytesAt_old (h : s.StoresNext b t) (i n : Nat) (hin : i + n ≤ s.rxn.toNat) :
    t.bytesAt .rxbuf i n = s.bytesAt .rxbuf i n :=
  Memory.readBytes_congr _ _ _ _ fun a _ ha => h.byteAt_old (a := a) (by omega)

theorem State.StoresNext.bytesAt_succ (h : s.StoresNext b t) (i n : Nat) (hin : i + n = s.rxn.toNat) :
    t.bytesAt .rxbuf i (n + 1) = s.bytesAt .rxbuf i n ++ [b] := by
  rw [State.bytesAt_succ, h.bytesAt_old i n hin.le, h.byteAt_new hin]

/-- The running checksum after a byte that it covers. -/
theorem State.StoresNext.sum_succ (h : s.StoresNext b t) (n : Nat) (hn : 2 + n = s.rxn.toNat)
    (hck : s.rxck = xorBytes (s.bytesAt .rxbuf 2 n)) : s.rxck ^^^ b = xorBytes (t.bytesAt .rxbuf 2 (n + 1)) := by
  rw [h.bytesAt_succ 2 n hn, xorBytes_append, ← hck, xorBytes_cons, xorBytes_nil, BitVec.xor_zero]

/-! ### The candidate's clause, by the place of the stored byte -/

theorem State.StoresNext.candidateWf_preamble0 (h : s.StoresNext b t) (hr : s.rxn.toNat = 0) (hb : b = Config.pre0) :
    t.candidateWf := by
  have hn := h.1
  exact ⟨fun _ => (h.byteAt_new hr.symm).trans hb, fun h2 => by omega, fun h4 => by omega⟩

theorem State.StoresNext.candidateWf_preamble1 (h : s.StoresNext b t) (hs : s.candidateWf) (hr : s.rxn.toNat = 1)
    (hb : b = Config.pre1) (hck : t.rxck = 0#8) : t.candidateWf := by
  obtain ⟨h0, -, -⟩ := hs
  have hn := h.1
  have hsummed : t.summed = 0 := by simp [State.summed, hn, hr]
  refine ⟨fun _ => (h.byteAt_old (by omega)).trans (h0 (by omega)), fun _ => ⟨(h.byteAt_new hr.symm).trans hb, ?_⟩,
    fun h4 => by omega⟩
  rw [hck, hsummed]
  rfl

theorem State.StoresNext.candidateWf_length0 (h : s.StoresNext b t) (hs : s.candidateWf) (hr : s.rxn.toNat = 2)
    (hck : t.rxck = s.rxck ^^^ b) : t.candidateWf := by
  obtain ⟨h0, h1, -⟩ := hs
  obtain ⟨hpre1, hsum⟩ := h1 (by omega)
  have hn := h.1
  have hsummed : s.summed = 0 := by simp [State.summed, hr]
  have hsummed' : t.summed = 0 + 1 := by simp [State.summed, hn, hr]
  rw [hsummed] at hsum
  refine ⟨fun _ => (h.byteAt_old (by omega)).trans (h0 (by omega)),
    fun _ => ⟨(h.byteAt_old (by omega)).trans hpre1, ?_⟩, fun h4 => by omega⟩
  rw [hck, hsummed']
  exact h.sum_succ 0 (by omega) hsum

theorem State.StoresNext.candidateWf_length1 (h : s.StoresNext b t) (hs : s.candidateWf) (hr : s.rxn.toNat = 3)
    (hck : t.rxck = s.rxck ^^^ b) (h9 : 9 ≤ t.rxlen.toNat) (hlen : t.rxlen.toNat = s.announced b) : t.candidateWf := by
  obtain ⟨h0, h1, -⟩ := hs
  obtain ⟨hpre1, hsum⟩ := h1 (by omega)
  have hn := h.1
  have hsummed : s.summed = 1 := by simp [State.summed, hr]
  have hsummed' : t.summed = 1 + 1 := by
    rw [State.summed, hn, hr, if_neg (by omega)]
    omega
  rw [hsummed] at hsum
  refine ⟨fun _ => (h.byteAt_old (by omega)).trans (h0 (by omega)),
    fun _ => ⟨(h.byteAt_old (by omega)).trans hpre1, ?_⟩,
    fun _ => ⟨h9, by omega, ?_, fun hle => by omega, fun hle => by omega⟩⟩
  · rw [hck, hsummed']
    exact h.sum_succ 1 (by omega) hsum
  · rw [h.byteAt_old (a := 2) (by omega), h.byteAt_new (a := 3) hr.symm]
    exact hlen

theorem State.StoresNext.candidateWf_body (h : s.StoresNext b t) (hs : s.candidateWf) (h4 : 4 ≤ s.rxn.toNat)
    (hr : s.rxn.toNat + 3 < s.rxlen.toNat) (hck : t.rxck = s.rxck ^^^ b) (hlen : t.rxlen = s.rxlen) : t.candidateWf := by
  obtain ⟨h0, h1, h2⟩ := hs
  obtain ⟨hpre1, hsum⟩ := h1 (by omega)
  obtain ⟨h9, -, hann, -, -⟩ := h2 h4
  have hn := h.1
  have hsummed : s.summed = s.rxn.toNat - 2 := by
    rw [State.summed, if_neg (by omega)]
    omega
  have hsummed' : t.summed = s.rxn.toNat - 2 + 1 := by
    rw [State.summed, hn, hlen, if_neg (by omega)]
    omega
  rw [hsummed] at hsum
  refine ⟨fun _ => (h.byteAt_old (by omega)).trans (h0 (by omega)),
    fun _ => ⟨(h.byteAt_old (by omega)).trans hpre1, ?_⟩, fun _ => ?_⟩
  · rw [hck, hsummed']
    exact h.sum_succ _ (by omega) hsum
  · rw [hlen, hn, h.byteAt_old (a := 2) (by omega), h.byteAt_old (a := 3) (by omega)]
    exact ⟨h9, by omega, hann, fun hle => by omega, fun hle => by omega⟩

/-- From the checksum byte on the running checksum covers the same bytes. -/
theorem State.StoresNext.sum_same (h : s.StoresNext b t) (h9 : 9 ≤ s.rxlen.toNat) (hr : s.rxlen.toNat ≤ s.rxn.toNat + 3)
    (hlen : t.rxlen = s.rxlen) (hsum : s.rxck = xorBytes (s.bytesAt .rxbuf 2 s.summed)) :
    s.rxck = xorBytes (t.bytesAt .rxbuf 2 t.summed) := by
  have hn := h.1
  have hsummed : s.summed = s.rxlen.toNat - 5 := by
    rw [State.summed, if_neg (by omega)]
    omega
  have hsummed' : t.summed = s.rxlen.toNat - 5 := by
    rw [State.summed, hn, hlen, if_neg (by omega)]
    omega
  rw [hsummed', h.bytesAt_old _ _ (by omega), ← hsummed]
  exact hsum

theorem State.StoresNext.candidateWf_checksum (h : s.StoresNext b t) (hs : s.candidateWf) (h4 : 4 ≤ s.rxn.toNat)
    (hr : s.rxn.toNat + 3 = s.rxlen.toNat) (hb : b = s.rxck) (hck : t.rxck = s.rxck) (hlen : t.rxlen = s.rxlen) :
    t.candidateWf := by
  obtain ⟨h0, h1, h2⟩ := hs
  obtain ⟨hpre1, hsum⟩ := h1 (by omega)
  obtain ⟨h9, -, hann, -, -⟩ := h2 h4
  refine ⟨fun _ => (h.byteAt_old (by omega)).trans (h0 (by omega)),
    fun _ => ⟨(h.byteAt_old (by omega)).trans hpre1, ?_⟩, fun _ => ?_⟩
  · rw [hck]
    exact h.sum_same h9 hr.ge hlen hsum
  · rw [hlen, hck, h.1, h.byteAt_old (a := 2) (by omega), h.byteAt_old (a := 3) (by omega)]
    exact ⟨h9, by omega, hann, fun _ => (h.byteAt_new (by omega)).trans hb, fun hle => by omega⟩

theorem State.StoresNext.candidateWf_end0 (h : s.StoresNext b t) (hs : s.candidateWf) (h4 : 4 ≤ s.rxn.toNat)
    (hr : s.rxn.toNat + 2 = s.rxlen.toNat) (hb : b = Config.end0) (hck : t.rxck = s.rxck) (hlen : t.rxlen = s.rxlen) :
    t.candidateWf := by
  obtain ⟨h0, h1, h2⟩ := hs
  obtain ⟨hpre1, hsum⟩ := h1 (by omega)
  obtain ⟨h9, -, hann, hcks, -⟩ := h2 h4
  refine ⟨fun _ => (h.byteAt_old (by omega)).trans (h0 (by omega)),
    fun _ => ⟨(h.byteAt_old (by omega)).trans hpre1, ?_⟩, fun _ => ?_⟩
  · rw [hck]
    exact h.sum_same h9 (by omega) hlen hsum
  · rw [hlen, hck, h.1, h.byteAt_old (a := 2) (by omega), h.byteAt_old (a := 3) (by omega)]
    exact ⟨h9, by omega, hann, fun _ => (h.byteAt_old (by omega)).trans (hcks (by omega)),
      fun _ => (h.byteAt_new (by omega)).trans hb⟩

end Stored

/-! ### The whole invariant -/

/-- An abandoned candidate, or a completed one: back to `Idle`. -/
theorem State.rxIdle_inv {s : State} (h : s.Inv) : s.rxIdle.Inv := by
  obtain ⟨hparams, harrays, hcur, htime, hdate, hlat, hlon, ⟨hlen, hexplen, hticks, -, hrest⟩, -⟩ := h
  exact ⟨hparams, harrays, hcur, htime, hdate, hlat, hlon, ⟨hlen, hexplen, hticks, fun _ => rfl, hrest⟩,
    State.candidateWf_of_rxn_zero _ rfl⟩

/-- A stored byte in a wait keeps the invariant when the candidate's clause holds again. -/
theorem State.rxStored_inv {s : State} (h : s.Inv) (hw : s.awst = .waiting) (b ck len : Byte) (hlen : len.toNat ≤ 191)
    (hcand : s.StoresNext b { s.rxStored b with rxck := ck, rxlen := len } →
      State.candidateWf { s.rxStored b with rxck := ck, rxlen := len }) :
    State.Inv { s.rxStored b with rxck := ck, rxlen := len } := by
  have harrays := State.store_arraysWf h .rxbuf s.rxn.toNat [b] h.rxn_lt
  have hnext : s.StoresNext b { s.rxStored b with rxck := ck, rxlen := len } := State.rxStored_storesNext h b
  obtain ⟨hparams, -, hcur, htime, hdate, hlat, hlon, ⟨-, hexplen, hticks, -, hrest⟩, -⟩ := h
  exact ⟨hparams, harrays, hcur, htime, hdate, hlat, hlon, ⟨hlen, hexplen, hticks, fun hne => absurd hw hne, hrest⟩,
    hcand hnext⟩

/-- The candidate is completed: back to `Idle`, whatever the last byte's place held. -/
theorem State.rxStored_rxIdle_inv {s : State} (h : s.Inv) (b : Byte) : (s.rxStored b).rxIdle.Inv := by
  have harrays := State.store_arraysWf h .rxbuf s.rxn.toNat [b] h.rxn_lt
  obtain ⟨hparams, -, hcur, htime, hdate, hlat, hlon, ⟨hlen, hexplen, hticks, -, hrest⟩, -⟩ := h
  exact ⟨hparams, harrays, hcur, htime, hdate, hlat, hlon, ⟨hlen, hexplen, hticks, fun _ => rfl, hrest⟩,
    State.candidateWf_of_rxn_zero _ rfl⟩

/-- The wait ends in a match with the machine idle. -/
theorem State.endMatched_inv {s : State} (h : s.Inv) (hr : s.rxn = 0#8) (q : Half) :
    State.Inv { s with awst := .matched, seq := q } := by
  obtain ⟨hparams, harrays, hcur, htime, hdate, hlat, hlon, ⟨hlen, hexplen, -⟩, hcand⟩ := h
  exact ⟨hparams, harrays, hcur, htime, hdate, hlat, hlon, ⟨hlen, hexplen, nofun, fun _ => hr, nofun, nofun, nofun, nofun⟩,
    hcand⟩

/-- The completed candidate, matched or not. -/
theorem completeCandidate_inv {s t : State} (h : s.Inv) (b : Byte) (ht : completeCandidate (s.rxStored b) = .next t) :
    t.Inv := by
  have hidle := State.rxStored_rxIdle_inv h b
  obtain ⟨-, ⟨-, hmatch⟩ | ⟨-, rfl⟩⟩ := (completeCandidate_next ..).1 ht
  · obtain ⟨-, -, rfl⟩ | ⟨-, rfl⟩ := (matchWait_next ..).1 hmatch
    · exact State.endMatched_inv hidle rfl _
    · exact State.endMatched_inv hidle rfl _
  · exact hidle

/-- `PRX` keeps the invariant. -/
theorem execPrx_inv {s t : State} (h : s.Inv) (b : Byte) (ht : execPrx b s = .next t) : t.Inv := by
  have hcand := h.candidateWf
  have hlen := h.rxlen_le
  obtain ⟨-, rfl⟩ | ⟨hw, hcase⟩ := execPrx_next b s t ht
  · exact State.answer_inv h _ _
  rcases hcase with ⟨-, -, rfl⟩ | ⟨hst, hb, -, rfl⟩ | ⟨hst, hb, -, rfl⟩ | ⟨-, -, rfl⟩ | ⟨-, -, -, rfl⟩ | ⟨hst, -, rfl⟩ |
    ⟨hst, hread⟩ | ⟨hst, hb, -, rfl⟩ | ⟨-, -, rfl⟩ | ⟨hst, hb, -, rfl⟩ | ⟨-, -, rfl⟩ | ⟨-, -, -, hdone⟩ | ⟨-, -, rfl⟩
  · exact State.answer_inv h _ _
  · have hr : s.rxn.toNat = 0 := s.at_of_rxState hst
    exact State.rxStored_inv h hw b s.rxck s.rxlen hlen fun hn => hn.candidateWf_preamble0 hr hb
  · have hr : s.rxn.toNat = 1 := s.at_of_rxState hst
    exact State.rxStored_inv h hw b 0#8 s.rxlen hlen fun hn => hn.candidateWf_preamble1 hcand hr hb rfl
  · exact State.answer_inv h _ _
  · exact State.answer_inv (State.rxIdle_inv h) _ _
  · refine State.rxStored_inv h hw b (s.rxck ^^^ b) s.rxlen hlen fun hn => ?_
    rcases hst with hst | hst | hst
    · exact hn.candidateWf_length0 hcand (s.at_of_rxState hst) rfl
    · obtain ⟨h4, hlt⟩ := s.at_of_rxState hst
      exact hn.candidateWf_body hcand h4 hlt rfl rfl
    · obtain ⟨h4, hlt⟩ := s.at_of_rxState hst
      exact hn.candidateWf_body hcand h4 hlt rfl rfl
  · have hr : s.rxn.toNat = 3 := s.at_of_rxState hst
    obtain ⟨-, rfl⟩ | ⟨h9, h191, -, rfl⟩ := (rxLength_next ..).1 hread
    · exact State.answer_inv (State.rxIdle_inv h) _ _
    · have hval : (BitVec.ofNat 8 (s.announced b)).toNat = s.announced b :=
        Nat.mod_eq_of_lt (Nat.lt_of_le_of_lt h191 (by decide))
      exact State.rxStored_inv h hw b (s.rxck ^^^ b) (BitVec.ofNat 8 (s.announced b)) (hval.le.trans h191) fun hn =>
        hn.candidateWf_length1 hcand hr rfl (h9.trans hval.ge) hval
  · obtain ⟨h4, hlast⟩ := s.at_of_rxState hst
    exact State.rxStored_inv h hw b s.rxck s.rxlen hlen fun hn => hn.candidateWf_checksum hcand h4 hlast hb rfl rfl
  · exact State.answer_inv (State.rxIdle_inv h) _ _
  · obtain ⟨h4, hlast⟩ := s.at_of_rxState hst
    exact State.rxStored_inv h hw b s.rxck s.rxlen hlen fun hn => hn.candidateWf_end0 hcand h4 hlast hb rfl rfl
  · exact State.answer_inv (State.rxIdle_inv h) _ _
  · exact completeCandidate_inv h b hdone
  · exact State.answer_inv (State.rxIdle_inv h) _ _

/-! ### Every operation and every step -/

/-- The cursor after a grow (41_line_assembler.md R130) is in its range. -/
theorem grownCursor_lt (s : State) (h : s.Inv) (c : Nat) : grownCursor s c + 1 ≤ s.params.maxLine.val := by
  have := h.two_le_maxLine
  unfold grownCursor
  omega

theorem execFeed_inv {s t : State} (h : s.Inv) (b : Byte) (ht : execFeed b s = .next t) : t.Inv := by
  have hgrown := grownCursor_lt s h (feedCursor s b)
  obtain ⟨hc, ⟨-, rfl⟩ | ⟨-, -, rfl⟩⟩ := (execFeed_next ..).1 ht
  all_goals have hstored := State.store_inv h (.line s.act) nofun (feedCursor s b) [b] hc
  · exact State.answer_inv (State.setCur_inv hstored _ (by simpa using hgrown)) _ _
  · have hnul := State.store_inv hstored (.line s.act) nofun (grownCursor s (feedCursor s b)) [0x00#8] (by simpa using hgrown)
    exact State.answer_inv (State.completeLine_inv hnul) _ _

/-- Every operation keeps the invariant. -/
theorem exec_inv {s t : State} (h : s.Inv) (i : Instr) (ht : exec i s = .next t) : t.Inv := by
  cases i
  case feed b => exact execFeed_inv h b ht
  case has | valid | hexr | fempty =>
    cases ht
    exact h
  case take =>
    cases ht
    exact State.answer_inv (State.claimLine_inv h) _ _
  case lread =>
    obtain ⟨-, rfl⟩ | ⟨-, rfl⟩ := (execLread_next ..).1 ht
    all_goals exact State.answer_inv h _ _
  case xorrng =>
    obtain ⟨-, rfl⟩ | ⟨-, rfl⟩ := (execXorrng_next ..).1 ht
    all_goals exact State.answer_inv h _ _
  case hexp =>
    obtain ⟨-, rfl⟩ | ⟨_, -, rfl⟩ := (execHexp_next ..).1 ht
    all_goals exact State.answer_inv h _ _
  case txframe =>
    obtain ⟨-, rfl⟩ | ⟨-, rfl⟩ := (execTxframe_next ..).1 ht
    · exact State.answer_inv h _ _
    · exact State.answer_inv (State.emit_inv h _) _ _
  case frst =>
    cases ht
    exact State.answer_inv (State.setFp_inv h 0 (Nat.zero_le _)) _ _
  case fnext =>
    obtain ⟨-, rfl⟩ | ⟨⟨hlt, -⟩, rfl⟩ := (execFnext_next ..).1 ht
    · exact State.answer_inv h _ _
    · exact State.answer_inv (State.setFp_inv h _ (Nat.le_trans hlt s.stableLine_length)) _ _
  case timed =>
    obtain ⟨-, rfl⟩ | ⟨-, -, rfl⟩ | ⟨-, f, hf, rfl⟩ := (execTimed_next ..).1 ht
    · exact State.answer_inv h _ _
    · exact State.answer_inv h _ _
    · exact State.answer_inv (State.commitTime_inv h f (decodeTime_le _ f hf)) _ _
  case dated =>
    obtain ⟨-, rfl⟩ | ⟨-, -, rfl⟩ | ⟨-, f, hf, rfl⟩ := (execDated_next ..).1 ht
    · exact State.answer_inv h _ _
    · exact State.answer_inv h _ _
    · exact State.answer_inv (State.commitDate_inv h f (decodeDate_le _ f hf)) _ _
  case coord =>
    obtain ⟨-, rfl⟩ | ⟨k, -, ⟨-, rfl⟩ | ⟨-, ⟨_, -, rfl⟩ | ⟨c, hc, rfl⟩⟩⟩ := (execCoord_next ..).1 ht
    · exact State.answer_inv h _ _
    · exact State.answer_inv h _ _
    · exact State.answer_inv h _ _
    · exact State.answer_inv (State.commitCoord_inv h k c (decodeCoord_le k _ _ c hc)) _ _
  case rdreg =>
    obtain ⟨-, rfl⟩ | ⟨_, -, rfl⟩ := (execRdreg_next ..).1 ht
    all_goals exact State.answer_inv h _ _
  case psend =>
    obtain ⟨-, rfl⟩ | ⟨-, rfl⟩ := (execPsend_next ..).1 ht
    · exact State.answer_inv h _ _
    · exact State.answer_inv (State.emit_inv h _) _ _
  case await budget expected =>
    obtain ⟨-, rfl⟩ | ⟨-, -, rfl⟩ | ⟨-, hbudget, hlen, h191, rfl⟩ := (execAwait_next ..).1 ht
    · exact State.answer_inv h _ _
    · exact State.answer_inv h _ _
    · have hexp := State.store_inv h .exp nofun 0 expected (by simpa using h191)
      exact State.answer_inv (State.waitingFor_inv hexp _ budget .none (by omega) h191 hbudget nofun (fun hne => absurd rfl hne)) _ _
  case prx b => exact execPrx_inv h b ht
  case tick =>
    obtain ⟨-, rfl⟩ | ⟨-, -, rfl⟩ | ⟨hw, -, h1, rfl⟩ := (execTick_next ..).1 ht
    · exact State.answer_inv h _ _
    · exact State.answer_inv (State.endTimedOut_inv h) _ _
    · exact State.answer_inv (State.tickDown_inv h hw h1) _ _
  case ubegin =>
    obtain ⟨-, rfl⟩ | ⟨hw, rfl⟩ := (execUbegin_next ..).1 ht
    · exact State.answer_inv h _ _
    · exact State.answer_inv (State.restartUpload_inv h hw) _ _
  case usub d =>
    obtain ⟨-, rfl⟩ | ⟨-, -, rfl⟩ | ⟨hw, hseq, hfit, hthird⟩ := (execUsub_next ..).1 ht
    · exact State.answer_inv h _ _
    · exact State.answer_inv h _ _
    · have hstored := State.store_inv h .ubuf nofun _ d hfit
      have hw' : (s.store .ubuf (subOffset s.subcnt.val) d).awst ≠ .waiting := by simpa using hw
      obtain ⟨-, rfl⟩ | ⟨-, -, rfl⟩ := hthird
      · exact State.answer_inv (State.setSubcnt_inv hstored hw' _) _ _
      · exact State.answer_inv (State.uploadSent_inv hstored hw' _ _ fun _ => by simpa using hseq) _ _
  case ufin =>
    obtain ⟨-, rfl⟩ | ⟨-, -, rfl⟩ | ⟨hw, -, -, rfl⟩ := (execUfin_next ..).1 ht
    · exact State.answer_inv h _ _
    · exact State.answer_inv h _ _
    · have hfit : 8 + (List.replicate 180 0x00#8 : List Byte).length ≤ s.size .ubuf := by
        rw [List.length_replicate, State.size_ubuf]
        decide
      have hstored := State.store_inv h .ubuf nofun 8 (List.replicate 180 0x00#8) hfit
      exact State.answer_inv (State.uploadSent_inv hstored (by rwa [State.store_awst]) _ .final nofun) _ _

/-- Settles O49: the waiting step and an illegal word leave what the invariant reads, the reset input restores the reset state of the same
parameters, and every operation keeps the invariant. -/
theorem everyStepKeepsTheInvariant : Obligations.EveryStepKeepsTheInvariant := by
  intro s t h ht
  obtain ⟨-, rfl⟩ | ⟨rest, -, rfl⟩ | ⟨w, rest, i, -, -, hexec⟩ | ⟨w, rest, e, -, -, rfl⟩ := step_cases s t ht
  · exact h
  · exact State.inv_of_port (State.resetWith_inv _ h.params_wf) rest
  · exact exec_inv (State.inv_of_port h rest) i hexec
  · exact State.inv_of_port h rest

end Sys2Proof.Machine
end

section
/-!
PROOF. No operation of a decoded word stops from a state with the invariant (60_exceptions.md R253).
-/
namespace Sys2Proof.Machine

/-- The cursor `FEED` stores at is inside the buffer. -/
theorem feedCursor_lt {s : State} (h : s.Inv) (b : Byte) : feedCursor s b + 1 ≤ s.params.maxLine.val := by
  have hmax := h.two_le_maxLine
  have hcur := h.cur_lt
  unfold feedCursor
  split <;> omega

theorem execFeed_total {s : State} (h : s.Inv) (b : Byte) : ∃ t, execFeed b s = .next t := by
  have hc := feedCursor_lt h b
  by_cases hb : b = Config.term
  · exact ⟨_, (execFeed_next ..).2 ⟨hc, .inr ⟨hb, grownCursor_lt s h _, rfl⟩⟩⟩
  · exact ⟨_, (execFeed_next ..).2 ⟨hc, .inl ⟨hb, rfl⟩⟩⟩

/-- A completed candidate is matched or not; a unit's match can count up. -/
theorem completeCandidate_total {s : State} (h : s.Inv) (hw : s.awst = .waiting) (b : Byte) :
    ∃ t, completeCandidate (s.rxStored b) = .next t := by
  cases hmatch : candidateMatches (s.rxStored b) with
  | true => exact ⟨_, completeCandidate_of_matches _ h.rxlen_le hmatch (h.seq_ne_final hw)⟩
  | false => exact ⟨_, completeCandidate_of_not_matches _ h.rxlen_le hmatch⟩

theorem rxExpect_total {s : State} (h : s.Inv) (want b : Byte) (go : State → Result)
    (hgo : ∃ t, go (s.rxStored b) = .next t) : ∃ t, rxExpect want b s go = .next t := by
  by_cases hb : b = want
  · rw [rxExpect_good b want go h.rxn_lt hb]
    exact hgo
  · exact ⟨_, rxExpect_bad b want go hb⟩

theorem execPrx_total {s : State} (h : s.Inv) (b : Byte) : ∃ t, execPrx b s = .next t := by
  by_cases hw : s.awst = .waiting
  · have hmax := h.rxn_lt
    rw [execPrx_of_waiting b s hw, rxStep]
    split
    · split
      · exact ⟨_, rxStore_of_lt _ _ _ hmax⟩
      · exact ⟨_, rfl⟩
    · split
      · exact ⟨_, rxStore_of_lt _ _ _ hmax⟩
      · split <;> exact ⟨_, rfl⟩
    · exact ⟨_, rxStore_of_lt _ _ _ hmax⟩
    · unfold rxLength
      dsimp only
      split
      · exact ⟨_, rfl⟩
      · exact ⟨_, rxStore_of_lt _ _ _ hmax⟩
    · exact ⟨_, rxStore_of_lt _ _ _ hmax⟩
    · exact ⟨_, rxStore_of_lt _ _ _ hmax⟩
    · exact rxExpect_total h _ b _ ⟨_, rfl⟩
    · exact rxExpect_total h _ b _ ⟨_, rfl⟩
    · exact rxExpect_total h _ b _ (completeCandidate_total h hw b)
  · exact ⟨_, exec_prx_of_not_waiting b hw⟩

theorem execTick_total {s : State} (h : s.Inv) : ∃ t, execTick s = .next t := by
  by_cases hw : s.awst = .waiting
  · by_cases h1 : s.tmo = 1#16
    · exact ⟨_, (execTick_next ..).2 (.inr (.inl ⟨hw, h1, rfl⟩))⟩
    · exact ⟨_, (execTick_next ..).2 (.inr (.inr ⟨hw, h.tmo_ne_zero hw, h1, rfl⟩))⟩
  · exact ⟨_, (execTick_next ..).2 (.inl ⟨hw, rfl⟩)⟩

theorem execAwait_total (s : State) (budget : Half) (expected : List Byte) : ∃ t, execAwait budget expected s = .next t := by
  by_cases hw : s.awst = .waiting
  · exact ⟨_, (execAwait_next ..).2 (.inl ⟨hw, rfl⟩)⟩
  · by_cases hbad : budget = 0#16 ∨ expected.length = 0 ∨ 191 < expected.length
    · exact ⟨_, (execAwait_next ..).2 (.inr (.inl ⟨hw, hbad, rfl⟩))⟩
    · obtain ⟨hbudget, hempty, hlong⟩ : budget ≠ 0#16 ∧ expected.length ≠ 0 ∧ ¬191 < expected.length := by
        simpa only [not_or] using hbad
      exact ⟨_, (execAwait_next ..).2 (.inr (.inr ⟨hw, hbudget, hempty, Nat.le_of_not_lt hlong, rfl⟩))⟩

/-- A sub-payload fits `UBUF` at every place of a unit. -/
theorem subOffset_fits (s : State) (d : List Byte) (hd : d.length = 60) : subOffset s.subcnt.val + d.length ≤ 191 := by
  have := s.subcnt.isLt
  rw [hd, subOffset]
  dsimp only [Config.subLen]
  omega

theorem execUsub_total {s : State} (h : s.Inv) (d : List Byte) (hd : d.length = 60) : ∃ t, execUsub d s = .next t := by
  have hfit := subOffset_fits s d hd
  obtain ⟨-, hack⟩ := ackOf_length s.params h.params_wf s.seq
  by_cases hw : s.awst = .waiting
  · exact ⟨_, (execUsub_next d s _).2 (.inl ⟨hw, rfl⟩)⟩
  · by_cases hseq : s.seq = 0xFFFF#16
    · exact ⟨_, (execUsub_next d s _).2 (.inr (.inl ⟨hw, hseq, rfl⟩))⟩
    · by_cases hk : s.subcnt.val < 2
      · exact ⟨_, (execUsub_next d s _).2 (.inr (.inr ⟨hw, hseq, hfit, .inl ⟨hk, rfl⟩⟩))⟩
      · exact ⟨_, (execUsub_next d s _).2 (.inr (.inr ⟨hw, hseq, hfit, .inr ⟨hk, hack, rfl⟩⟩))⟩

theorem execUfin_total {s : State} (h : s.Inv) : ∃ t, execUfin s = .next t := by
  obtain ⟨-, hack⟩ := ackOf_length s.params h.params_wf 0xFFFF#16
  by_cases hw : s.awst = .waiting
  · exact ⟨_, (execUfin_next s _).2 (.inl ⟨hw, rfl⟩)⟩
  · by_cases hk : s.subcnt = 0
    · exact ⟨_, (execUfin_next s _).2 (.inr (.inr ⟨hw, hk, hack, rfl⟩))⟩
    · exact ⟨_, (execUfin_next s _).2 (.inr (.inl ⟨hw, hk, rfl⟩))⟩

/-- Every well-formed operation answers a next state. -/
theorem exec_total {s : State} (h : s.Inv) (i : Instr) (hwf : i.wf = true) : ∃ t, exec i s = .next t := by
  cases i
  case feed b => exact execFeed_total h b
  case has | take | valid | hexr | frst | fempty => exact ⟨_, rfl⟩
  case prx b => exact execPrx_total h b
  case tick => exact execTick_total h
  case usub d => exact execUsub_total h d (by simpa [Instr.wf] using hwf)
  case ufin => exact execUfin_total h
  case await budget expected => exact execAwait_total s budget expected
  all_goals
    simp only [exec, execLread, execXorrng, execHexp, execTxframe, execFnext, execTimed, execDated, execCoord, execRdreg,
      execPsend, execUbegin, respond, fail]
    repeat' split
    all_goals exact ⟨_, rfl⟩

/-- Settles O50: a decoded operation is well-formed, so it answers; the other events of the port always do. -/
theorem wellFormedStateNeverStops : Obligations.WellFormedStateNeverStops := by
  intro s h
  rcases hport : s.port with _ | ⟨w | _, rest⟩
  · exact ⟨_, step_of_port_nil s hport⟩
  · cases hdec : decode w with
    | ok i =>
      rw [step_of_decode_ok s w rest i hport hdec]
      exact exec_total (State.inv_of_port h rest) i (encodeOfDecodeIsTheWord w i hdec).1
    | error e => exact ⟨_, step_of_decode_error s w rest e hport hdec⟩
  · exact ⟨_, step_of_reset s rest hport⟩

end Sys2Proof.Machine
end

section
/-!
PROOF. The packet side does not see the sentence side (44_packet.md, its opening): each packet and upload operation gives the same result
when the sentence side of the state is replaced, and carries the replacement through.
-/
namespace Sys2Proof.Machine

/-! ### Replacing the sentence side commutes with what the operations are built from -/

theorem mapNext_ite (f : State → State) (c : Prop) [Decidable c] (a b : Result) :
    mapNext f (if c then a else b) = if c then mapNext f a else mapNext f b := by
  split <;> rfl

/-- The arrays of the packet side. -/
def Space.isPacket : Space → Bool
  | .line _ => false
  | .rxbuf | .exp | .ubuf => true

section Replace

variable (u : State)

theorem State.withSentenceSide_store (S : Space) (hS : S.isPacket = true) (i : Nat) (bs : List Byte) (s : State) :
    (s.withSentenceSide u).store S i bs = (s.store S i bs).withSentenceSide u := by
  cases S
  case line => exact absurd hS (by simp [Space.isPacket])
  all_goals rfl

/-- A continuation that carries the replacement through. -/
def CarriesSentenceSide (go : State → Result) : Prop :=
  ∀ s, go (s.withSentenceSide u) = mapNext (fun t => t.withSentenceSide u) (go s)

theorem withinSpace_withSentenceSide (S : Space) (hS : S.isPacket = true) (i n : Nat) (s : State) (go go' : Result)
    (hgo : go' = mapNext (fun t => t.withSentenceSide u) go) :
    withinSpace (s.withSentenceSide u) S i n go' = mapNext (fun t => t.withSentenceSide u) (withinSpace s S i n go) := by
  have hsize : (s.withSentenceSide u).size S = s.size S := by cases S <;> rfl
  rw [withinSpace, withinSpace, hsize, mapNext_ite, hgo]
  rfl

theorem storeThen_withSentenceSide (S : Space) (hS : S.isPacket = true) (i : Nat) (bs : List Byte) (s : State)
    (go : State → Result) (hgo : CarriesSentenceSide u go) :
    storeThen S i bs (s.withSentenceSide u) go = mapNext (fun t => t.withSentenceSide u) (storeThen S i bs s go) := by
  refine withinSpace_withSentenceSide u S hS i _ s _ _ ?_
  rw [State.withSentenceSide_store u S hS]
  exact hgo _

theorem rxStore_withSentenceSide (b : Byte) (s : State) (go : State → Result) (hgo : CarriesSentenceSide u go) :
    rxStore b (s.withSentenceSide u) go = mapNext (fun t => t.withSentenceSide u) (rxStore b s go) :=
  storeThen_withSentenceSide u .rxbuf rfl _ _ s _ fun r => hgo r.rxAdvance

theorem startWait_withSentenceSide (E : List Byte) (budget : Half) (w : Pending) (s : State) (go : State → Result)
    (hgo : CarriesSentenceSide u go) :
    startWait E budget w (s.withSentenceSide u) go = mapNext (fun t => t.withSentenceSide u) (startWait E budget w s go) :=
  storeThen_withSentenceSide u .exp rfl _ _ s _ fun r => hgo (r.waitingFor E.length budget w)

/-- An answer after an update that carries the replacement through. -/
theorem respond_carries (st : Status) (data : List Byte) (f : State → State)
    (hf : ∀ s, f (s.withSentenceSide u) = (f s).withSentenceSide u) :
    CarriesSentenceSide u fun s => respond st data (f s) := by
  intro s
  dsimp only
  rw [hf]
  rfl

/-! ### The receive step -/

theorem rxExpect_withSentenceSide (want b : Byte) (s : State) (go : State → Result) (hgo : CarriesSentenceSide u go) :
    rxExpect want b (s.withSentenceSide u) go = mapNext (fun t => t.withSentenceSide u) (rxExpect want b s go) := by
  rw [rxExpect, rxExpect, mapNext_ite, rxStore_withSentenceSide u b s go hgo]
  rfl

theorem rxLength_withSentenceSide (b : Byte) (s : State) :
    rxLength b (s.withSentenceSide u) = mapNext (fun t => t.withSentenceSide u) (rxLength b s) := by
  have hstore := rxStore_withSentenceSide u b s
    (fun r => respond .pending [] ((r.rxSum b).rxAnnounce ((s.byteAt .rxbuf 2).toNat + 256 * b.toNat)))
    (respond_carries u _ _ _ fun _ => rfl)
  unfold rxLength
  dsimp only
  rw [mapNext_ite, ← hstore]
  rfl

theorem matchWait_carries : CarriesSentenceSide u matchWait := by
  intro s
  unfold matchWait
  rw [mapNext_ite, mapNext_ite]
  rfl

theorem completeCandidate_carries : CarriesSentenceSide u completeCandidate := by
  intro s
  refine withinSpace_withSentenceSide u .rxbuf rfl 0 _ s _ _ ?_
  rw [mapNext_ite, ← matchWait_carries u]
  rfl

theorem rxStep_withSentenceSide (b : Byte) (s : State) :
    rxStep b (s.withSentenceSide u) = mapNext (fun t => t.withSentenceSide u) (rxStep b s) := by
  have hst : (s.withSentenceSide u).rxState = s.rxState := rfl
  have hkept := rxStore_withSentenceSide u b s (fun r => respond .pending [] r) (respond_carries u _ _ id fun _ => rfl)
  have hclear := rxStore_withSentenceSide u b s (fun r => respond .pending [] r.rxClearSum)
    (respond_carries u _ _ State.rxClearSum fun _ => rfl)
  have hsum := rxStore_withSentenceSide u b s (fun r => respond .pending [] (r.rxSum b))
    (respond_carries u _ _ (State.rxSum b) fun _ => rfl)
  have hexpect (want : Byte) := rxExpect_withSentenceSide u want b s (fun r => respond .pending [] r)
    (respond_carries u _ _ id fun _ => rfl)
  unfold rxStep
  rw [hst]
  cases s.rxState
  case idle =>
    dsimp only
    rw [mapNext_ite, hkept]
    rfl
  case sawPreamble1 =>
    dsimp only
    rw [mapNext_ite, mapNext_ite, hclear]
    rfl
  case sawPreamble2 | readingCommand | readingPayload => exact hsum
  case readingLength => exact rxLength_withSentenceSide u b s
  case readingChecksum => exact hexpect s.rxck
  case readingEnd1 => exact hexpect Config.end0
  case readingEnd2 => exact rxExpect_withSentenceSide u _ b s _ (completeCandidate_carries u)

/-! ### The upload -/

theorem sealUpload_withSentenceSide (q : Half) (s : State) :
    (s.withSentenceSide u).sealUpload q = (s.sealUpload q).withSentenceSide u := rfl

theorem sendUpload_withSentenceSide (s : State) :
    (s.withSentenceSide u).sendUpload = s.sendUpload.withSentenceSide u := rfl

/-- Sealing, sending and waiting for the acknowledgement of `q`, after an update `f` of the upload registers. -/
theorem uploadWait_carries (q : State → Half) (hq : ∀ s, q (s.withSentenceSide u) = q s) (w : Pending) (f : State → State)
    (hf : ∀ s, f (s.withSentenceSide u) = (f s).withSentenceSide u) :
    CarriesSentenceSide u fun s =>
      startWait (ackOf s.params (q s)) s.params.uplTmo w (f ((s.sealUpload (q s)).sendUpload)) fun s =>
        respond .pending [] s := by
  intro s
  dsimp only
  rw [hq, sealUpload_withSentenceSide, sendUpload_withSentenceSide, hf]
  exact startWait_withSentenceSide u _ _ _ _ _ (respond_carries u _ _ id fun _ => rfl)

theorem usubTail_carries : CarriesSentenceSide u fun s =>
    if s.subcnt.val < 2 then respond .ok [] (s.setSubcnt (s.subcnt + 1))
    else
      let s := (s.sealUpload s.seq).sendUpload
      startWait (ackOf s.params s.seq) s.params.uplTmo .unit (s.setSubcnt 0) fun s => respond .pending [] s := by
  intro s
  have hsend := uploadWait_carries u State.seq (fun _ => rfl) .unit (State.setSubcnt 0) (fun _ => rfl) s
  have hkeep := respond_carries u .ok [] (fun s => s.setSubcnt (s.subcnt + 1)) (fun _ => rfl) s
  dsimp only at hsend hkeep
  simp only [State.sendUpload_params, State.sealUpload_params, State.sendUpload_seq, State.sealUpload_seq]
  rw [mapNext_ite, hkeep, hsend]
  rfl

theorem ufinTail_carries : CarriesSentenceSide u fun s =>
    let s := (s.sealUpload Config.finalSeq).sendUpload
    startWait (ackOf s.params Config.finalSeq) s.params.uplTmo .final s fun s => respond .pending [] s := by
  intro s
  have hsend := uploadWait_carries u (fun _ => Config.finalSeq) (fun _ => rfl) .final id (fun _ => rfl) s
  simp only [State.sendUpload_params, State.sealUpload_params]
  exact hsend

/-! ### The operations -/

theorem exec_withSentenceSide (i : Instr) (hi : isPacketSide i = true) : CarriesSentenceSide u (exec i) := by
  intro s
  cases i
  case psend cmd payload =>
    show execPsend cmd payload _ = mapNext _ (execPsend cmd payload s)
    rw [execPsend, execPsend, mapNext_ite]
    rfl
  case await budget expected =>
    have hwait := startWait_withSentenceSide u expected budget .none s (fun r => respond .pending [] r)
      (respond_carries u _ _ id fun _ => rfl)
    show execAwait budget expected _ = mapNext _ (execAwait budget expected s)
    rw [execAwait, execAwait, mapNext_ite, mapNext_ite, hwait]
    rfl
  case prx b =>
    show execPrx b _ = mapNext _ (execPrx b s)
    rw [execPrx, execPrx, mapNext_ite, rxStep_withSentenceSide]
    rfl
  case tick =>
    show execTick _ = mapNext _ (execTick s)
    rw [execTick, execTick, mapNext_ite, mapNext_ite, mapNext_ite]
    rfl
  case ubegin =>
    show execUbegin _ = mapNext _ (execUbegin s)
    rw [execUbegin, execUbegin, mapNext_ite]
    rfl
  case usub d =>
    have hstore := storeThen_withSentenceSide u .ubuf rfl (subOffset s.subcnt.val) d s _ (usubTail_carries u)
    show execUsub d _ = mapNext _ (execUsub d s)
    rw [execUsub, execUsub, mapNext_ite, mapNext_ite]
    exact if_congr Iff.rfl rfl (if_congr Iff.rfl rfl hstore)
  case ufin =>
    have hsend := ufinTail_carries u (s.store .ubuf 8 (List.replicate 180 0x00#8))
    rw [← State.withSentenceSide_store u .ubuf rfl] at hsend
    show execUfin _ = mapNext _ (execUfin s)
    rw [execUfin, execUfin, mapNext_ite, mapNext_ite]
    exact if_congr Iff.rfl rfl (if_congr Iff.rfl rfl hsend)
  all_goals exact absurd hi (by simp [isPacketSide])

end Replace

end Sys2Proof.Machine
end

section
/-!
PROOF. What an operation can write before it answers, said once for all operations (60_exceptions.md R251 to R254), and what follows of
every operation: its one answer, what a failure leaves, and which operation owns which register.
-/
namespace Sys2Proof.Machine

/-! ### The writes of an operation -/

/-- `Writes s i st data u`: at `s` the operation `i` can write the state `u` and then answer the status `st` with `data`. -/
inductive Writes (s : State) : Instr → Status → List Byte → State → Prop
  /-- Nothing but the answer; `FEED` and `TAKE` always write. -/
  | nothing {i : Instr} {st : Status} {data : List Byte} (hst : st ∈ mayAnswer i) (hfeed : ∀ b, i ≠ .feed b)
      (htake : i ≠ .take) : Writes s i st data s
  /-- The active line buffer and the cursor. -/
  | feedByte {b : Byte} (hb : b ≠ Config.term) (m0 m1 : Memory) (c : Byte)
      (hother : State.mem { s with buf0 := m0, buf1 := m1 } (.line (!s.act)) = s.mem (.line (!s.act))) :
      Writes s (.feed b) .ok [] { s with buf0 := m0, buf1 := m1, cur := c }
  /-- The active line buffer, and the line is complete. -/
  | feedTerm (m0 m1 : Memory)
      (hother : State.mem { s with buf0 := m0, buf1 := m1 } (.line (!s.act)) = s.mem (.line (!s.act))) :
      Writes s (.feed Config.term) .ok [] { s with buf0 := m0, buf1 := m1, act := !s.act, cur := 0#8, new := true }
  | take : Writes s .take .ok [bitByte (!s.act)] s.claimLine
  | txframe (text : List Byte) : Writes s (.txframe text) .ok [] (s.emit (framedText text))
  | frst : Writes s .frst .ok [] (s.setFp 0)
  | fnext (p : Nat) : Writes s .fnext .ok [BitVec.ofNat 8 p] (s.setFp p)
  | timed (f : TimeFields) : Writes s .timed .ok [] (s.commitTime f)
  | dated (f : DateFields) : Writes s .dated .ok [] (s.commitDate f)
  | coord {kind : Byte} {k : CoordKind} (hk : coordKindOf kind = some k) (c : CoordFields) :
      Writes s (.coord kind) .ok [] (s.commitCoord k c)
  | psend (cmd : Half) (payload : List Byte) : Writes s (.psend cmd payload) .ok [] (s.emit (packet cmd payload))
  | await (hw : s.awst ≠ .waiting) (budget : Half) (expected : List Byte) :
      Writes s (.await budget expected) .pending []
        ((s.store .exp 0 expected).waitingFor expected.length budget .none)
  /-- The candidate under assembly. -/
  | prx (b : Byte) (m : Memory) (r len ck : Byte) :
      Writes s (.prx b) .pending [] { s with rxbuf := m, rxn := r, rxlen := len, rxck := ck }
  /-- The candidate is the expected packet. -/
  | prxMatch (hw : s.awst = .waiting) (b : Byte) (m : Memory) (q : Half)
      (hq : q = s.seq ∨ s.uplpend = .unit ∧ q.toNat = s.seq.toNat + 1) :
      Writes s (.prx b) .matched [] { s with rxbuf := m, rxn := 0#8, awst := .matched, seq := q }
  | tick : Writes s .tick .pending [] s.tickDown
  | tickLast (h1 : s.tmo = 1#16) : Writes s .tick .timedOut [] s.endTimedOut
  | ubegin (hw : s.awst ≠ .waiting) : Writes s .ubegin .ok [] s.restartUpload
  /-- A sub-payload is only stored. -/
  | usub (d : List Byte) (m : Memory) (k : Fin 3) : Writes s (.usub d) .ok [] { s with ubuf := m, subcnt := k }
  /-- A packet is sent and its wait started: `USUB` or `UFIN`. -/
  | upload {i : Instr} (hi : (∃ d, i = .usub d) ∨ i = .ufin) (hw : s.awst ≠ .waiting) (mu me : Memory) (n : Byte) (w : Pending)
      (sent : List Byte) :
      Writes s i .pending [] { s with
        ubuf := mu, exp := me, subcnt := 0, explen := n, tmo := s.params.uplTmo, rxn := 0#8, rxlen := 0#8, rxck := 0#8,
        uplpend := w, awst := .waiting, txOut := s.txOut ++ sent }

/-- A store to one line buffer as a write of the two. -/
theorem State.store_line_eq (k : Bool) (i : Nat) (bs : List Byte) (s : State) :
    s.store (.line k) i bs = { s with buf0 := (s.store (.line k) i bs).buf0, buf1 := (s.store (.line k) i bs).buf1 } := by
  cases k <;> rfl

/-- A store to the active buffer leaves the stable one. -/
theorem State.store_active_mem (s : State) (i : Nat) (bs : List Byte) :
    (s.store (.line s.act) i bs).mem (.line (!s.act)) = s.mem (.line (!s.act)) :=
  State.store_mem_other _ _ _ _ _ (by cases s.act <;> simp)

theorem execFeed_writes {b : Byte} {s t : State} (h : execFeed b s = .next t) :
    ∃ st data u, Writes s (.feed b) st data u ∧ t = u.answer st data := by
  obtain ⟨-, ⟨hb, rfl⟩ | ⟨rfl, -, rfl⟩⟩ := (execFeed_next ..).1 h
  · have hmem := s.store_active_mem (feedCursor s b) [b]
    rw [State.store_line_eq] at hmem ⊢
    exact ⟨_, _, _, .feedByte hb _ _ _ hmem, rfl⟩
  · obtain ⟨c, hc⟩ : ∃ c, c = grownCursor s (feedCursor s Config.term) := ⟨_, rfl⟩
    rw [← hc]
    have hmem := s.store_active_mem (feedCursor s Config.term) [Config.term]
    have hmem' := State.store_active_mem (s.store (.line s.act) (feedCursor s Config.term) [Config.term]) c [0x00#8]
    rw [State.store_act] at hmem'
    rw [hmem] at hmem'
    rw [State.store_line_eq _ c, State.store_line_eq _ (feedCursor s Config.term)] at hmem' ⊢
    exact ⟨_, _, _, .feedTerm _ _ hmem', rfl⟩

theorem execPrx_writes {b : Byte} {s t : State} (h : execPrx b s = .next t) :
    ∃ st data u, Writes s (.prx b) st data u ∧ t = u.answer st data := by
  obtain ⟨-, rfl⟩ | ⟨hw, hcase⟩ := execPrx_updates b s t h
  · exact ⟨_, _, _, .nothing (by simp [mayAnswer]) nofun nofun, rfl⟩
  obtain ⟨m, hm⟩ : ∃ m, s.rxStored b = { s with rxbuf := m, rxn := s.rxn + 1 } := ⟨_, s.rxStored_eq b⟩
  rw [hm] at hcase
  rcases hcase with rfl | rfl | rfl | rfl | rfl | ⟨n, rfl⟩ | rfl | ⟨hu, hq, rfl⟩ | ⟨-, rfl⟩
  iterate 7 exact ⟨_, _, _, .prx b _ _ _ _, rfl⟩
  · have hnext : (s.seq + 1#16).toNat = s.seq.toNat + 1 := by bv_omega
    exact ⟨_, _, _, .prxMatch hw b m (s.seq + 1#16) (.inr ⟨hu, hnext⟩), rfl⟩
  · exact ⟨_, _, _, .prxMatch hw b m s.seq (.inl rfl), rfl⟩

/-- What sending a packet and starting its wait writes. -/
theorem State.uploadSent_eq (s : State) (q : Half) (w : Pending) :
    s.uploadSent q w = { s with
      ubuf := (s.uploadSent q w).ubuf, exp := (s.uploadSent q w).exp, subcnt := 0,
      explen := (s.uploadSent q w).explen, tmo := s.params.uplTmo, rxn := 0#8, rxlen := 0#8, rxck := 0#8, uplpend := w,
      awst := .waiting, txOut := s.txOut ++ (s.sealUpload q).bytesAt .ubuf 0 Config.pktMax } := by
  ext1
  all_goals simp [State.uploadSent, State.sendUpload]

/-- The last bytes of a packet stored, the packet sent and its wait started. -/
theorem Writes.uploadSent {s : State} {i : Instr} (hi : (∃ d, i = .usub d) ∨ i = .ufin) (hw : s.awst ≠ .waiting) (a : Nat)
    (d : List Byte) (q : Half) (w : Pending) : Writes s i .pending [] ((s.store .ubuf a d).uploadSent q w) := by
  rw [State.uploadSent_eq]
  exact .upload hi hw _ _ _ _ _

/-- Everything an operation can do: one of the listed writes, then one answer. -/
theorem exec_writes {i : Instr} {s t : State} (h : exec i s = .next t) :
    ∃ st data u, Writes s i st data u ∧ t = u.answer st data := by
  cases i
  case feed b => exact execFeed_writes h
  case prx b => exact execPrx_writes h
  case has | hexr | fempty =>
    cases h
    exact ⟨_, _, _, .nothing (by simp [mayAnswer]) nofun nofun, rfl⟩
  case valid =>
    cases h
    exact ⟨_, _, _, .nothing (validate_status ..) nofun nofun, rfl⟩
  case take =>
    cases h
    exact ⟨_, _, _, .take, rfl⟩
  case lread =>
    obtain ⟨-, rfl⟩ | ⟨-, rfl⟩ := (execLread_next ..).1 h
    all_goals exact ⟨_, _, _, .nothing (by simp [mayAnswer]) nofun nofun, rfl⟩
  case xorrng =>
    obtain ⟨-, rfl⟩ | ⟨-, rfl⟩ := (execXorrng_next ..).1 h
    all_goals exact ⟨_, _, _, .nothing (by simp [mayAnswer]) nofun nofun, rfl⟩
  case hexp =>
    obtain ⟨-, rfl⟩ | ⟨_, -, rfl⟩ := (execHexp_next ..).1 h
    all_goals exact ⟨_, _, _, .nothing (by simp [mayAnswer]) nofun nofun, rfl⟩
  case rdreg =>
    obtain ⟨-, rfl⟩ | ⟨_, -, rfl⟩ := (execRdreg_next ..).1 h
    all_goals exact ⟨_, _, _, .nothing (by simp [mayAnswer]) nofun nofun, rfl⟩
  case txframe =>
    obtain ⟨-, rfl⟩ | ⟨-, rfl⟩ := (execTxframe_next ..).1 h
    · exact ⟨_, _, _, .nothing (by simp [mayAnswer]) nofun nofun, rfl⟩
    · exact ⟨_, _, _, .txframe _, rfl⟩
  case frst =>
    cases h
    exact ⟨_, _, _, .frst, rfl⟩
  case fnext =>
    obtain ⟨-, rfl⟩ | ⟨-, rfl⟩ := (execFnext_next ..).1 h
    · exact ⟨_, _, _, .nothing (by simp [mayAnswer]) nofun nofun, rfl⟩
    · exact ⟨_, _, _, .fnext _, rfl⟩
  case timed =>
    obtain ⟨-, rfl⟩ | ⟨-, -, rfl⟩ | ⟨-, f, -, rfl⟩ := (execTimed_next ..).1 h
    · exact ⟨_, _, _, .nothing (by simp [mayAnswer]) nofun nofun, rfl⟩
    · exact ⟨_, _, _, .nothing (by simp [mayAnswer]) nofun nofun, rfl⟩
    · exact ⟨_, _, _, .timed f, rfl⟩
  case dated =>
    obtain ⟨-, rfl⟩ | ⟨-, -, rfl⟩ | ⟨-, f, -, rfl⟩ := (execDated_next ..).1 h
    · exact ⟨_, _, _, .nothing (by simp [mayAnswer]) nofun nofun, rfl⟩
    · exact ⟨_, _, _, .nothing (by simp [mayAnswer]) nofun nofun, rfl⟩
    · exact ⟨_, _, _, .dated f, rfl⟩
  case coord kind =>
    obtain ⟨-, rfl⟩ | ⟨k, hk, ⟨-, rfl⟩ | ⟨-, ⟨st, hst, rfl⟩ | ⟨c, -, rfl⟩⟩⟩ := (execCoord_next ..).1 h
    · exact ⟨_, _, _, .nothing (by simp [mayAnswer]) nofun nofun, rfl⟩
    · exact ⟨_, _, _, .nothing (by simp [mayAnswer]) nofun nofun, rfl⟩
    · have hmay : st ∈ mayAnswer (.coord kind) := by
        rcases decodeCoord_error k _ _ st hst with rfl | rfl | rfl <;> simp [mayAnswer]
      exact ⟨_, _, _, .nothing hmay nofun nofun, rfl⟩
    · exact ⟨_, _, _, .coord hk c, rfl⟩
  case psend =>
    obtain ⟨-, rfl⟩ | ⟨-, rfl⟩ := (execPsend_next ..).1 h
    · exact ⟨_, _, _, .nothing (by simp [mayAnswer]) nofun nofun, rfl⟩
    · exact ⟨_, _, _, .psend _ _, rfl⟩
  case await =>
    obtain ⟨-, rfl⟩ | ⟨-, -, rfl⟩ | ⟨hw, -, -, -, rfl⟩ := (execAwait_next ..).1 h
    · exact ⟨_, _, _, .nothing (by simp [mayAnswer]) nofun nofun, rfl⟩
    · exact ⟨_, _, _, .nothing (by simp [mayAnswer]) nofun nofun, rfl⟩
    · exact ⟨_, _, _, .await hw _ _, rfl⟩
  case tick =>
    obtain ⟨-, rfl⟩ | ⟨-, h1, rfl⟩ | ⟨-, -, -, rfl⟩ := (execTick_next ..).1 h
    · exact ⟨_, _, _, .nothing (by simp [mayAnswer]) nofun nofun, rfl⟩
    · exact ⟨_, _, _, .tickLast h1, rfl⟩
    · exact ⟨_, _, _, .tick, rfl⟩
  case ubegin =>
    obtain ⟨-, rfl⟩ | ⟨hw, rfl⟩ := (execUbegin_next ..).1 h
    · exact ⟨_, _, _, .nothing (by simp [mayAnswer]) nofun nofun, rfl⟩
    · exact ⟨_, _, _, .ubegin hw, rfl⟩
  case usub d =>
    obtain ⟨-, rfl⟩ | ⟨-, -, rfl⟩ | ⟨hw, -, -, ⟨-, rfl⟩ | ⟨-, -, rfl⟩⟩ := (execUsub_next ..).1 h
    · exact ⟨_, _, _, .nothing (by simp [mayAnswer]) nofun nofun, rfl⟩
    · exact ⟨_, _, _, .nothing (by simp [mayAnswer]) nofun nofun, rfl⟩
    · exact ⟨_, _, _, .usub d _ _, rfl⟩
    · exact ⟨_, _, _, .uploadSent (.inl ⟨d, rfl⟩) hw _ _ _ _, rfl⟩
  case ufin =>
    obtain ⟨-, rfl⟩ | ⟨-, -, rfl⟩ | ⟨hw, -, -, rfl⟩ := (execUfin_next ..).1 h
    · exact ⟨_, _, _, .nothing (by simp [mayAnswer]) nofun nofun, rfl⟩
    · exact ⟨_, _, _, .nothing (by simp [mayAnswer]) nofun nofun, rfl⟩
    · exact ⟨_, _, _, .uploadSent (.inr rfl) hw _ _ _ _, rfl⟩

end Sys2Proof.Machine
end

section
/-!
PROOF. The statements about every operation (60_exceptions.md R252 to R254 and the ownership rules of 10_state.md), each a case split over the
writes an operation can make.
-/
namespace Sys2Proof.Machine

/-! ### Answers and failures -/

/-- The status is one of the operation's row (R254). -/
theorem Writes.mem_mayAnswer {s u : State} {i : Instr} {st : Status} {data : List Byte} (h : Writes s i st data u) :
    st ∈ mayAnswer i := by
  cases h with
  | nothing hst _ _ => exact hst
  | upload hi _ _ _ _ _ _ =>
    rcases hi with ⟨d, rfl⟩ | rfl
    · exact .tail _ (.head _)
    · exact .head _
  | _ => simp [mayAnswer]

/-- No write touches the responses. -/
theorem Writes.responses {s u : State} {i : Instr} {st : Status} {data : List Byte} (h : Writes s i st data u) :
    u.responses = s.responses := by
  cases h with
  | @coord _ k _ _ => exact State.commitCoord_responses ..
  | _ => rfl

/-- With a status that must not write, nothing was written (R252). -/
theorem Writes.eq_of_not_mayWrite {s u : State} {i : Instr} {st : Status} {data : List Byte} (h : Writes s i st data u)
    (hst : st.mayWrite = false) : u = s := by
  cases h with
  | nothing _ _ _ => rfl
  | _ => exact absurd hst (by decide)

/-- Settles O51. -/
theorem everyOperationAnswersOnce : Obligations.EveryOperationAnswersOnce := by
  intro i s t h
  obtain ⟨st, data, u, hwrites, rfl⟩ := exec_writes h
  exact ⟨st, hwrites.mem_mayAnswer, data, by rw [State.answer_responses, hwrites.responses]⟩

/-- Settles O52: the recorded response tells the status, and that status wrote nothing. -/
theorem failureWritesNothing : Obligations.FailureWritesNothing := by
  intro i s t st data h hresp hst
  obtain ⟨st', data', u, hwrites, rfl⟩ := exec_writes h
  rw [State.answer_responses, hwrites.responses, List.append_cancel_left_eq, List.cons.injEq, List.cons.injEq] at hresp
  obtain ⟨⟨hcode, rfl⟩, -⟩ := hresp
  obtain rfl := Status.code_injective _ _ hcode
  rw [hwrites.eq_of_not_mayWrite hst]
  rfl

/-! ### The sentence side -/

theorem State.mem_line_congr {s t : State} (h0 : t.buf0 = s.buf0) (h1 : t.buf1 = s.buf1) (k : Bool) :
    t.mem (.line k) = s.mem (.line k) := by
  cases k
  · exact h0
  · exact h1

/-- Settles O53: only `FEED` writes a line buffer, and its stores go to the active one. -/
theorem onlyFeedWritesTheActiveBuffer : Obligations.OnlyFeedWritesTheActiveBuffer := by
  intro i s t h
  obtain ⟨st, data, u, hwrites, rfl⟩ := exec_writes h
  cases hwrites with
  | @feedByte b _ _ _ _ hother => exact ⟨hother, fun hi => absurd rfl (hi b)⟩
  | feedTerm _ _ hother => exact ⟨hother, fun hi => absurd rfl (hi _)⟩
  | @coord _ k _ _ => cases k <;> exact ⟨State.mem_line_congr (by rfl) (by rfl) _, fun _ => ⟨rfl, rfl, rfl, rfl⟩⟩
  | _ => exact ⟨State.mem_line_congr (by rfl) (by rfl) _, fun _ => ⟨rfl, rfl, rfl, rfl⟩⟩

/-- Settles O57: the three clauses are what `FEED` of the terminator and `TAKE` write, and that nothing else writes `NEW`. -/
theorem savailFollowsTheFreshnessFlag : Obligations.SavailFollowsTheFreshnessFlag := by
  intro i s t h
  refine ⟨rfl, ?_⟩
  obtain ⟨st, data, u, hwrites, rfl⟩ := exec_writes h
  cases hwrites with
  | nothing _ hfeed htake => exact ⟨fun hi => absurd hi (hfeed _), fun hi => absurd hi htake, fun _ _ => rfl⟩
  | feedByte hb _ _ _ _ => exact ⟨fun hi => absurd (Instr.feed.inj hi) hb, nofun, fun _ _ => rfl⟩
  | feedTerm _ _ _ => exact ⟨fun _ => rfl, nofun, fun hi _ => absurd rfl hi⟩
  | take => exact ⟨nofun, fun _ => rfl, fun _ hi => absurd rfl hi⟩
  | @coord _ k _ _ => cases k <;> exact ⟨nofun, nofun, fun _ _ => rfl⟩
  | upload hi _ _ _ _ _ _ => rcases hi with ⟨d, rfl⟩ | rfl <;> exact ⟨nofun, nofun, fun _ _ => rfl⟩
  | _ => exact ⟨nofun, nofun, fun _ _ => rfl⟩

/-- Setting a valid bit clears none. -/
theorem rvalid_or_and_old : ∀ v a : BitVec 4, (v ||| a) &&& v = v := by decide

theorem eq_zero_of_coordKindOf_lat {kind : Byte} (h : coordKindOf kind = some .lat) : kind = 0#8 := by
  unfold coordKindOf at h
  split at h
  · assumption
  · split at h <;> cases h

theorem eq_one_of_coordKindOf_lon {kind : Byte} (h : coordKindOf kind = some .lon) : kind = 1#8 := by
  unfold coordKindOf at h
  split at h
  · cases h
  · split at h
    · assumption
    · cases h

/-- Settles O55: the three decoders each set their own bit and registers, and no other write touches them. -/
theorem resultRegistersBelongToTheirDecoder : Obligations.ResultRegistersBelongToTheirDecoder := by
  intro i s t h
  obtain ⟨st, data, u, hwrites, rfl⟩ := exec_writes h
  cases hwrites with
  | timed f =>
    exact ⟨rvalid_or_and_old _ _, fun hi => absurd rfl hi, fun _ => ⟨rfl, rfl, rfl, rvalid_or_and_other _ _ _ rfl⟩,
      fun _ => ⟨rfl, rfl, rfl, rvalid_or_and_other _ _ _ rfl⟩, fun _ => ⟨rfl, rfl, rfl, rvalid_or_and_other _ _ _ rfl⟩⟩
  | dated f =>
    exact ⟨rvalid_or_and_old _ _, fun _ => ⟨rfl, rfl, rfl, rfl, rvalid_or_and_other _ _ _ rfl⟩, fun hi => absurd rfl hi,
      fun _ => ⟨rfl, rfl, rfl, rvalid_or_and_other _ _ _ rfl⟩, fun _ => ⟨rfl, rfl, rfl, rvalid_or_and_other _ _ _ rfl⟩⟩
  | @coord kind k hk c =>
    cases k
    case lat =>
      obtain rfl : kind = 0#8 := eq_zero_of_coordKindOf_lat hk
      exact ⟨rvalid_or_and_old _ _, fun _ => ⟨rfl, rfl, rfl, rfl, rvalid_or_and_other _ _ _ rfl⟩,
        fun _ => ⟨rfl, rfl, rfl, rvalid_or_and_other _ _ _ rfl⟩, fun hi => absurd rfl hi,
        fun _ => ⟨rfl, rfl, rfl, rvalid_or_and_other _ _ _ rfl⟩⟩
    case lon =>
      obtain rfl : kind = 1#8 := eq_one_of_coordKindOf_lon hk
      exact ⟨rvalid_or_and_old _ _, fun _ => ⟨rfl, rfl, rfl, rfl, rvalid_or_and_other _ _ _ rfl⟩,
        fun _ => ⟨rfl, rfl, rfl, rvalid_or_and_other _ _ _ rfl⟩, fun _ => ⟨rfl, rfl, rfl, rvalid_or_and_other _ _ _ rfl⟩,
        fun hi => absurd rfl hi⟩
  | _ =>
    exact ⟨BitVec.and_self, fun _ => ⟨rfl, rfl, rfl, rfl, rfl⟩, fun _ => ⟨rfl, rfl, rfl, rfl⟩,
      fun _ => ⟨rfl, rfl, rfl, rfl⟩, fun _ => ⟨rfl, rfl, rfl, rfl⟩⟩

/-! ### The packet side -/

/-- Settles O56: the operations that send append, and no other write touches `TXOUT`. -/
theorem transmitStreamIsAppendOnly : Obligations.TransmitStreamIsAppendOnly := by
  intro i s t h
  obtain ⟨st, data, u, hwrites, rfl⟩ := exec_writes h
  cases hwrites with
  | txframe text => exact ⟨List.prefix_append .., fun hi => absurd rfl (hi text)⟩
  | psend cmd payload => exact ⟨List.prefix_append .., fun _ hi => absurd rfl (hi cmd payload)⟩
  | upload hi _ _ _ _ _ _ =>
    refine ⟨List.prefix_append .., fun _ _ husub hufin => ?_⟩
    rcases hi with ⟨d, rfl⟩ | rfl
    · exact absurd rfl (husub d)
    · exact absurd rfl hufin
  | @coord _ k _ _ => cases k <;> exact ⟨List.prefix_rfl, fun _ _ _ _ => rfl⟩
  | _ => exact ⟨List.prefix_rfl, fun _ _ _ _ => rfl⟩

/-- Settles O58: besides `UBEGIN` only a match writes `SEQ`. -/
theorem sequenceCounterLaws : Obligations.SequenceCounterLaws := by
  intro i s t h
  obtain ⟨st, data, u, hwrites, rfl⟩ := exec_writes h
  cases hwrites with
  | ubegin _ => exact .inr (.inl ⟨rfl, rfl⟩)
  | prxMatch hw b m q hq =>
    rcases hq with rfl | ⟨hu, hnext⟩
    · exact .inl rfl
    · exact .inr (.inr ⟨⟨b, rfl⟩, hw, rfl, hu, hnext⟩)
  | @coord _ k _ _ => cases k <;> exact .inl rfl
  | _ => exact .inl rfl

/-- Settles O59: the operations that start a wait are refused during one, and only a match and the last tick end it. -/
theorem waitEndsOnlyByMatchOrTimeout : Obligations.WaitEndsOnlyByMatchOrTimeout := by
  intro i s t h hw
  obtain ⟨st, data, u, hwrites, rfl⟩ := exec_writes h
  cases hwrites with
  | prxMatch _ b m q _ => exact .inr (.inl ⟨⟨b, rfl⟩, rfl, rfl⟩)
  | tickLast h1 => exact .inr (.inr ⟨rfl, h1, rfl, rfl⟩)
  | await hne _ _ => exact absurd hw hne
  | ubegin hne => exact absurd hw hne
  | upload _ hne _ _ _ _ _ => exact absurd hw hne
  | @coord _ k _ _ => cases k <;> exact .inl ⟨hw, rfl, rfl, rfl⟩
  | _ => exact .inl ⟨hw, rfl, rfl, rfl⟩

/-! ### Parameters and the two halves -/

/-- No operation writes a parameter (70_reset_and_hazards.md R282). -/
theorem exec_params {i : Instr} {s t : State} (h : exec i s = .next t) : t.params = s.params := by
  obtain ⟨st, data, u, hwrites, rfl⟩ := exec_writes h
  cases hwrites with
  | @coord _ k _ _ => cases k <;> rfl
  | _ => rfl

theorem step_params {s t : State} (h : step s = .next t) : t.params = s.params := by
  obtain ⟨-, rfl⟩ | ⟨rest, -, rfl⟩ | ⟨w, rest, i, -, -, hexec⟩ | ⟨w, rest, e, -, -, rfl⟩ := step_cases s t h
  · rfl
  · rfl
  · have hparams := exec_params hexec
    exact hparams
  · rfl

/-- Settles O60. -/
theorem packetSideIgnoresTheSentenceSide : Obligations.PacketSideIgnoresTheSentenceSide :=
  ⟨fun i s u hi => exec_withSentenceSide u i hi s, fun _ _ h => step_params h⟩

/-! ### The read operations -/

/-- Settles O54: a read operation's answer is a function of what an answer does not write. -/
theorem readOperationsChangeNothing : Obligations.ReadOperationsChangeNothing := by
  intro i s t h hread
  rcases hread with rfl | ⟨a, rfl⟩ | ⟨r, rfl⟩ | ⟨lo, hi, rfl⟩ | ⟨v, rfl⟩ | ⟨a, b, rfl⟩ | rfl | rfl
  · cases h
    exact ⟨_, rfl, rfl⟩
  · obtain ⟨hbound, rfl⟩ | ⟨hbound, rfl⟩ := (execLread_next ..).1 h
    · exact ⟨_, rfl, (execLread_next ..).2 (.inl ⟨hbound, rfl⟩)⟩
    · exact ⟨_, rfl, (execLread_next ..).2 (.inr ⟨hbound, rfl⟩)⟩
  · obtain ⟨hreg, rfl⟩ | ⟨g, hreg, rfl⟩ := (execRdreg_next ..).1 h
    · exact ⟨_, rfl, (execRdreg_next ..).2 (.inl ⟨hreg, rfl⟩)⟩
    · exact ⟨_, rfl, (execRdreg_next ..).2 (.inr ⟨g, hreg, rfl⟩)⟩
  · obtain ⟨hrange, rfl⟩ | ⟨hrange, rfl⟩ := (execXorrng_next ..).1 h
    · exact ⟨_, rfl, (execXorrng_next ..).2 (.inl ⟨hrange, rfl⟩)⟩
    · exact ⟨_, rfl, (execXorrng_next ..).2 (.inr ⟨hrange, rfl⟩)⟩
  · cases h
    exact ⟨_, rfl, rfl⟩
  · obtain ⟨hpair, rfl⟩ | ⟨v, hpair, rfl⟩ := (execHexp_next ..).1 h
    · exact ⟨_, rfl, (execHexp_next ..).2 (.inl ⟨hpair, rfl⟩)⟩
    · exact ⟨_, rfl, (execHexp_next ..).2 (.inr ⟨v, hpair, rfl⟩)⟩
  · cases h
    exact ⟨_, rfl, rfl⟩
  · cases h
    exact ⟨_, rfl, rfl⟩

end Sys2Proof.Machine
end

section
/-!
PROOF. Runs of several operations (70_reset_and_hazards.md R293).
-/
namespace Sys2Proof.Machine

theorem runAll_cons {i : Instr} {is : List Instr} {s r : State} (h : exec i s = .next r) :
    runAll (i :: is) s = runAll is r := by
  rw [runAll, h]

theorem runAll_append {is js : List Instr} {s r : State} (h : runAll is s = .next r) : runAll (is ++ js) s = runAll js r := by
  induction is generalizing s with
  | nil =>
    cases h
    rfl
  | cons i is ih =>
    rw [runAll] at h
    rw [List.cons_append, runAll]
    split at h
    · exact ih h
    · cases h
    · cases h

theorem runAll_singleton (i : Instr) (s : State) : runAll [i] s = exec i s := by
  rw [runAll]
  split
  · next h => exact h.symm
  · next h => exact h.symm
  · next h => exact h.symm

end Sys2Proof.Machine
end

section
/-!
PROOF. The line assembler (41_line_assembler.md R130, R131, R135): one fed byte, the terminator, and by induction on the bytes a whole line.
-/
namespace Sys2Proof.Machine

/-! ### One byte -/

theorem grownCursor_eq (s : State) (c : Nat) : grownCursor s c = min (c + 1) (s.params.maxLine.val - 1) := rfl

theorem toNat_ofNat_grownCursor (s : State) (c : Nat) : (BitVec.ofNat 8 (grownCursor s c)).toNat = grownCursor s c := by
  have := s.params.maxLine.isLt
  rw [BitVec.toNat_ofNat, Nat.mod_eq_of_lt]
  rw [grownCursor_eq]
  omega

/-- A one-byte store to the active buffer, read back anywhere. -/
theorem State.store_active_byteAt {s : State} (hwf : (s.mem (.line s.act)).wf = true) (c : Nat) (b : Byte) (S : Space) (a : Nat) :
    (s.store (.line s.act) c [b]).byteAt S a = if S = .line s.act ∧ a = c then b else s.byteAt S a := by
  rw [State.store_byteAt _ _ _ _ _ _ hwf]
  by_cases h : S = .line s.act ∧ a = c
  · obtain ⟨rfl, rfl⟩ := h
    simp
  · rw [if_neg h, if_neg]
    rintro ⟨hS, h1, h2⟩
    simp only [List.length_singleton] at h2
    exact h ⟨hS, by omega⟩

/-- Settles O10. -/
theorem feedStoresDataByte : Obligations.FeedStoresDataByte := by
  intro s b c hinv hb hc
  have hcur : feedCursor s b = c := hc.symm
  have hbyte := State.store_active_byteAt (hinv.mem_wf (.line s.act)) c b
  refine ⟨_, (execFeed_next b s _).2 ⟨feedCursor_lt hinv b, .inl ⟨hb, rfl⟩⟩, ?frame, ?cursor, ?stored, ?others⟩
  all_goals rw [hcur]
  case frame =>
    ext1
    all_goals simp [Status.code]
  case cursor => exact toNat_ofNat_grownCursor s c
  case stored =>
    rw [State.answer_byteAt, State.setCur_byteAt, hbyte, if_pos ⟨rfl, rfl⟩]
  case others =>
    intro S a hne
    rw [State.answer_byteAt, State.setCur_byteAt, hbyte, if_neg]
    rintro ⟨hS, ha⟩
    exact hne.elim (fun h => h hS) (fun h => h ha)

theorem feedCursor_term (s : State) : feedCursor s 0x0A#8 = s.cur.toNat := by
  exact if_neg fun h => absurd h.2 (by decide)

/-- Settles O11: the NUL is stored after the terminator, and over it when the buffer is full. -/
theorem feedTerminatorCompletesTheLine : Obligations.FeedTerminatorCompletesTheLine := by
  rintro s c' hinv hc'
  have hwf := hinv.mem_wf (.line s.act)
  have hgrown : grownCursor s s.cur.toNat = c' := hc'.symm
  have hterm (S : Space) (a : Nat) :
      ((s.store (.line s.act) s.cur.toNat [0x0A#8]).store (.line s.act) c' [0x00#8]).byteAt S a =
        if S = .line s.act ∧ a = c' then 0x00#8
        else if S = .line s.act ∧ a = s.cur.toNat then 0x0A#8 else s.byteAt S a := by
    have hfirst := State.store_active_byteAt hwf s.cur.toNat 0x0A#8 S a
    have hsecond := State.store_active_byteAt (s := s.store (.line s.act) s.cur.toNat [0x0A#8])
      (by simpa using Memory.wf_writeBytes _ _ _ hwf) c' 0x00#8 S a
    rw [State.store_act] at hsecond
    rw [hsecond, hfirst]
  have hlt := feedCursor_lt hinv 0x0A#8
  refine ⟨_, (execFeed_next _ s _).2 ⟨hlt, .inr ⟨rfl, grownCursor_lt s hinv _, rfl⟩⟩, ?frame, ?nul, ?stored, ?others⟩
  all_goals rw [feedCursor_term, hgrown]
  case frame =>
    ext1
    all_goals simp [Status.code]
  case nul => rw [State.answer_byteAt, State.completeLine_byteAt, hterm, if_pos ⟨rfl, rfl⟩]
  case stored =>
    intro hne
    rw [State.answer_byteAt, State.completeLine_byteAt, hterm, if_neg (fun h => hne h.2), if_pos ⟨rfl, rfl⟩]
  case others =>
    intro S a hne
    rw [State.answer_byteAt, State.completeLine_byteAt, hterm, if_neg, if_neg]
    · rintro ⟨hS, ha⟩
      exact hne.elim (fun h => h hS) (fun h => h.1 ha)
    · rintro ⟨hS, ha⟩
      exact hne.elim (fun h => h hS) (fun h => h.2 ha)

/-! ### A whole line -/

/-- How many bytes of a text `p` the buffer holds before its NUL (R131). -/
def State.kept (s : State) (p : List Byte) : Nat := min p.length (s.params.maxLine.val - 1)

/-- `r` is `s` after the bytes `p` were fed from a cursor at 0. -/
structure State.Assembling (s : State) (p : List Byte) (r : State) : Prop where
  inv : r.Inv
  params : r.params = s.params
  act : r.act = s.act
  cur : r.cur.toNat = s.kept p
  bytes : ∀ a < s.kept p, r.byteAt (.line s.act) a = p.getD a 0#8
  other : ∀ a, r.byteAt (.line (!s.act)) a = s.byteAt (.line (!s.act)) a

theorem State.assembling_nil {s : State} (h : s.Inv) (hcur : s.cur = 0) : s.Assembling [] s where
  inv := h
  params := rfl
  act := rfl
  cur := by simp [State.kept, hcur]
  bytes := fun a ha => by simp [State.kept] at ha
  other := fun _ => rfl

theorem line_ne_line_not (k : Bool) : Space.line (!k) ≠ Space.line k := by
  cases k <;> simp

/-- One more byte that does not restart the line. -/
theorem State.Assembling.feed {s r : State} {p : List Byte} (h : s.Assembling p r) (b : Byte) (hb : b ≠ 0x0A#8)
    (hcursor : feedCursor r b = r.cur.toNat) : ∃ t, exec (.feed b) r = .next t ∧ s.Assembling (p ++ [b]) t := by
  obtain ⟨t, ht, hframe, hcur, hstored, hothers⟩ := feedStoresDataByte r b r.cur.toNat h.inv hb hcursor.symm
  refine ⟨t, ht, exec_inv h.inv _ ht, (exec_params ht).trans h.params, ?act, ?cur, ?bytes, ?other⟩
  case act =>
    rw [hframe]
    exact h.act
  case cur =>
    rw [hcur, h.cur, h.params, State.kept, State.kept, List.length_append, List.length_singleton]
    omega
  case bytes =>
    intro a ha
    have hlen : a < p.length + 1 := by
      have := Nat.lt_of_lt_of_le ha (Nat.min_le_left _ _)
      simpa using this
    by_cases hnew : a = r.cur.toNat
    · have hend : a = p.length := by
        rw [h.cur, State.kept] at hnew
        rw [State.kept, List.length_append, List.length_singleton] at ha
        omega
      rw [← h.act, hnew, hstored, ← hnew, hend]
      simp
    · have hold : a < s.kept p := by
        rw [h.cur, State.kept] at hnew
        rw [State.kept, List.length_append, List.length_singleton] at ha
        rw [State.kept]
        omega
      have hin : a < p.length := Nat.lt_of_lt_of_le hold (Nat.min_le_left _ _)
      rw [hothers _ _ (.inr hnew), h.bytes a hold, List.getD_append _ _ _ _ hin]
  case other =>
    intro a
    rw [hothers _ _ (.inl (by rw [h.act]; exact line_ne_line_not _))]
    exact h.other a

/-- A byte that is no `$`, or that comes first, is stored at the cursor under both policies (R135). -/
theorem feedCursor_eq_cur (r : State) (b : Byte)
    (h : r.params.dollarPolicy = .keep ∨ b ≠ 0x24#8 ∨ r.cur.toNat = 0) : feedCursor r b = r.cur.toNat := by
  unfold feedCursor
  split
  · next hreset =>
    rcases h with hkeep | hb | hcur
    · rw [hkeep] at hreset
      exact absurd hreset.1 (by decide)
    · exact absurd hreset.2 hb
    · exact hcur.symm
  · rfl

/-- All the bytes of a line. -/
theorem State.Assembling.feeds {s : State} (bs : List Byte) : ∀ {p : List Byte} {r : State}, s.Assembling p r →
    (∀ b ∈ bs, b ≠ 0x0A#8) → (s.params.dollarPolicy = .keep ∨ ∀ b ∈ (p ++ bs).tail, b ≠ 0x24#8) →
    ∃ t, runAll (bs.map .feed) r = .next t ∧ s.Assembling (p ++ bs) t := by
  induction bs with
  | nil =>
    intro p r h _ _
    exact ⟨r, rfl, by simpa using h⟩
  | cons b bs ih =>
    intro p r h hbs hpolicy
    have hcursor : feedCursor r b = r.cur.toNat := by
      apply feedCursor_eq_cur
      rw [h.params]
      refine hpolicy.imp id fun hdollar => ?_
      cases p with
      | nil => exact .inr (by rw [h.cur]; simp [State.kept])
      | cons c p => exact .inl (hdollar b (by simp))
    obtain ⟨r', hr', hstep⟩ := h.feed b (hbs b (by simp)) hcursor
    obtain ⟨t, ht, hdone⟩ := ih hstep (fun c hc => hbs c (by simp [hc])) (by simpa using hpolicy)
    refine ⟨t, ?_, by simpa using hdone⟩
    rw [List.map_cons, runAll_cons hr', ht]

/-- A buffer that holds a text without NUL and a NUL after it holds that line (00_scope.md R12). -/
theorem State.line_eq (s : State) (k : Bool) (X : List Byte) (hbytes : ∀ a < X.length, s.byteAt (.line k) a = X.getD a 0#8)
    (hnul : s.byteAt (.line k) X.length = 0#8) (hX : ∀ b ∈ X, b ≠ 0#8) (hlen : X.length < s.params.maxLine.val) :
    s.line k = X := by
  have htext : s.bytesAt (.line k) 0 X.length = X := by
    refine List.ext_getElem (by simp) fun a h1 h2 => ?_
    have hget : (s.bytesAt (.line k) 0 X.length)[a] = s.byteAt (.line k) (0 + a) := Memory.getElem_readBytes _ _ _ _ _
    rw [hget, Nat.zero_add, hbytes a h2]
    simp [List.getD_eq_getElem?_getD, h2]
  obtain ⟨n, hn⟩ : ∃ n, s.params.maxLine.val = X.length + (1 + n) := ⟨s.params.maxLine.val - X.length - 1, by omega⟩
  rw [State.line, hn, State.bytesAt_append, htext, State.bytesAt_append]
  refine takeWhile_append_stop _ _ _ (fun b hb => by simpa using hX b hb) fun b hb => ?_
  have hone : s.bytesAt (.line k) (0 + X.length) 1 = [0#8] := by
    rw [Nat.zero_add]
    exact congrArg (fun c => [c]) hnul
  rw [hone] at hb
  obtain rfl : 0#8 = b := by simpa using hb
  rfl

/-- Settles O12: the bytes are assembled one by one, and the terminator's step completes the text that was kept. -/
theorem feedsAssembleTheLine : Obligations.FeedsAssembleTheLine := by
  intro s bs hinv hcur hbs hpolicy
  have hmax := hinv.two_le_maxLine
  obtain ⟨r, hr, hasm⟩ := (State.assembling_nil hinv hcur).feeds bs (fun b hb => (hbs b hb).1) hpolicy
  rw [List.nil_append] at hasm
  obtain ⟨t, ht, hframe, hnul, hterm, hothers⟩ := feedTerminatorCompletesTheLine r _ hasm.inv rfl
  have hrun : runAll (Pseudo.feeds (bs ++ [0x0A#8])).expand s = .next t := by
    rw [Pseudo.expand, List.map_append, runAll_append hr]
    exact (runAll_singleton _ r).trans ht
  have hact : t.act = !s.act := by rw [hframe, ← hasm.act]
  have hparams : t.params = s.params := (exec_params ht).trans hasm.params
  refine ⟨t, hrun, ?line, hact, ?cur, ?new, ?other⟩
  case cur => rw [hframe]
  case new => rw [hframe]
  case other =>
    intro a
    rw [hothers _ _ (.inl (by rw [hasm.act]; exact line_ne_line_not _))]
    exact hasm.other a
  case line =>
    rw [hasm.act] at hnul hterm hothers
    rw [hasm.params] at hnul hterm hothers
    rw [State.stableLine, hact, Bool.not_not]
    have hbytes := hasm.bytes
    rw [hasm.cur] at hnul hterm hothers
    split
    case isTrue hfits =>
      have hkept : s.kept bs = bs.length := by
        rw [State.kept]
        omega
      rw [hkept] at hnul hterm hothers hbytes
      have hnext : min (bs.length + 1) (s.params.maxLine.val - 1) = bs.length + 1 := by omega
      rw [hnext] at hnul hterm hothers
      refine State.line_eq t s.act _ (fun a ha => ?_) (by simpa using hnul) (fun b hb => ?_) (by simp [hparams]; omega)
      · rw [List.length_append, List.length_singleton] at ha
        by_cases hend : a = bs.length
        · rw [hend, hterm (by omega)]
          simp
        · have hin : a < bs.length := by omega
          rw [hothers _ _ (.inr ⟨hend, by omega⟩), hbytes a hin, List.getD_append _ _ _ _ hin]
      · rcases List.mem_append.1 hb with hb | hb
        · exact (hbs b hb).2
        · rw [List.mem_singleton.1 hb]
          decide
    case isFalse hlong =>
      have hkept : s.kept bs = s.params.maxLine.val - 1 := by
        rw [State.kept]
        omega
      rw [hkept] at hnul hterm hothers hbytes
      have hfull : min (s.params.maxLine.val - 1 + 1) (s.params.maxLine.val - 1) = s.params.maxLine.val - 1 := by omega
      rw [hfull] at hnul hothers
      have hlen : (bs.take (s.params.maxLine.val - 1)).length = s.params.maxLine.val - 1 := by
        rw [List.length_take]
        omega
      refine State.line_eq t s.act _ (fun a ha => ?_) (by rw [hlen]; exact hnul)
        (fun b hb => (hbs b (List.mem_of_mem_take hb)).2) (by rw [hlen, hparams]; omega)
      rw [hlen] at ha
      rw [hothers _ _ (.inr ⟨by omega, by omega⟩), hbytes a ha]
      simp [List.getD_eq_getElem?_getD, ha]

end Sys2Proof.Machine
end

section
/-!
PROOF. The checksum engine (40_checksum.md R111, R113 to R115): `XORRNG`, `HEXP`, `TXFRAME`.
-/
namespace Sys2Proof.Machine

/-! ### `XORRNG` -/

theorem xorBytes_bytesAt (s : State) (S : Space) (a n : Nat) :
    xorBytes (s.bytesAt S a n) = (List.range' a n).foldl (fun v i => v ^^^ s.byteAt S i) 0x00#8 := by
  rw [xorBytes, State.bytesAt, Memory.readBytes, List.foldl_map]
  rfl

/-- Settles O16: the two clauses are the guard and its negation. -/
theorem xorrngAnswersTheRangeXor : Obligations.XorrngAnswersTheRangeXor := by
  intro s lo hi
  refine ⟨fun hrange => ?_, fun hrange => (execXorrng_next lo hi s _).2 (.inr ⟨by omega, rfl⟩)⟩
  refine (execXorrng_next lo hi s _).2 (.inl ⟨hrange, ?_⟩)
  rw [xorBytes_bytesAt]
  rfl

/-! ### `HEXP` -/

theorem exec_hexp_some {c1 c2 v : Byte} (h : hexPair c1 c2 = some v) (s : State) :
    exec (.hexp c1 c2) s = .next (s.answer .ok [v]) :=
  (execHexp_next c1 c2 s _).2 (.inr ⟨v, h, rfl⟩)

theorem exec_hexp_none {c1 c2 : Byte} (h : hexPair c1 c2 = none) (s : State) :
    exec (.hexp c1 c2) s = .next (s.answer .badHex []) :=
  (execHexp_next c1 c2 s _).2 (.inl ⟨h, rfl⟩)

/-- The value of the alphabet's character at a position is that position. -/
theorem hexval_of_alphabet {c : Byte} (d : Fin 16)
    (h : "0123456789ABCDEF".toList[d.val]?.map (fun c => BitVec.ofNat 8 c.toNat) = some c) : hexval c = some d.val := by
  rw [alphabet_getElem?_eq_hexdigit _ d.isLt] at h
  rw [← Option.some.inj h]
  exact hexval_hexdigit _ d.isLt

/-- A byte with a value is the digit of that value. -/
theorem hexdigit_of_hexval {c : Byte} {d : Nat} (h : hexval c = some d) : hexdigit d = c := by
  unfold hexval at h
  unfold hexdigit
  apply BitVec.eq_of_toNat_eq
  split at h
  · obtain rfl := Option.some.inj h
    rw [if_pos (by omega), BitVec.toNat_ofNat]
    omega
  · split at h
    · obtain rfl := Option.some.inj h
      rw [if_neg (by omega), BitVec.toNat_ofNat]
      omega
    · cases h

/-- A byte outside the alphabet has no value. -/
theorem hexval_eq_none {c : Byte} (h : c ∉ "0123456789ABCDEF".toList.map (fun c => BitVec.ofNat 8 c.toNat)) :
    hexval c = none := by
  rw [Option.eq_none_iff_forall_ne_some]
  intro d hd
  have hget := alphabet_getElem?_eq_hexdigit d (hexval_lt c d hd)
  rw [hexdigit_of_hexval hd, ← List.getElem?_map] at hget
  exact h (List.mem_of_getElem? hget)

theorem hexPair_of_hexval {c1 c2 : Byte} {a b : Nat} (h1 : hexval c1 = some a) (h2 : hexval c2 = some b) :
    hexPair c1 c2 = some (BitVec.ofNat 8 (16 * a + b)) := by
  rw [hexPair, h1, h2]

theorem hexPair_of_hexval_none {c1 c2 : Byte} (h : hexval c1 = none ∨ hexval c2 = none) : hexPair c1 c2 = none := by
  unfold hexPair
  rcases h with h | h
  · rw [h]
  · cases hexval c1 <;> rw [h]

/-- Settles O18. -/
theorem hexpParsesUppercaseDigits : Obligations.HexpParsesUppercaseDigits := by
  intro s c1 c2
  refine ⟨fun h l h1 h2 => ?digits, fun hbad => ?other⟩
  case digits => exact exec_hexp_some (hexPair_of_hexval (hexval_of_alphabet h h1) (hexval_of_alphabet l h2)) s
  case other => exact exec_hexp_none (hexPair_of_hexval_none (hbad.imp hexval_eq_none hexval_eq_none)) s

/-- Settles O19: the two bytes that `HEXR` answered are the digits of the nibbles. -/
theorem hexpOfHexrGivesTheByteBack : Obligations.HexpOfHexrGivesTheByteBack := by
  intro s t v h l hhexr
  rw [exec_hexr, Host.Outcome.next.injEq] at hhexr
  have hresp := congrArg State.responses hhexr
  simp only [State.answer_responses, List.append_cancel_left_eq, List.cons.injEq, and_true] at hresp
  obtain ⟨-, rfl, rfl⟩ := hresp
  exact exec_hexp_some (hexPair_hexDigits v) t

/-! ### `TXFRAME` -/

/-- Settles O20: the framed text ends in the two digits of the XOR of what follows its first byte. -/
theorem txframeFramesTheText : Obligations.TxframeFramesTheText := by
  intro s first rest
  refine ⟨⟨hexdigit ((xorBytes rest).toNat / 16), hexdigit ((xorBytes rest).toNat % 16), ?_, hexPair_hexDigits _⟩,
    (execTxframe_next [] s _).2 (.inl ⟨rfl, rfl⟩)⟩
  refine (execTxframe_next _ s _).2 (.inr ⟨List.cons_ne_nil _ _, ?_⟩)
  rw [State.emit, framedText]
  simp [State.answer, hexDigits, Status.code]

end Sys2Proof.Machine
end

section
/-!
PROOF. The validator (42_validator.md R150 to R158): `VALID` by the steps that a line passes.
-/
namespace Sys2Proof.Machine

/-! ### The validation, step by step -/

section Steps

variable (p : Config.Params) (L : List Byte)

theorem validate_of_not_hasSentinel (h : hasSentinel L = false) : validate p L = (.badSentinel, []) := by
  simp [validate, h]

theorem validate_of_no_marker (hs : hasSentinel L = true) (hm : lastMarker L = none) : validate p L = (.noMarker, []) := by
  simp [validate, hs, hm]

theorem validate_of_no_digits {m : Nat} (hs : hasSentinel L = true) (hm : lastMarker L = some m)
    (he : expectedChecksum L m = none) : validate p L = (.badHex, []) := by
  simp [validate, hs, hm, he]

theorem validate_of_bad_checksum {m : Nat} {e : Byte} (hs : hasSentinel L = true) (hm : lastMarker L = some m)
    (he : expectedChecksum L m = some e) (hx : xorBytes (slice L 1 m) ≠ e) : validate p L = (.badChecksum, []) := by
  simp [validate, hs, hm, he, hx]

theorem validate_of_no_source {m : Nat} {e : Byte} (hs : hasSentinel L = true) (hm : lastMarker L = some m)
    (he : expectedChecksum L m = some e) (hx : xorBytes (slice L 1 m) = e)
    (hsrc : longestMatch p.srcList (slice L 1 m) = none) : validate p L = (.badSource, []) := by
  simp [validate, hs, hm, he, hx, hsrc]

theorem validate_of_source {m : Nat} {e : Byte} {js len : Nat} (hs : hasSentinel L = true) (hm : lastMarker L = some m)
    (he : expectedChecksum L m = some e) (hx : xorBytes (slice L 1 m) = e)
    (hsrc : longestMatch p.srcList (slice L 1 m) = some (js, len)) : validate p L = classify p L m (1 + len) js := by
  simp [validate, hs, hm, he, hx, hsrc]

end Steps

/-- `VALID` with the validation's result. -/
theorem exec_valid_of_validate {s : State} {st : Status} {data : List Byte}
    (h : validate s.params s.stableLine = (st, data)) : exec .valid s = .next (s.answer st data) := by
  rw [exec_valid, h]

/-! ### The first defect -/

theorem expectedChecksum_eq_none (L : List Byte) (m : Nat) (h : ¬∃ e, HasChecksumDigits L m e) :
    expectedChecksum L m = none := by
  rw [Option.eq_none_iff_forall_ne_some]
  exact fun e he => h ⟨e, (expectedChecksum_eq_some L m e).1 he⟩

/-- Settles O22: each clause is the step of its name, reached when the steps before it pass. -/
theorem validReportsTheFirstDefect : Obligations.ValidReportsTheFirstDefect := by
  intro s
  refine ⟨fun hno => ?sentinel, fun hsent => ⟨fun hno => ?marker, fun m hlast => ?_⟩⟩
  case sentinel =>
    have hs : hasSentinel s.stableLine = false := by
      rw [← Bool.not_eq_true, hasSentinel_eq]
      exact fun h => h.elim hno.1 hno.2
    exact exec_valid_of_validate (validate_of_not_hasSentinel _ _ hs)
  all_goals have hs := (hasSentinel_eq _).2 hsent
  case marker => exact exec_valid_of_validate (validate_of_no_marker _ _ hs ((lastMarker_eq_none _).2 hno))
  have hm := (lastMarker_eq_some _ _).2 hlast
  refine ⟨fun hno => ?digits, fun e hdig => ⟨fun hx => ?checksum, fun hx hno => ?source⟩⟩
  case digits => exact exec_valid_of_validate (validate_of_no_digits _ _ hs hm (expectedChecksum_eq_none _ _ hno))
  all_goals have he := (expectedChecksum_eq_some _ _ _).2 hdig
  case checksum => exact exec_valid_of_validate (validate_of_bad_checksum _ _ hs hm he hx)
  case source =>
    exact exec_valid_of_validate (validate_of_no_source _ _ hs hm he hx ((longestMatch_eq_none _ _).2 hno))

/-! ### The classification -/

/-- A token stands once in a list (00_scope.md R9). -/
theorem index_unique {list : List (List Byte)} (hn : list.Nodup) {i j : Nat} {T : List Byte} (hi : list[i]? = some T)
    (hj : list[j]? = some T) : i = j := by
  have h1 := (indexIn_eq_some T list i hn).2 hi
  have h2 := (indexIn_eq_some T list j hn).2 hj
  exact Option.some.inj (h1.symm.trans h2)

theorem Config.Params.wf_nodup {p : Config.Params} (h : p.wf = true) :
    p.srcList.Nodup ∧ p.parseList.Nodup ∧ p.knownList.Nodup := by
  simp only [Config.Params.wf, Bool.and_eq_true, decide_eq_true_eq] at h
  obtain ⟨⟨⟨⟨⟨-, hsrc⟩, hparse⟩, hknown⟩, -⟩, -⟩ := h
  exact ⟨hsrc, hparse, hknown⟩

/-- Step (e) finds the longest source and its index. -/
theorem longestMatch_eq_some {list : List (List Byte)} (hn : list.Nodup) {text src : List Byte} {js : Nat}
    (hsrc : IsLongestSource list text src) (hjs : list[js]? = some src) : longestMatch list text = some (js, src.length) := by
  cases hm : longestMatch list text with
  | none => exact absurd hsrc.2.1 ((longestMatch_eq_none list text).1 hm src hsrc.1)
  | some e =>
    obtain ⟨j, len⟩ := e
    obtain ⟨src', hj, hlen, hsrc'⟩ := longestMatch_spec list text j len hm
    obtain rfl := isLongestSource_unique list text src src' hsrc hsrc'
    rw [index_unique hn hjs hj, hlen]

section Classify

variable (p : Config.Params) (L : List Byte) {m t : Nat} (js : Nat)

theorem classify_of_short (h : m < t + 3) : classify p L m t js = (.badType, []) := by
  rw [classify, if_pos h]

theorem classify_of_parse (h : t + 3 ≤ m) {jp : Nat} (hp : indexIn (slice L t (t + 3)) p.parseList = some jp) :
    classify p L m t js = (.ok, [indexByte js, indexByte jp]) := by
  simp [classify, Nat.not_lt.2 h, hp]

theorem classify_of_known (h : t + 3 ≤ m) {jk : Nat} (hp : indexIn (slice L t (t + 3)) p.parseList = none)
    (hk : indexIn (slice L t (t + 3)) p.knownList = some jk) :
    classify p L m t js = (.knownUnparsed, [indexByte js, indexByte jk]) := by
  simp [classify, Nat.not_lt.2 h, hp, hk]

theorem classify_of_neither (hp : indexIn (slice L t (t + 3)) p.parseList = none)
    (hk : indexIn (slice L t (t + 3)) p.knownList = none) : classify p L m t js = (.badType, []) := by
  unfold classify
  split
  · rfl
  · simp [hp, hk]

end Classify

/-- Settles O21: the line passes steps (a) to (e) by hypothesis, and step (f) looks the type up in the two lists in order. -/
theorem validClassifiesByLongestSource : Obligations.ValidClassifiesByLongestSource := by
  rintro s m js e src typ hwf hsent hlast hdig hx hsrc hjs rfl
  obtain ⟨hnsrc, hnparse, hnknown⟩ := Config.Params.wf_nodup hwf
  have hvalid := validate_of_source s.params s.stableLine ((hasSentinel_eq _).2 hsent) ((lastMarker_eq_some _ _).2 hlast)
    ((expectedChecksum_eq_some _ _ _).2 hdig) hx (longestMatch_eq_some hnsrc hsrc hjs)
  refine ⟨fun hlen => ⟨fun jp hp => ?parse, fun jk hno hk => ?known, fun hno hno' => ?neither⟩, fun hlen => ?short,
    fun j hj => if_pos hj⟩
  case parse =>
    exact exec_valid_of_validate (hvalid.trans (classify_of_parse _ _ _ hlen ((indexIn_eq_some _ _ _ hnparse).2 hp)))
  case known =>
    exact exec_valid_of_validate (hvalid.trans
      (classify_of_known _ _ _ hlen ((indexIn_eq_none _ _).2 hno) ((indexIn_eq_some _ _ _ hnknown).2 hk)))
  case neither =>
    exact exec_valid_of_validate (hvalid.trans
      (classify_of_neither _ _ _ ((indexIn_eq_none _ _).2 hno) ((indexIn_eq_none _ _).2 hno')))
  case short => exact exec_valid_of_validate (hvalid.trans (classify_of_short _ _ _ hlen))

/-! ### One changed byte -/

/-- A line that validates passed the steps (a) to (d). -/
theorem validate_ok {p : Config.Params} {L : List Byte} {m : Nat} (h : (validate p L).1 = .ok) (hm : lastMarker L = some m) :
    hasSentinel L = true ∧ ∃ e, expectedChecksum L m = some e ∧ xorBytes (slice L 1 m) = e := by
  have hs : hasSentinel L = true := by
    by_contra hno
    rw [validate_of_not_hasSentinel p L (by simpa using hno)] at h
    cases h
  cases he : expectedChecksum L m with
  | none =>
    rw [validate_of_no_digits p L hs hm he] at h
    cases h
  | some e =>
    refine ⟨hs, e, rfl, ?_⟩
    by_contra hx
    rw [validate_of_bad_checksum p L hs hm he hx] at h
    cases h

/-- A changed byte before the last marker that is not one of the sentinels' places. -/
theorem hasSentinel_set {L : List Byte} {i : Nat} {b : Byte} (hi : 1 ≤ i) : hasSentinel (L.set i b) = hasSentinel L := by
  obtain ⟨i, rfl⟩ : ∃ k, i = k + 1 := ⟨i - 1, by omega⟩
  cases L <;> rfl

theorem isLastMarker_set {L : List Byte} {m i : Nat} {b : Byte} (h : IsLastMarker L m) (hi : i < m) :
    IsLastMarker (L.set i b) m := by
  refine ⟨by rw [List.getElem?_set_ne (by omega)]; exact h.1, fun j hj => ?_⟩
  rw [List.getElem?_set_ne (by omega)]
  exact h.2 j hj

theorem expectedChecksum_set {L : List Byte} {m i : Nat} {b : Byte} (hi : i < m) :
    expectedChecksum (L.set i b) m = expectedChecksum L m := by
  simp only [expectedChecksum, List.length_set, List.getD_eq_getElem?_getD]
  rw [List.getElem?_set_ne (by omega), List.getElem?_set_ne (by omega)]

theorem slice_set {L : List Byte} {m i : Nat} {b : Byte} (h1 : 1 ≤ i) (hi : i < m) :
    slice (L.set i b) 1 m = (slice L 1 m).set (i - 1) b := by
  obtain ⟨i, rfl⟩ : ∃ k, i = k + 1 := ⟨i - 1, by omega⟩
  rw [slice, slice, List.take_set]
  cases L.take m <;> rfl

/-- Settles O23: the marker and the digits stay where they are, and one changed byte changes the XOR of the span. -/
theorem oneFlippedByteFailsTheChecksum : Obligations.OneFlippedByteFailsTheChecksum := by
  intro s s' m i b data hvalid hlast h1 him hb _ hline
  have hm := (lastMarker_eq_some _ _).2 hlast
  have hok : (validate s.params s.stableLine).1 = .ok := by
    rw [exec_valid, Host.Outcome.next.injEq] at hvalid
    have hresp := congrArg State.responses hvalid
    simp only [State.answer_responses, List.append_cancel_left_eq, List.cons.injEq, and_true] at hresp
    exact Status.code_injective _ .ok hresp.1
  obtain ⟨hs, e, he, hx⟩ := validate_ok hok hm
  have hmlen : m < s.stableLine.length := (List.getElem?_eq_some_iff.1 hlast.1).1
  have hchanged : xorBytes (slice (s.stableLine.set i b) 1 m) ≠ e := by
    have hlen : i - 1 < (slice s.stableLine 1 m).length := by
      simp [slice]
      omega
    rw [slice_set h1 him, ← hx]
    refine xorBytes_set_ne _ _ _ hlen fun hsame => hb ?_
    rw [List.getElem?_eq_getElem (by omega), ← hsame]
    simp [slice]
    congr 1
    omega
  have hval : validate s'.params s'.stableLine = (.badChecksum, []) := by
    rw [hline]
    exact validate_of_bad_checksum _ _ ((hasSentinel_set h1).trans hs)
      ((lastMarker_eq_some _ _).2 (isLastMarker_set hlast him)) ((expectedChecksum_set him).trans he) hchanged
  exact exec_valid_of_validate hval

end Sys2Proof.Machine
end

section
/-!
PROOF. Packets and waits (44_packet.md R200 to R203, R208): `PSEND`, `AWAIT`, `TICK`.
-/
namespace Sys2Proof.Machine

/-! ### `PSEND` -/

/-- The covered bytes of a packet begin with the length and the command. -/
theorem xorBytes_packetBody (cmd : Half) (payload : List Byte) :
    xorBytes (packetBody cmd payload) =
      payload.foldl (fun v b => v ^^^ b)
        (lo8 (BitVec.ofNat 16 (9 + payload.length)) ^^^ hi8 (BitVec.ofNat 16 (9 + payload.length)) ^^^ lo8 cmd ^^^ hi8 cmd) := by
  simp [packetBody, xorBytes]

/-- A length of two bytes, split and joined. -/
theorem lo8_add_hi8 (v : Half) : (lo8 v).toNat + 256 * (hi8 v).toNat = v.toNat := by
  rw [← u16_toNat, u16_lo8_hi8]

theorem toNat_ofNat_half {n : Nat} (h : n ≤ 65535) : (BitVec.ofNat 16 n).toNat = n :=
  Nat.mod_eq_of_lt (Nat.lt_succ_of_le h)

/-- Settles O32: the packet's two halves of length and command, and its checksum, are the five bytes asked for. -/
theorem psendSendsOnePacket : Obligations.PsendSendsOnePacket := by
  rintro s cmd payload _ rfl
  refine ⟨fun hlen => ?_, fun hlen => (execPsend_next cmd payload s _).2 (.inl ⟨by omega, rfl⟩)⟩
  refine ⟨lo8 (BitVec.ofNat 16 (9 + payload.length)), hi8 (BitVec.ofNat 16 (9 + payload.length)), lo8 cmd, hi8 cmd,
    xorBytes (packetBody cmd payload), (execPsend_next cmd payload s _).2 (.inr ⟨by omega, ?_⟩), ?_, lo8_add_hi8 cmd,
    xorBytes_packetBody cmd payload⟩
  · rw [packet]
    simp [State.emit, State.answer, packetBody, Status.code]
  · rw [lo8_add_hi8, toNat_ofNat_half hlen]

/-! ### `AWAIT` -/

/-- Settles O33: the guards in their order, and what starting the wait writes. -/
theorem awaitStartsTheWait : Obligations.AwaitStartsTheWait := by
  intro s budget expected
  refine ⟨fun hw => ?busy, fun hw hbad => ?operand, fun hw hbudget h1 h191 hwf => ?start⟩
  case busy => exact (execAwait_next budget expected s _).2 (.inl ⟨hw, rfl⟩)
  case operand => exact (execAwait_next budget expected s _).2 (.inr (.inl ⟨hw, hbad, rfl⟩))
  case start =>
    have hne : expected.length ≠ 0 := by omega
    refine ⟨_, (execAwait_next budget expected s _).2 (.inr (.inr ⟨hw, hbudget, hne, h191, rfl⟩)), rfl, ?_, fun a ha => ?_⟩
    · rw [State.answer_bytesAt, State.waitingFor_bytesAt]
      exact State.store_bytesAt_same .exp 0 expected s hwf
    · rw [State.answer_byteAt, State.waitingFor_byteAt, State.store_byteAt .exp .exp 0 a expected s hwf, if_neg]
      rintro ⟨-, -, hlt⟩
      omega

/-! ### `TICK` -/

/-- Settles O41. -/
theorem tickCountsTheBudgetDown : Obligations.TickCountsTheBudgetDown := by
  intro s
  refine ⟨fun hw => (execTick_next s _).2 (.inl ⟨hw, rfl⟩), fun hw h2 => ?more, fun hw h1 => ?last⟩
  case more =>
    have hne0 : s.tmo ≠ 0#16 := by bv_omega
    have hne1 : s.tmo ≠ 1#16 := by bv_omega
    refine ⟨_, (execTick_next s _).2 (.inr (.inr ⟨hw, hne0, hne1, rfl⟩)), rfl, ?_⟩
    show (s.tmo - 1#16).toNat = _
    bv_omega
  case last =>
    have hone : s.tmo = 1#16 := by bv_omega
    exact (execTick_next s _).2 (.inr (.inl ⟨hw, hone, rfl⟩))

/-- Settles O42, by induction on the ticks left: the last one ends the wait, each other one leaves a wait with one tick less. -/
theorem waitTimesOutAtItsBudget : Obligations.WaitTimesOutAtItsBudget := by
  intro s n hw htmo h1
  obtain ⟨k, rfl⟩ : ∃ k, n = k + 1 := ⟨n - 1, by omega⟩
  clear h1
  induction k generalizing s with
  | zero =>
    obtain ⟨-, -, hlast⟩ := tickCountsTheBudgetDown s
    show runAll [.tick] s = _
    rw [runAll_singleton, hlast hw htmo]
    simp
  | succ k ih =>
    obtain ⟨-, hmore, -⟩ := tickCountsTheBudgetDown s
    obtain ⟨t, ht, hframe, hleft⟩ := hmore hw (by omega)
    have hrest := ih t (by rw [hframe]; exact hw) (by omega)
    rw [Pseudo.expand] at hrest ⊢
    rw [List.replicate_succ, runAll_cons ht, hrest, hframe]
    simp [List.replicate_succ]

end Sys2Proof.Machine
end

section
/-!
PROOF. What a packet is (44_packet.md R201, 30_encoding.md R86), by the bytes at their places.
-/
namespace Sys2Proof.Machine

theorem length_packetBody (cmd : Half) (payload : List Byte) : (packetBody cmd payload).length = 4 + payload.length := by
  simp [packetBody]
  omega

theorem length_packet (cmd : Half) (payload : List Byte) : (packet cmd payload).length = 9 + payload.length := by
  simp [packet, length_packetBody]
  omega

/-- The first byte is `PRE0`, the second `PRE1`. -/
theorem getD_packet_zero (cmd : Half) (payload : List Byte) : (packet cmd payload).getD 0 0#8 = Config.pre0 := rfl

theorem getD_packet_one (cmd : Half) (payload : List Byte) : (packet cmd payload).getD 1 0#8 = Config.pre1 := rfl

/-- The two length bytes hold the packet's length. -/
theorem packet_announces (cmd : Half) (payload : List Byte) (h : 9 + payload.length ≤ 191) :
    ((packet cmd payload).getD 2 0#8).toNat + 256 * ((packet cmd payload).getD 3 0#8).toNat = 9 + payload.length :=
  (lo8_add_hi8 _).trans (toNat_ofNat_half (by omega))

/-- The covered bytes stand from index 2 on. -/
theorem getD_packet_body (cmd : Half) (payload : List Byte) (a : Nat) (h : a < 4 + payload.length) :
    (packet cmd payload).getD (2 + a) 0#8 = (packetBody cmd payload).getD a 0#8 := by
  have hlen := length_packetBody cmd payload
  rw [packet, List.append_assoc, List.getD_append_right _ _ _ _ (by simp), List.getD_append _ _ _ _ (by simp; omega)]
  simp

/-- The bytes after the covered ones: checksum and end marker. -/
theorem getD_packet_tail (cmd : Half) (payload : List Byte) (a : Nat) :
    (packet cmd payload).getD (6 + payload.length + a) 0#8 =
      [xorBytes (packetBody cmd payload), Config.end0, Config.end1].getD a 0#8 := by
  have hlen : ([Config.pre0, Config.pre1] ++ packetBody cmd payload).length = 6 + payload.length := by
    simp [length_packetBody]
    omega
  rw [packet, List.getD_append_right _ _ _ _ (by rw [hlen]; omega), hlen]
  congr 1
  omega

theorem getD_packet_checksum (cmd : Half) (payload : List Byte) :
    (packet cmd payload).getD (6 + payload.length) 0#8 = xorBytes (packetBody cmd payload) := getD_packet_tail cmd payload 0

theorem getD_packet_end0 (cmd : Half) (payload : List Byte) :
    (packet cmd payload).getD (7 + payload.length) 0#8 = Config.end0 := by
  rw [show 7 + payload.length = 6 + payload.length + 1 by omega]
  exact getD_packet_tail cmd payload 1

theorem getD_packet_end1 (cmd : Half) (payload : List Byte) :
    (packet cmd payload).getD (8 + payload.length) 0#8 = Config.end1 := by
  rw [show 8 + payload.length = 6 + payload.length + 2 by omega]
  exact getD_packet_tail cmd payload 2

/-- Bytes that are right at every place are a packet. -/
theorem Memory.readBytes_eq_packet (m : Memory) (n : Nat) (hn : 9 + n ≤ 191) (h0 : m.read 0 = Config.pre0)
    (h1 : m.read 1 = Config.pre1) (hlen : 9 + n = (m.read 2).toNat + 256 * (m.read 3).toNat)
    (hck : m.read (6 + n) = xorBytes (m.readBytes 2 (4 + n))) (he0 : m.read (7 + n) = Config.end0)
    (he1 : m.read (8 + n) = Config.end1) :
    m.readBytes 0 (9 + n) = packet (u16 (m.read 4) (m.read 5)) (m.readBytes 6 n) := by
  have hword : BitVec.ofNat 16 (9 + n) = u16 (m.read 2) (m.read 3) := by
    apply BitVec.eq_of_toNat_eq
    rw [toNat_ofNat_half (by omega), u16_toNat, hlen]
  have hbody : packetBody (u16 (m.read 4) (m.read 5)) (m.readBytes 6 n) = m.readBytes 2 (4 + n) := by
    rw [packetBody, Memory.length_readBytes, hword, Memory.readBytes_append m 2 4 n]
    simp [Memory.readBytes, List.range'_succ]
  have htail : m.readBytes (6 + n) 3 = [m.read (6 + n), m.read (7 + n), m.read (8 + n)] := by
    simp [Memory.readBytes, List.range'_succ, show 6 + n + 1 = 7 + n by omega, show 7 + n + 1 = 8 + n by omega]
  have hhead : m.readBytes 0 2 = [Config.pre0, Config.pre1] := by
    rw [← h0, ← h1]
    rfl
  rw [packet, hbody, ← hck, ← he0, ← he1, ← htail, ← hhead, ← Memory.readBytes_append]
  rw [show 2 + (4 + n) = 6 + n by omega, show 9 + n = 6 + n + 3 by omega, Memory.readBytes_append, Nat.zero_add]

end Sys2Proof.Machine
end

section
/-!
PROOF. When a wait is matched (44_packet.md R203, R207, R209): only by a packet, and by the expected one at its last byte.
-/
namespace Sys2Proof.Machine

/-! ### Only a packet matches -/

theorem rxLength_awst {s t : State} {b : Byte} (h : rxLength b s = .next t) : t.awst = s.awst := by
  obtain ⟨-, rfl⟩ | ⟨-, -, -, rfl⟩ := (rxLength_next ..).1 h
  all_goals simp [State.rxStored]

/-- The byte that ends a wait is the last one of a candidate equal to the expected bytes. -/
theorem execPrx_matched {s t : State} {b : Byte} (hw : s.awst = .waiting) (h : execPrx b s = .next t)
    (hmatch : t.awst = .matched) : s.rxState = .readingEnd2 ∧ b = Config.end1 ∧ candidateMatches (s.rxStored b) = true := by
  have hne : s.awst ≠ .matched := by
    rw [hw]
    decide
  obtain ⟨-, rfl⟩ | ⟨-, hcase⟩ := execPrx_next b s t h
  · exact absurd hmatch hne
  have hne' : (s.rxStored b).awst ≠ .matched := hne
  generalize s.rxStored b = u at hcase hne' ⊢
  rcases hcase with ⟨-, -, rfl⟩ | ⟨-, -, -, rfl⟩ | ⟨-, -, -, rfl⟩ | ⟨-, -, rfl⟩ | ⟨-, -, -, rfl⟩ | ⟨-, -, rfl⟩ |
    ⟨-, hread⟩ | ⟨-, -, -, rfl⟩ | ⟨-, -, rfl⟩ | ⟨-, -, -, rfl⟩ | ⟨-, -, rfl⟩ | ⟨hst, hb, -, hdone⟩ | ⟨-, -, rfl⟩
  · exact absurd hmatch hne
  iterate 2 exact absurd hmatch hne'
  iterate 2 exact absurd hmatch hne
  · exact absurd hmatch hne'
  · exact absurd hmatch (rxLength_awst hread ▸ hne)
  · exact absurd hmatch hne'
  · exact absurd hmatch hne
  · exact absurd hmatch hne'
  · exact absurd hmatch hne
  · obtain ⟨-, ⟨hcand, -⟩ | ⟨-, rfl⟩⟩ := (completeCandidate_next ..).1 hdone
    · exact ⟨hst, hb, hcand⟩
    · exact absurd hmatch hne'
  · exact absurd hmatch hne

/-- A candidate whose last byte was stored is a packet. -/
theorem State.Inv.rxStored_packet {s : State} (h : s.Inv) (h4 : 4 ≤ s.rxn.toNat) (hlast : s.rxn.toNat + 1 = s.rxlen.toNat) :
    ∃ cmd payload, (s.rxStored Config.end1).bytesAt .rxbuf 0 s.rxlen.toNat = packet cmd payload ∧
      s.rxlen.toNat = 9 + payload.length := by
  have hmax := h.rxlen_le
  have hnext := State.rxStored_storesNext h Config.end1
  obtain ⟨h0, h1, h2⟩ := h.candidateWf
  obtain ⟨hpre1, hsum⟩ := h1 (by omega)
  obtain ⟨h9, -, hann, hck, hend0⟩ := h2 h4
  obtain ⟨n, hn⟩ : ∃ n, s.rxlen.toNat = 9 + n := ⟨s.rxlen.toNat - 9, by omega⟩
  have hsummed : s.summed = 4 + n := by
    rw [State.summed, if_neg (by omega)]
    omega
  rw [hsummed] at hsum
  have hcks := hck (by omega)
  have hends := hend0 (by omega)
  rw [hn, show 9 + n - 3 = 6 + n by omega, hsum] at hcks
  rw [hn, show 9 + n - 2 = 7 + n by omega] at hends
  refine ⟨u16 ((s.rxStored Config.end1).byteAt .rxbuf 4) ((s.rxStored Config.end1).byteAt .rxbuf 5),
    (s.rxStored Config.end1).bytesAt .rxbuf 6 n, ?_, by rw [State.length_bytesAt, hn]⟩
  rw [hn]
  refine Memory.readBytes_eq_packet _ n (by omega) ?_ ?_ ?_ ?_ ?_ ?_
  · exact (hnext.byteAt_old (by omega)).trans (h0 (by omega))
  · exact (hnext.byteAt_old (by omega)).trans hpre1
  · have hb2 := hnext.byteAt_old (a := 2) (by omega)
    have hb3 := hnext.byteAt_old (a := 3) (by omega)
    rw [← hb2, ← hb3, hn] at hann
    exact hann
  · have hold := hnext.bytesAt_old 2 (4 + n) (by omega)
    exact ((hnext.byteAt_old (by omega)).trans hcks).trans (congrArg xorBytes hold.symm)
  · exact (hnext.byteAt_old (by omega)).trans hends
  · exact hnext.byteAt_new (by omega)

/-- A matched candidate's bytes are the expected ones. -/
theorem bytesAt_exp_of_candidateMatches {s : State} {b : Byte} (h : candidateMatches (s.rxStored b) = true) :
    s.bytesAt .exp 0 s.explen.toNat = (s.rxStored b).bytesAt .rxbuf 0 s.rxlen.toNat := by
  obtain ⟨hlen, hbytes⟩ := (candidateMatches_rxStored s b).1 h
  rw [← hlen]
  exact (Memory.readBytes_congr _ _ _ _ fun a _ ha => hbytes a (by omega)).symm

/-- Settles O40: the candidate that matched is a packet by the invariant, and its bytes are the expected ones. -/
theorem onlyAWellFormedPacketMatches : Obligations.OnlyAWellFormedPacketMatches := by
  intro s t b hinv hw ht hmatch
  obtain ⟨hst, rfl, hcand⟩ := execPrx_matched hw ht hmatch
  obtain ⟨h4, hle⟩ := s.at_of_rxState hst
  have hlt := hinv.rxn_lt_rxlen h4
  obtain ⟨cmd, payload, hpacket, hlen⟩ := hinv.rxStored_packet h4 (by omega)
  have hsame := (candidateMatches_rxStored s _).1 hcand
  refine ⟨rfl, cmd, payload, (bytesAt_exp_of_candidateMatches hcand).trans hpacket, ?_⟩
  rw [← hsame.1]
  exact hlen

/-! ### The expected packet matches -/

/-- `r` is `s` after the first `k` bytes of `P` were received from an idle machine. -/
structure State.Receiving (s : State) (P : List Byte) (k : Nat) (r : State) : Prop where
  inv : r.Inv
  waiting : r.awst = .waiting
  rxn : r.rxn.toNat = k
  rxlen : 4 ≤ k → r.rxlen.toNat = P.length
  bytes : ∀ a < k, r.byteAt .rxbuf a = P.getD a 0#8
  exp : r.exp = s.exp
  explen : r.explen = s.explen
  uplpend : r.uplpend = s.uplpend
  seq : r.seq = s.seq
  responses : r.responses = s.responses ++ List.replicate k [0x30#8]

theorem State.receiving_zero {s : State} (h : s.Inv) (hw : s.awst = .waiting) (hr : s.rxn = 0) (P : List Byte) :
    s.Receiving P 0 s where
  inv := h
  waiting := hw
  rxn := by rw [hr]; rfl
  rxlen := fun h4 => absurd h4 (by decide)
  bytes := fun a ha => absurd ha (Nat.not_lt_zero a)
  exp := rfl
  explen := rfl
  uplpend := rfl
  seq := rfl
  responses := by simp

/-- A stored byte of `P` is one byte more. -/
theorem State.Receiving.next {s r : State} {P : List Byte} {k : Nat} (h : s.Receiving P k r) (ck len : Byte)
    (hexec : exec (.prx (P.getD k 0#8)) r =
      .next (State.answer .pending [] { r.rxStored (P.getD k 0#8) with rxck := ck, rxlen := len }))
    (hlen : 4 ≤ k + 1 → len.toNat = P.length) :
    ∃ t, exec (.prx (P.getD k 0#8)) r = .next t ∧ s.Receiving P (k + 1) t := by
  have hnext := State.rxStored_storesNext h.inv (P.getD k 0#8)
  refine ⟨_, hexec, exec_inv h.inv _ hexec, h.waiting, hnext.1.trans (by rw [h.rxn]), hlen, fun a ha => ?_, h.exp, h.explen,
    h.uplpend, h.seq, ?_⟩
  · by_cases hnew : a = k
    · subst hnew
      exact hnext.byteAt_new h.rxn.symm
    · exact (hnext.byteAt_old (by rw [h.rxn]; exact hnew)).trans (h.bytes a (by omega))
  · show r.responses ++ [[0x30#8]] = _
    rw [h.responses, List.replicate_succ', List.append_assoc]

/-- Every byte of the packet but the last is stored. -/
theorem State.Receiving.step {s r : State} {cmd : Half} {payload : List Byte} {k : Nat}
    (h : s.Receiving (packet cmd payload) k r) (h191 : 9 + payload.length ≤ 191) (hk : k + 1 < 9 + payload.length) :
    ∃ t, exec (.prx ((packet cmd payload).getD k 0#8)) r = .next t ∧ s.Receiving (packet cmd payload) (k + 1) t := by
  have hr := h.rxn
  have hlen := length_packet cmd payload
  have hmax := h.inv.rxn_lt
  by_cases h4 : 4 ≤ k
  · have hrxlen : r.rxlen.toNat = 9 + payload.length := (h.rxlen h4).trans hlen
    have hlen' : 4 ≤ k + 1 → r.rxlen.toNat = (packet cmd payload).length := fun _ => h.rxlen h4
    by_cases hbody : k < 6 + payload.length
    · exact h.next (r.rxck ^^^ _) r.rxlen (exec_prx_body _ h.waiting (by omega) (by omega) hmax) hlen'
    · by_cases hck : k = 6 + payload.length
      · have hsummed : r.summed = 4 + payload.length := by
          rw [State.summed, if_neg (by omega)]
          omega
        have hcover : r.bytesAt .rxbuf 2 (4 + payload.length) = packetBody cmd payload := by
          refine List.ext_getElem (by simp [length_packetBody]) fun a h1 h2 => ?_
          have ha : a < 4 + payload.length := by simpa using h1
          have hget : (r.bytesAt .rxbuf 2 (4 + payload.length))[a] = r.byteAt .rxbuf (2 + a) :=
            Memory.getElem_readBytes _ _ _ _ _
          rw [hget, h.bytes _ (by omega), getD_packet_body cmd payload a ha, List.getD_eq_getElem]
        obtain ⟨-, hsum, -⟩ := h.inv.candidateWf
        have hright : (packet cmd payload).getD k 0#8 = r.rxck := by
          rw [(hsum (by omega)).2, hsummed, hcover, hck]
          exact getD_packet_checksum cmd payload
        refine h.next r.rxck r.rxlen ?_ hlen'
        rw [exec_prx_readingChecksum _ h.waiting (by omega) (by omega), rxExpect_good _ _ _ hmax hright, respond_eq]
        rfl
      · have hend : (packet cmd payload).getD k 0#8 = Config.end0 := by
          rw [show k = 7 + payload.length by omega]
          exact getD_packet_end0 cmd payload
        refine h.next r.rxck r.rxlen ?_ hlen'
        rw [exec_prx_readingEnd1 _ h.waiting (by omega) (by omega), rxExpect_good _ _ _ hmax hend, respond_eq]
        rfl
  · obtain rfl | rfl | rfl | rfl : k = 0 ∨ k = 1 ∨ k = 2 ∨ k = 3 := by omega
    · exact h.next r.rxck r.rxlen (exec_prx_idle_pre0 _ h.waiting hr (getD_packet_zero ..)) nofun
    · exact h.next 0#8 r.rxlen (exec_prx_sawPreamble1_pre1 _ h.waiting hr (getD_packet_one ..)) (by omega)
    · exact h.next (r.rxck ^^^ _) r.rxlen (exec_prx_sawPreamble2 _ h.waiting hr) (by omega)
    · have hann : r.announced ((packet cmd payload).getD 3 0#8) = 9 + payload.length := by
        rw [State.announced, h.bytes 2 (by decide)]
        exact packet_announces cmd payload h191
      refine h.next (r.rxck ^^^ _) (BitVec.ofNat 8 (r.announced ((packet cmd payload).getD 3 0#8)))
        (exec_prx_readingLength_good _ h.waiting hr (by omega) (by omega)) fun _ => ?_
      rw [hann, hlen]
      exact Nat.mod_eq_of_lt (by omega)

/-- The packet but its last byte. -/
theorem State.receiving_take {s : State} (h : s.Inv) (hw : s.awst = .waiting) (hr : s.rxn = 0) (cmd : Half)
    (payload : List Byte) (h191 : 9 + payload.length ≤ 191) (k : Nat) (hk : k < 9 + payload.length) :
    ∃ r, runAll (((packet cmd payload).take k).map .prx) s = .next r ∧ s.Receiving (packet cmd payload) k r := by
  induction k with
  | zero => exact ⟨s, rfl, State.receiving_zero h hw hr _⟩
  | succ k ih =>
    obtain ⟨r, hrun, hrec⟩ := ih (by omega)
    obtain ⟨t, ht, hnext⟩ := hrec.step h191 hk
    have hin : k < (packet cmd payload).length := by
      rw [length_packet]
      omega
    refine ⟨t, ?_, hnext⟩
    rw [List.take_add_one, List.getElem?_eq_getElem hin, List.map_append, runAll_append hrun]
    rw [List.getD_eq_getElem _ _ hin] at ht
    exact (runAll_singleton _ r).trans ht

/-- Bytes outside a wait are dropped. -/
theorem runAll_prxs_of_not_waiting (bs : List Byte) (s : State) (hw : s.awst ≠ .waiting) :
    runAll (bs.map .prx) s = .next { s with responses := s.responses ++ List.replicate bs.length [0x33#8] } := by
  induction bs generalizing s with
  | nil => simp [runAll]
  | cons b bs ih =>
    rw [List.map_cons, runAll_cons (exec_prx_of_not_waiting b hw), ih (s.answer .notWaiting []) hw]
    simp [List.replicate_succ, State.answer, Status.code]

/-- Settles O39: all bytes but the last are received, the last one completes the expected packet, and what follows is dropped. -/
theorem expectedPacketEndsTheWait : Obligations.ExpectedPacketEndsTheWait := by
  rintro s cmd payload extra _ hinv hw hr rfl h191 hexplen hexp
  obtain ⟨r, hrun, hrec⟩ := State.receiving_take hinv hw hr cmd payload h191 (8 + payload.length) (by omega)
  have hlen := length_packet cmd payload
  have hrxlen : r.rxlen.toNat = 9 + payload.length := (hrec.rxlen (by omega)).trans hlen
  have hrxn := hrec.rxn
  obtain ⟨-, hlast⟩ := prxCompletesTheCandidate r Config.end1 hrec.inv hrec.waiting (by omega) (by omega)
  obtain ⟨t, ht, hbytes, -, hmatch⟩ := hlast rfl
  have hsame : ∀ a < r.rxlen.toNat, t.byteAt .rxbuf a = r.byteAt .exp a := by
    intro a ha
    have hexpected : r.byteAt .exp a = (packet cmd payload).getD a 0#8 := by
      rw [← hexp, State.bytesAt, Memory.getD_readBytes _ _ _ _ (by omega), Nat.zero_add]
      exact congrArg (fun m => Memory.read m a) hrec.exp
    rw [hexpected, hbytes]
    split
    · next hend =>
      rw [hend, hrxn]
      exact (getD_packet_end1 cmd payload).symm
    · exact hrec.bytes a (by omega)
  obtain ⟨hframe, hseq⟩ := hmatch (BitVec.eq_of_toNat_eq (by rw [hrxlen, hrec.explen, hexplen])) hsame
  have hdone : t.awst ≠ .waiting := by
    rw [hframe]
    exact WaitState.noConfusion
  refine ⟨{ t with responses := t.responses ++ List.replicate extra.length [0x33#8] }, ?run, ?awst, ?resp, ?seq⟩
  case run =>
    have hsplit : packet cmd payload = (packet cmd payload).take (8 + payload.length) ++ [Config.end1] := by
      have hin : 8 + payload.length < (packet cmd payload).length := by omega
      have hget := getD_packet_end1 cmd payload
      rw [List.getD_eq_getElem _ _ hin] at hget
      rw [← hget, List.take_concat_get' _ _ hin, List.take_of_length_le (by omega)]
    rw [Pseudo.expand, List.map_append, hsplit, List.map_append, List.append_assoc, runAll_append hrun, List.map_singleton,
      List.singleton_append, runAll_cons ht]
    exact runAll_prxs_of_not_waiting extra t hdone
  case awst => rw [hframe]
  case resp =>
    have hresp : t.responses = r.responses ++ [[0x31#8]] := by rw [hframe]
    show t.responses ++ List.replicate extra.length [0x33#8] = _
    rw [hresp, hrec.responses, show 9 + payload.length - 1 = 8 + payload.length by omega]
  case seq =>
    rw [← hrec.uplpend, ← hrec.seq]
    exact hseq

end Sys2Proof.Machine
end

section
/-!
PROOF. The upload sequencer (45_upload.md R230 to R234): `UBEGIN`, `USUB`, `UFIN`.
-/
namespace Sys2Proof.Machine

/-! ### `UBEGIN` -/

/-- Settles O43: the restarted buffer is empty, and every byte of it reads 0. -/
theorem ubeginRestartsTheUpload : Obligations.UbeginRestartsTheUpload := by
  intro s
  refine ⟨fun hw => (execUbegin_next s _).2 (.inl ⟨hw, rfl⟩), fun hw => ?restart⟩
  case restart => exact ⟨_, (execUbegin_next s _).2 (.inr ⟨hw, rfl⟩), rfl, fun a => rfl⟩

/-! ### `USUB` -/

/-- Settles O44: the guards in their order, and one stored sub-payload. -/
theorem usubStoresASubPayload : Obligations.UsubStoresASubPayload := by
  intro s d hd
  refine ⟨fun hw => ?busy, fun hw hseq => ?exhausted, fun hw hseq hk hwf => ?stored⟩
  case busy => exact (execUsub_next d s _).2 (.inl ⟨hw, rfl⟩)
  case exhausted => exact (execUsub_next d s _).2 (.inr (.inl ⟨hw, hseq, rfl⟩))
  case stored =>
    refine ⟨_, (execUsub_next d s _).2 (.inr (.inr ⟨hw, hseq, subOffset_fits s d hd, .inl ⟨hk, rfl⟩⟩)), rfl, ?count, ?area,
      fun a ha => ?rest⟩
    case count =>
      show (s.subcnt + 1).val = _
      omega
    case area =>
      have hsame := State.store_bytesAt_same .ubuf (subOffset s.subcnt.val) d s hwf
      rw [hd] at hsame
      exact hsame
    case rest =>
      rw [State.answer_byteAt, State.setSubcnt_byteAt, State.store_byteAt .ubuf .ubuf _ a d s hwf, if_neg]
      rintro ⟨-, hge, hlt⟩
      have hoff : subOffset s.subcnt.val = 8 + 60 * s.subcnt.val := rfl
      omega

/-! ### Sending a packet -/

/-- What storing the last bytes of the area, sending the packet and answering leaves: all of the next state. -/
theorem State.uploadSent_answered {s t : State} (h : s.Inv) (i : Nat) (d area : List Byte) (q : Half) (w : Pending)
    (harea : (s.store .ubuf i d).bytesAt .ubuf 8 180 = area)
    (ht : t = ((s.store .ubuf i d).uploadSent q w).answer .pending []) :
    t = { s with
      ubuf := t.ubuf, exp := t.exp, subcnt := 0, explen := BitVec.ofNat 8 (ackOf s.params q).length,
      tmo := s.params.uplTmo, rxn := 0, rxlen := 0, rxck := 0, uplpend := w, awst := .waiting,
      txOut := s.txOut ++ packet s.params.uplCmd ([lo8 q, hi8 q] ++ area), responses := s.responses ++ [[0x30#8]] } ∧
    t.bytesAt .ubuf 0 191 = packet s.params.uplCmd ([lo8 q, hi8 q] ++ area) ∧
    t.bytesAt .exp 0 (ackOf s.params q).length = ackOf s.params q ∧
    ∀ a, (ackOf s.params q).length ≤ a → t.byteAt .exp a = s.byteAt .exp a := by
  have hwf : (s.store .ubuf i d).ubuf.wf = true := Memory.wf_writeBytes _ _ _ (h.mem_wf .ubuf)
  obtain ⟨hubuf, hexp, hrest, hframe⟩ := State.uploadSent_spec _ q w area harea hwf (h.mem_wf .exp)
  generalize (s.store .ubuf i d).uploadSent q w = u at *
  subst ht
  refine ⟨?_, hubuf, hexp, hrest⟩
  exact congrArg (State.answer .pending []) hframe

/-- Settles O45. -/
theorem thirdSubPayloadSendsTheUnit : Obligations.ThirdSubPayloadSendsTheUnit := by
  intro s d hinv hd hw hseq hk
  have hk2 : s.subcnt.val = 2 := by
    rw [hk]
    rfl
  have hthird := State.third_area s d (hinv.mem_wf .ubuf) hd
  rw [← hk2] at hthird
  obtain ⟨-, hack⟩ := ackOf_length s.params hinv.params_wf s.seq
  have hfit := subOffset_fits s d hd
  have hsent := State.uploadSent_answered hinv _ d _ s.seq .unit hthird rfl
  rw [← List.append_assoc] at hsent
  exact ⟨_, (execUsub_next d s _).2 (.inr (.inr ⟨hw, hseq, hfit, .inr ⟨by omega, hack, rfl⟩⟩)), hsent⟩

/-- `t` is `s` after the first `k` sub-payloads of a unit, `area` together, were stored. -/
structure State.Stored (s : State) (k : Nat) (area : List Byte) (t : State) : Prop where
  inv : t.Inv
  frame : t = { s with ubuf := t.ubuf, subcnt := t.subcnt, responses := s.responses ++ List.replicate k [0x00#8] }
  count : t.subcnt.val = k
  area : t.bytesAt .ubuf 8 (60 * k) = area

theorem State.stored_zero {s : State} (h : s.Inv) (hk : s.subcnt = 0) : s.Stored 0 [] s where
  inv := h
  frame := by simp
  count := by
    rw [hk]
    rfl
  area := rfl

/-- What storing sub-payloads leaves unchanged. -/
theorem State.Stored.unchanged {s t : State} {k : Nat} {area : List Byte} (h : s.Stored k area t) :
    t.awst = s.awst ∧ t.seq = s.seq ∧ t.params = s.params ∧ t.txOut = s.txOut ∧
      t.responses = s.responses ++ List.replicate k [0x00#8] := by
  rw [h.frame]
  simp

/-- One of the first two sub-payloads of a unit: the area stored so far grows by it. -/
theorem State.Stored.next {s r : State} {k : Nat} {area d : List Byte} (h : s.Stored k area r) (hk : k < 2) (hd : d.length = 60)
    (hw : s.awst ≠ .waiting) (hseq : s.seq ≠ 0xFFFF#16) :
    ∃ t, exec (.usub d) r = .next t ∧ s.Stored (k + 1) (area ++ d) t := by
  obtain ⟨hawst, hrseq, -⟩ := h.unchanged
  obtain ⟨-, -, hstored⟩ := usubStoresASubPayload r d hd
  rw [hawst, hrseq, h.count] at hstored
  obtain ⟨t, ht, hframe, hcount, hsame, hrest⟩ := hstored hw hseq hk (h.inv.mem_wf .ubuf)
  refine ⟨t, ht, exec_inv h.inv _ ht, ?frame, hcount, ?area⟩
  case frame =>
    rw [hframe, h.frame]
    simp [List.replicate_succ']
  case area =>
    rw [Nat.mul_succ, State.bytesAt_append, hsame, ← h.area]
    congr 1
    exact Memory.readBytes_congr _ _ _ _ fun a _ ha => hrest a (.inl ha)

/-- The third sub-payload after the first two. -/
theorem State.Stored.sent {s r : State} {area d : List Byte} (h : s.Stored 2 area r) (hd : d.length = 60)
    (hw : s.awst ≠ .waiting) (hseq : s.seq ≠ 0xFFFF#16) :
    ∃ t, exec (.usub d) r = .next t ∧
      t.txOut = s.txOut ++ packet s.params.uplCmd ([lo8 s.seq, hi8 s.seq] ++ (area ++ d)) ∧
      t.awst = .waiting ∧ t.uplpend = .unit ∧ t.tmo = s.params.uplTmo ∧ t.seq = s.seq ∧ t.subcnt = 0 ∧
      t.bytesAt .exp 0 t.explen.toNat = ackOf s.params s.seq ∧
      t.responses = s.responses ++ [[0x00#8], [0x00#8], [0x30#8]] := by
  obtain ⟨hawst, hrseq, hparams, htx, hresp⟩ := h.unchanged
  obtain ⟨-, hack⟩ := ackOf_length r.params h.inv.params_wf r.seq
  obtain ⟨t, ht, hframe, -, hexp, -⟩ :=
    thirdSubPayloadSendsTheUnit r d h.inv hd (hawst ▸ hw) (hrseq ▸ hseq) (Fin.ext h.count)
  have hexplen : t.explen.toNat = (ackOf r.params r.seq).length := by
    rw [hframe]
    exact Nat.mod_eq_of_lt (by omega)
  have harea : r.bytesAt .ubuf 8 120 = area := h.area
  refine ⟨t, ht, ?_⟩
  rw [hexplen, hexp, ← hparams, ← hrseq, ← htx, ← harea, hframe, hresp]
  simp

/-- Neighbouring ranges joined. -/
theorem slice_append_slice (L : List Byte) {a b c : Nat} (hab : a ≤ b) (hbc : b ≤ c) (hc : c ≤ L.length) :
    slice L a b ++ slice L b c = slice L a c := by
  have hb : (L.take b) = (L.take c).take b := by rw [List.take_take, Nat.min_eq_left hbc]
  rw [slice, slice, slice, hb, ← List.drop_append_of_le_length (by simp; omega), List.take_append_drop]

theorem length_slice (L : List Byte) {a b : Nat} (hb : b ≤ L.length) : (slice L a b).length = b - a := by
  rw [slice, List.length_drop, List.length_take, Nat.min_eq_left hb]

/-- Settles O46: of the 180 bytes the first two parts are stored one after the other, and the third one sends. -/
theorem threeSubPayloadsEmitOneUnit : Obligations.ThreeSubPayloadsEmitOneUnit := by
  intro s d hinv hd hw hseq hk
  have hall : slice d 0 60 ++ slice d 60 120 ++ slice d 120 180 = d := by
    rw [slice_append_slice d (by decide) (by decide) (by omega), slice_append_slice d (by decide) (by decide) (by omega), slice,
      ← hd, List.take_length, List.drop_zero]
  obtain ⟨r, hr, hone⟩ := (State.stored_zero hinv hk).next (by decide) (length_slice d (a := 0) (b := 60) (by omega)) hw hseq
  obtain ⟨u, hu, htwo⟩ := hone.next (by decide) (length_slice d (a := 60) (b := 120) (by omega)) hw hseq
  obtain ⟨t, ht, hsent⟩ := htwo.sent (length_slice d (a := 120) (b := 180) (by omega)) hw hseq
  rw [List.nil_append, hall] at hsent
  refine ⟨t, ?_, hsent⟩
  rw [Pseudo.expand, runAll_cons hr, runAll_cons hu, runAll_singleton, ht]

/-! ### `UFIN` -/

/-- Settles O47. -/
theorem ufinSendsTheFinalPacket : Obligations.UfinSendsTheFinalPacket := by
  intro s
  refine ⟨fun hw => ?busy, fun hw hk => ?state, fun hinv hw hk => ?sent⟩
  case busy => exact (execUfin_next s _).2 (.inl ⟨hw, rfl⟩)
  case state => exact (execUfin_next s _).2 (.inr (.inl ⟨hw, hk, rfl⟩))
  case sent =>
    obtain ⟨-, hack⟩ := ackOf_length s.params hinv.params_wf 0xFFFF#16
    have hstep := (execUfin_next s _).2 (.inr (.inr ⟨hw, hk, hack, rfl⟩))
    have hlen : (List.replicate 180 0x00#8 : List Byte).length = 180 := List.length_replicate
    generalize (List.replicate 180 0x00#8 : List Byte) = area at hstep hlen ⊢
    have harea := State.store_bytesAt_same .ubuf 8 area s (hinv.mem_wf .ubuf)
    rw [hlen] at harea
    have hsent := State.uploadSent_answered hinv 8 area area 0xFFFF#16 .final harea rfl
    rw [← hk] at hsent
    exact ⟨_, hstep, hsent⟩

end Sys2Proof.Machine
end
